-- ==== Sys2Proof/Word.lean ====
section
/-! DEFINITION. The word types of the block: bytes, command and response words.

A `W`-bit quantity (`size`, `head`, `tail`, `count`, the thresholds, the operand of format `V`; 00_scope R5) is held as its
unsigned value, a `Nat`: `W` is an argument, all arithmetic on these quantities is over the integers, and every result fits
its register (00_scope R6, 10_state R31). That each is below `2^W` is `State.WidthsOk`, which every step keeps. Log 1. -/

namespace Sys2Proof

/-- A byte, unsigned, 0 to 255 (00_scope R6). -/
abbrev Byte := BitVec 8

/-- A command word `CMD` of `8 + W` bits (30_encoding R64). -/
abbrev CommandWord (W : Nat) := BitVec (8 + W)

/-- A response word `RSP` of `8 + W` bits (30_encoding R70). -/
abbrev ResponseWord (W : Nat) := BitVec (8 + W)

end Sys2Proof
end

