-- ==== Sys2Proof/Syntax.lean ====
section
/-! DEFINITION. The operations of the block: one constructor for each row of the opcode map (30_encoding R66). -/

namespace Sys2Proof

/-- The nineteen operations. A byte and a flag have exactly the width their format carries; a `W`-bit value is below
`2^W` in a well-formed operation (30_encoding R65, R67). -/
inductive Instr where
  /-- INIT_STATIC `size` (40 R91). -/
  | initStatic (size : Nat)
  /-- INIT_DYNAMIC `size` (40 R92). -/
  | initDynamic (size : Nat)
  /-- TEARDOWN (40 R93). -/
  | teardown
  /-- RESET, the command (40 R94); not the hardware reset. -/
  | reset
  /-- PUSH `byte` (41 R111). -/
  | push (byte : Byte)
  /-- PUSH_OVW `byte` (41 R112). -/
  | pushOvw (byte : Byte)
  /-- POP (41 R113). -/
  | pop
  /-- PEEK `index` (41 R114). -/
  | peek (index : Nat)
  /-- IS_EMPTY (41 R115). -/
  | isEmpty
  /-- IS_FULL (41 R116). -/
  | isFull
  /-- PUSH_SAFE `byte` (41 R117). -/
  | pushSafe (byte : Byte)
  /-- POP_SAFE (41 R118). -/
  | popSafe
  /-- SET_OVERWRITE `enable` (42 R140). -/
  | setOverwrite (enable : Bool)
  /-- SET_HIGH_WM `value` (42 R141). -/
  | setHighWm (value : Nat)
  /-- SET_LOW_WM `value` (42 R142). -/
  | setLowWm (value : Nat)
  /-- CHECK_WM (42 R143). -/
  | checkWm
  /-- ADD_MESSAGE `length`, with the side operand `MSG_IN` (43 R161). -/
  | addMessage (length : Byte)
  /-- GET_MESSAGE (43 R164). -/
  | getMessage
  /-- DUMP (42 R145). -/
  | dump
  deriving DecidableEq, Repr

/-- The four formats (30_encoding R65). -/
inductive Format where
  /-- No operand. -/
  | N
  /-- A `W`-bit unsigned value. -/
  | V
  /-- A byte in `arg[7:0]`. -/
  | B
  /-- A flag in `arg[0]`. -/
  | F
  deriving DecidableEq, Repr

end Sys2Proof
end

