-- ==== Sys2Proof/WellFormed.lean ====
section
/-! DEFINITION. When a command word is legal (30_encoding R69): its opcode is in the map of R66, and every bit its
format requires to be zero (R65) is zero. -/

namespace Sys2Proof

/-- `CMD[W+7 : W]`, the opcode (30_encoding R64). -/
def opField {W : Nat} (w : CommandWord W) : Byte := w.extractLsb' W 8

/-- `CMD[W-1 : 0]`, the operand field `arg` (30_encoding R64). -/
def argField {W : Nat} (w : CommandWord W) : BitVec W := w.extractLsb' 0 W

/-- The bits of `arg` that a format requires to be zero are zero: all of them for `N`, `arg[W-1:8]` for `B`,
`arg[W-1:1]` for `F` (30_encoding R65). -/
def Format.reservedClear (f : Format) {W : Nat} (arg : BitVec W) : Bool :=
  match f with
  | .N => arg == 0
  | .V => true
  | .B => arg.extractLsb' 8 (W - 8) == 0
  | .F => arg.extractLsb' 1 (W - 1) == 0

/-- The format of each opcode of the map (30_encoding R66); `none` for an opcode that is not in it. -/
def formatOfOpcode (op : Byte) : Option Format :=
  match op.toNat with
  | 0x01 => some .V
  | 0x02 => some .V
  | 0x03 => some .N
  | 0x04 => some .N
  | 0x10 => some .B
  | 0x11 => some .B
  | 0x12 => some .N
  | 0x13 => some .V
  | 0x14 => some .N
  | 0x15 => some .N
  | 0x18 => some .B
  | 0x1A => some .N
  | 0x20 => some .F
  | 0x21 => some .V
  | 0x22 => some .V
  | 0x23 => some .N
  | 0x30 => some .B
  | 0x31 => some .N
  | 0x3F => some .N
  | _ => none

/-- A command word is legal (30_encoding R69). -/
def legalWord {W : Nat} (w : CommandWord W) : Bool :=
  match formatOfOpcode (opField w) with
  | none => false
  | some f => f.reservedClear (argField w)

/-- The format of an operation (30_encoding R66). -/
def Instr.format : Instr → Format
  | .initStatic _ => .V
  | .initDynamic _ => .V
  | .teardown => .N
  | .reset => .N
  | .push _ => .B
  | .pushOvw _ => .B
  | .pop => .N
  | .peek _ => .V
  | .isEmpty => .N
  | .isFull => .N
  | .pushSafe _ => .B
  | .popSafe => .N
  | .setOverwrite _ => .F
  | .setHighWm _ => .V
  | .setLowWm _ => .V
  | .checkWm => .N
  | .addMessage _ => .B
  | .getMessage => .N
  | .dump => .N

/-- The operand of an operation as the number in `arg`: unsigned, not scaled, not shifted, a byte or a flag with zero
bits above it (30_encoding R67). -/
def Instr.operand : Instr → Nat
  | .initStatic n => n
  | .initDynamic n => n
  | .teardown => 0
  | .reset => 0
  | .push b => b.toNat
  | .pushOvw b => b.toNat
  | .pop => 0
  | .peek i => i
  | .isEmpty => 0
  | .isFull => 0
  | .pushSafe b => b.toNat
  | .popSafe => 0
  | .setOverwrite e => e.toNat
  | .setHighWm v => v
  | .setLowWm v => v
  | .checkWm => 0
  | .addMessage n => n.toNat
  | .getMessage => 0
  | .dump => 0

/-- An operation is well formed at width `W` when its operand fits the `W` bits of `arg` (30_encoding R64, R67). For a
byte or a flag it does at every legal `W` (`Sys2Proof.Laws.wellFormed_of_bounded`). -/
def Instr.wellFormed (W : Nat) (i : Instr) : Bool := decide (i.operand < 2 ^ W)

end Sys2Proof
end

