-- ==== Sys2Proof/Decode.lean ====
section
/-! DEFINITION. Decoding and encoding of the command word (30_encoding sections 2 and 3). -/

namespace Sys2Proof

/-- Why a word is illegal (30_encoding R69). -/
inductive DecodeError where
  /-- The opcode is not in the map of R66. -/
  | unassignedOpcode
  /-- A bit that the format requires to be zero is 1 (R65). -/
  | reservedBitsSet
  deriving DecidableEq, Repr

/-- Format `N`: all of `arg` must be zero (30_encoding R65). -/
def noOperand {W : Nat} (arg : BitVec W) (i : Instr) : Except DecodeError Instr :=
  if Format.N.reservedClear arg then .ok i else .error .reservedBitsSet

/-- Format `B`: the operand is `arg[7:0]` (30_encoding R65, R67). -/
def byteOperand {W : Nat} (arg : BitVec W) (i : Byte → Instr) : Except DecodeError Instr :=
  if Format.B.reservedClear arg then .ok (i (arg.extractLsb' 0 8)) else .error .reservedBitsSet

/-- Format `F`: the operand is true when `arg[0] = 1` (30_encoding R65, R67). -/
def flagOperand {W : Nat} (arg : BitVec W) (i : Bool → Instr) : Except DecodeError Instr :=
  if Format.F.reservedClear arg then .ok (i (arg.getLsbD 0)) else .error .reservedBitsSet

/-- The decoder: total on the `2^(8+W)` command words; the opcode map is 30_encoding R66, and the layout is the same at
every width (R67). -/
def decode {W : Nat} (w : CommandWord W) : Except DecodeError Instr :=
  match (opField w).toNat with
  | 0x01 => .ok (.initStatic (argField w).toNat)
  | 0x02 => .ok (.initDynamic (argField w).toNat)
  | 0x03 => noOperand (argField w) .teardown
  | 0x04 => noOperand (argField w) .reset
  | 0x10 => byteOperand (argField w) .push
  | 0x11 => byteOperand (argField w) .pushOvw
  | 0x12 => noOperand (argField w) .pop
  | 0x13 => .ok (.peek (argField w).toNat)
  | 0x14 => noOperand (argField w) .isEmpty
  | 0x15 => noOperand (argField w) .isFull
  | 0x18 => byteOperand (argField w) .pushSafe
  | 0x1A => noOperand (argField w) .popSafe
  | 0x20 => flagOperand (argField w) .setOverwrite
  | 0x21 => .ok (.setHighWm (argField w).toNat)
  | 0x22 => .ok (.setLowWm (argField w).toNat)
  | 0x23 => noOperand (argField w) .checkWm
  | 0x30 => byteOperand (argField w) .addMessage
  | 0x31 => noOperand (argField w) .getMessage
  | 0x3F => noOperand (argField w) .dump
  | _ => .error .unassignedOpcode

/-- The opcode of an operation (30_encoding R66). -/
def opcodeOf : Instr → Byte
  | .initStatic _ => 0x01
  | .initDynamic _ => 0x02
  | .teardown => 0x03
  | .reset => 0x04
  | .push _ => 0x10
  | .pushOvw _ => 0x11
  | .pop => 0x12
  | .peek _ => 0x13
  | .isEmpty => 0x14
  | .isFull => 0x15
  | .pushSafe _ => 0x18
  | .popSafe => 0x1A
  | .setOverwrite _ => 0x20
  | .setHighWm _ => 0x21
  | .setLowWm _ => 0x22
  | .checkWm => 0x23
  | .addMessage _ => 0x30
  | .getMessage => 0x31
  | .dump => 0x3F

/-- The encoder at width `W`: `CMD = op, arg` with the opcode in the high bits (30_encoding R64). -/
def encode (W : Nat) (i : Instr) : CommandWord W := opcodeOf i ++ BitVec.ofNat W i.operand

/-- The decoder on a word of the opcode table, which is written at `W = 16`. A command is one word of 24 bits delivered
whole (30_encoding R64), numbered as the table numbers it, so there is no byte order to choose. Log 25. -/
def decodeTableWord (nbits w : Nat) : Option Instr :=
  if nbits ≤ 24 ∧ w < 2 ^ 24 then
    match decode (W := 16) (BitVec.ofNat 24 w) with
    | .ok i => some i
    | .error _ => none
  else none

end Sys2Proof
end

