-- ==== Sys2Proof/Config.lean ====
section
/-! DEFINITION. What an implementation of the block fixes (00_scope R5), and the free values: items of which the spec
says that they hold no value (93_implementation_defined section 2, treatment "any value"). -/

namespace Sys2Proof

/-- The parameters of 00_scope R5 that are arguments of a model. They are constant over a run. Log 2. -/
structure Config where
  /-- `W`: the width of `size`, `head`, `tail`, `count`, the thresholds and the operand field; at least 8 (30_encoding
  R67). -/
  width : Nat
  /-- `START_BYTE`: the frame's start marker (30_encoding R63). -/
  startByte : Byte
  /-- `STORE_BYTES`: entries of physical storage attached to the block. -/
  storeBytes : Nat
  /-- `FRAMER_ATOMIC_PRIMS`: whether each micro-step of the framer is atomic (20_memory R53). -/
  framerAtomicPrims : Bool
  deriving DecidableEq, Repr

/-- The defaults of 00_scope R5; `STORE_BYTES` is `2^W - 1`. -/
def Config.default : Config :=
  { width := 16, startByte := 0xAA, storeBytes := 2 ^ 16 - 1, framerAtomicPrims := true }

/-- What a `W`-bit register that holds no value reads as: nothing constrains its `W` bits. Log 7. -/
opaque Config.freeWord (W : Nat) : Nat → BitVec W

/-- What a byte register that holds no value reads as: nothing constrains it. Log 8. -/
opaque Config.freeByte : Nat → Byte

/-- What a one-bit register that holds no value reads as: nothing constrains it. Log 7. -/
opaque Config.freeBit : Nat → Bool

end Sys2Proof
end

