-- ==== Sys2Proof/Machine/State.lean ====
section
/-! DEFINITION. The state of the block (10_state R10), its ports, and the environment that drives it, as plain data;
the reasons a step can stop; the state after reset. -/

namespace Sys2Proof.Machine

/-- `life` (10_state R11). -/
inductive Life where
  /-- No successful init since hardware reset or since the last TEARDOWN. -/
  | uninit
  /-- The last successful init was INIT_STATIC. -/
  | static
  /-- The last successful init was INIT_DYNAMIC, and no TEARDOWN since. -/
  | dynamic
  deriving DecidableEq, Repr

/-- `fstate`, the parser's state-machine register (10_state R20). -/
inductive FState where
  | idle
  | awaitStart
  | awaitLength
  | consumePayload
  | validate
  | done
  | failed
  deriving DecidableEq, Repr

/-- The agents that issue commands (20_memory R48). -/
inductive Agent where
  /-- `A`, the asynchronous context. -/
  | async
  /-- `S`, the synchronous context. -/
  | sync
  deriving DecidableEq, Repr

/-- The statuses of a response (30_encoding R71, 60_exceptions R201). -/
inductive Status where
  | ok
  | full
  | empty
  | outOfRange
  | allocationError
  | invalidLength
  | insufficientSpace
  | invalidStart
  | incomplete
  | checksumMismatch
  | badCommand
  deriving DecidableEq, Repr

/-- `wm`, the three-valued watermark condition (10_state R28). -/
inductive Watermark where
  | none
  | low
  | high
  deriving DecidableEq, Repr

/-- A byte space in canonical form: cells in strictly rising order of index. An index that is not listed holds no
value (10_state R19, R25, R33). Log 5. -/
abbrev Memory := List Host.Cell

/-- A command as an agent presents it: the word (30_encoding R64) as a number, of which the port has the low `8 + W` bits
(`Command.bits`), the side operand `MSG_IN[0 .. 255]`, held unchanged
for the whole operation (30_encoding R73), and the environment's draw `alloc_grant` for it (00_scope R5). Log 23. -/
structure Command where
  word : Nat
  msgIn : Vector Byte 256
  grant : Bool
  deriving DecidableEq, Repr

/-- How far an agent's operation is. -/
inductive Phase where
  /-- No operation in progress. -/
  | free
  /-- A command is at the command port and none of its micro-steps has been performed. Log 10. -/
  | accepted
  /-- Between two micro-steps of an ADD_MESSAGE (43 R162). -/
  | building
  /-- Between two micro-steps of a GET_MESSAGE (43 R165). -/
  | parsing
  deriving DecidableEq, Repr

/-- The command an agent has in progress. In phase `free` the command has no meaning. -/
structure Port where
  phase : Phase
  cmd : Command
  deriving DecidableEq, Repr

/-- The response port: which agent is answered, and the `8 + W` bits of the word as a number (30_encoding R70). -/
structure Response where
  agent : Agent
  word : Nat
  deriving DecidableEq, Repr

/-- A line of agent `S` (30_encoding R74, R75): a command, or the host's move `SETIE v`. -/
inductive Line where
  | command (c : Command)
  | setIe (v : Bool)
  deriving DecidableEq, Repr

/-- Who moves next. No rule constrains the schedule beyond 20_memory R49, R50. Log 9. -/
inductive Turn where
  /-- Agent `A` performs a step. -/
  | async
  /-- Agent `S` performs a step. -/
  | sync
  /-- The host performs `HWRESET` (70 R230). -/
  | hwReset
  deriving DecidableEq, Repr

/-- Everything the spec gives the machine, its ports and its environment. A `W`-bit register holds its unsigned value,
and `W` is `cfg.width`. -/
structure State where
  /-- The parameters of the block (00_scope R5). No step changes them. -/
  cfg : Config
  /-- 10_state R11. -/
  life : Life
  /-- 10_state R12. -/
  size : Nat
  /-- 10_state R13. -/
  head : Nat
  /-- 10_state R14. -/
  tail : Nat
  /-- 10_state R15. -/
  count : Nat
  /-- 10_state R16. -/
  highWatermark : Nat
  /-- 10_state R17. -/
  lowWatermark : Nat
  /-- 10_state R18. -/
  overwriteEnabled : Bool
  /-- 10_state R19. -/
  store : Memory
  /-- 10_state R20. -/
  fstate : FState
  /-- 10_state R21. -/
  flen : Byte
  /-- 10_state R22. -/
  fidx : Byte
  /-- 10_state R23. -/
  fxor : Byte
  /-- 10_state R24. -/
  blen : Byte
  /-- 10_state R24. -/
  bidx : Byte
  /-- 10_state R25. -/
  obuf : Memory
  /-- 10_state R25. -/
  olen : Byte
  /-- The DIAG output port (20_memory R40, 42 R145). -/
  diag : Memory
  /-- 10_state R29. -/
  ie : Bool
  /-- 10_state R32. -/
  swin : Bool
  /-- The operation of agent `A` in progress. -/
  portA : Port
  /-- The operation of agent `S` in progress. -/
  portS : Port
  /-- The response given by the last step, if it gave one (30_encoding R70). Log 17. -/
  rsp : Option Response
  /-- The commands agent `A` will issue, in order; they wait while `ie = 0` (20_memory R50). -/
  streamA : List Command
  /-- The lines agent `S` will issue, in order. -/
  streamS : List Line
  /-- The schedule. -/
  turns : List Turn
  /-- The model's own: how many free values have been drawn. Log 7. -/
  fresh : Nat
  deriving DecidableEq, Repr

/-- A step stops with a fault. -/
inductive Fault where
  /-- U1: agent `A` begins an operation while a plain operation of agent `S` is open (20_memory R52). Raised by the
  schedule. Safe: nothing is defined after it. -/
  | raced
  /-- A read of a `store` entry that no push has written since the last init (10_state R19). Raised by pops, PEEK,
  DUMP, GET_MESSAGE. Safe: 10_state R30 (e) makes it unreachable. -/
  | unwrittenEntry
  /-- An index outside `store[0 .. size-1]` (20_memory R41). Raised by pushes, pops, PEEK, DUMP and the framer. Safe:
  10_state R30 (b) makes it unreachable. -/
  | indexOutsideStore
  /-- A parser micro-step in a state for which 43 R165 gives no transition. Safe: unreachable, an operation in phase
  `parsing` has `fstate` AwaitLength, ConsumePayload or Validate. -/
  | strayParserState
  deriving DecidableEq, Repr

/-- A step is refused: 93_implementation_defined section 1 gives the run no meaning. All are safe. -/
inductive Refusal where
  /-- An instruction that has no meaning in this model yet. No arm of exec answers it. -/
  | notModelled (mnemonic : String)
  /-- U2: a legal command other than INIT_STATIC, INIT_DYNAMIC, TEARDOWN while `life = Uninit` (40 R90). -/
  | notInitialised
  /-- U3: TEARDOWN while `life = Static` (40 R93). -/
  | teardownStatic
  /-- U4: an init while `life = Dynamic` (40 R90). -/
  | initOverDynamic
  /-- U5: an index advance with `size = 0`, or INIT_DYNAMIC 0 (41 R111, R112, 40 R92). -/
  | zeroSize
  /-- U6: an init with `size > STORE_BYTES` (70 R239). -/
  | storeTooSmall
  /-- U7: a GET_MESSAGE inside a GET_MESSAGE, or an ADD_MESSAGE inside an ADD_MESSAGE (43 R175). -/
  | engineBusy
  deriving DecidableEq, Repr

/-- A free port. Its command has no meaning (log 18). -/
def Port.idle : Port :=
  { phase := .free, cmd := { word := 0, msgIn := Vector.replicate 256 0, grant := true } }

/-- The state after hardware reset (70 R230, 10_state R33). `life`, `fstate`, `swin` are the spec's values and the byte
spaces hold no value; every other register is a DESIGN CHOICE (log 3; `ie` log 4), and the environment is empty. -/
def State.reset : State :=
  { cfg := Config.default
    life := .uninit
    size := 0
    head := 0
    tail := 0
    count := 0
    highWatermark := 0
    lowWatermark := 0
    overwriteEnabled := false
    store := []
    fstate := .idle
    flen := 0
    fidx := 0
    fxor := 0
    blen := 0
    bidx := 0
    obuf := []
    olen := 0
    diag := []
    ie := false
    swin := false
    portA := Port.idle
    portS := Port.idle
    rsp := none
    streamA := []
    streamS := []
    turns := []
    fresh := 0 }

end Sys2Proof.Machine
end

