-- ==== Sys2Proof/Machine/Flags.lean ====
section
/-! DEFINITION. The flags: pure functions of state, not stored bits (10_state R27, R28), and the numbers of the
response word (30_encoding R70, R71). -/

namespace Sys2Proof.Machine

/-- `empty = (count == 0)` (10_state R27). -/
def State.empty (s : State) : Bool := s.count == 0

/-- `full = (count == size)` (10_state R27). -/
def State.full (s : State) : Bool := s.count == s.size

/-- `cmp_high = (count >= high_watermark)`, unsigned; also a level output of the block (10_state R28, 42 R144). -/
def State.cmpHigh (s : State) : Bool := decide (s.highWatermark ≤ s.count)

/-- `cmp_low = (count <= low_watermark)`, unsigned; also a level output of the block (10_state R28, 42 R144). -/
def State.cmpLow (s : State) : Bool := decide (s.count ≤ s.lowWatermark)

/-- `wm`: High takes precedence over Low (10_state R28). -/
def State.wm (s : State) : Watermark :=
  if s.cmpHigh then .high else if s.cmpLow then .low else .none

/-- CHECK_WM's result: 0 None, 1 Low, 2 High (30_encoding R72). -/
def Watermark.code : Watermark → Nat
  | .none => 0
  | .low => 1
  | .high => 2

/-- A boolean result: 1 true, 0 false (30_encoding R72). -/
def boolCode (b : Bool) : Nat := if b then 1 else 0

/-- The status numbers (30_encoding R71). -/
def Status.code : Status → BitVec 4
  | .ok => 0x0
  | .full => 0x1
  | .empty => 0x2
  | .outOfRange => 0x3
  | .allocationError => 0x4
  | .invalidLength => 0x5
  | .insufficientSpace => 0x6
  | .invalidStart => 0x7
  | .incomplete => 0x8
  | .checksumMismatch => 0x9
  | .badCommand => 0xF

/-- `RSP = status, 0000, data`, of `8 + W` bits (30_encoding R70). -/
def responseWord (W : Nat) (e : Status) (data : Nat) : ResponseWord W :=
  (e.code ++ (0 : BitVec 4)) ++ BitVec.ofNat W data

end Sys2Proof.Machine
end

