-- ==== Sys2Proof/Machine/Memory.lean ====
section
/-! DEFINITION. Byte spaces (20_memory R40): one access moves one byte (R42, R44). -/

namespace Sys2Proof.Machine

/-- The byte at an index, or none when the entry holds no value (10_state R19, R25). -/
def Memory.read (m : Memory) (a : Nat) : Option Byte :=
  match m with
  | [] => none
  | (k, b) :: rest => if k = a then some b else Memory.read rest a

/-- `x[a] <- v` (00_scope R6), keeping the cells in rising order. -/
def Memory.write (m : Memory) (a : Nat) (v : Byte) : Memory :=
  match m with
  | [] => [(a, v)]
  | (k, b) :: rest =>
    if a < k then (a, v) :: (k, b) :: rest
    else if a = k then (a, v) :: rest
    else (k, b) :: Memory.write rest a v

/-- The canonical form: indices strictly rising. An index that is not listed holds no value, so no entry equals what an
unlisted index reads as. -/
def Memory.wf (m : Memory) : Bool :=
  match m with
  | [] => true
  | (k, _) :: rest => rest.all (fun c => decide (k < c.1)) && Memory.wf rest

/-- Every index listed is below a bound: the extent of the byte space (20_memory R40). -/
def Memory.within (m : Memory) (bound : Nat) : Bool := m.all (fun c => decide (c.1 < bound))

end Sys2Proof.Machine
end

