-- ==== Sys2Proof/Machine/Operands.lean ====
section
/-! DEFINITION. The arithmetic of the block (10_state R31), over the integers as 00_scope R6 says, and the operands
that do not stand in the command word. -/

namespace Sys2Proof.Machine

/-- `inc(x) = (x + 1) mod size` (00_scope R6). -/
def inc (size x : Nat) : Nat := (x + 1) % size

/-- The physical index of logical position `i`: `(tail + i) mod size`, the sum over the integers (20_memory R41). -/
def State.physicalIndex (s : State) (i : Nat) : Nat := (s.tail + i) % s.size

/-- Free space `size - count` over the integers, live (43 R162, 90_conflicts C2). -/
def State.freeSpace (s : State) : Int := (s.size : Int) - (s.count : Int)

/-- INIT_STATIC's default `high_watermark`: `floor(3 * size / 4)` over the integers (40 R91). -/
def staticHigh (size : Nat) : Nat := 3 * size / 4

/-- INIT_STATIC's default `low_watermark`: `floor(size / 4)` (40 R91). -/
def staticLow (size : Nat) : Nat := size / 4

/-- `zext_W(v)` (00_scope R6): the byte's own value. -/
def zextByte (b : Byte) : Nat := b.toNat

/-- The `8 + W` bits of a command at the command port (30_encoding R64). -/
def Command.bits (W : Nat) (c : Command) : CommandWord W := BitVec.ofNat (8 + W) c.word

/-- What a command decodes to at width `W` (30_encoding R64 to R69). -/
def Command.decoded (W : Nat) (c : Command) : Except DecodeError Instr := decode (c.bits W)

/-- `MSG_IN[i]` of the command (30_encoding R73). -/
def Command.messageByte (c : Command) (i : Byte) : Byte := c.msgIn[i.toNat]'(by have := i.isLt; omega)

/-- The frame's smallest LENGTH, `MIN_LEN` (00_scope R5). -/
def minLen : Byte := 3

end Sys2Proof.Machine
end

