-- ==== Sys2Proof/Machine/Ops.lean ====
section
/-! DEFINITION. The shared operations: the agent that moves, answering a command (the block's only way to report a
failure, 60_exceptions R200), voiding registers, the ring primitives, the critical section, the snapshot. -/

namespace Sys2Proof.Machine

/-- What a micro-step answers. -/
abbrev Step := Host.Outcome State Fault Refusal

/-! ## Agents and ports -/

/-- The agent whose operation moves: `A` while it has one in progress, since it runs to its end before `S` moves again
(20_memory R49). -/
def State.active (s : State) : Agent := if s.portA.phase = .free then .sync else .async

/-- The port of an agent. -/
def State.port (s : State) : Agent → Port
  | .async => s.portA
  | .sync => s.portS

/-- The command that is being executed. -/
def State.command (s : State) : Command := (s.port s.active).cmd

/-- An ADD_MESSAGE is between micro-steps (43 R175). Log 19. -/
def State.builderBusy (s : State) : Bool := s.portA.phase == .building || s.portS.phase == .building

/-- A GET_MESSAGE is between micro-steps (43 R175). Log 19. -/
def State.parserBusy (s : State) : Bool := s.portA.phase == .parsing || s.portS.phase == .parsing

/-- The last micro-step of an operation: its response (30_encoding R70) goes to the agent that issued it, the port is
free again, and the agent's race window closes. Nothing else is written (60_exceptions R200). -/
def State.answer (s : State) (e : Status) (data : Nat) : State :=
  { s with
    rsp := some { agent := s.active, word := (responseWord s.cfg.width e data).toNat }
    swin := if s.active = .sync then false else s.swin
    portA := if s.active = .async then { s.portA with phase := .free } else s.portA
    portS := if s.active = .sync then { s.portS with phase := .free } else s.portS }

/-- `fail E`: the status, and `data = 0` (30_encoding R70, 60_exceptions R212). -/
def State.failWith (s : State) (e : Status) : State := s.answer e 0

/-- The end of a micro-step that is not an operation's last: no response, and with `FRAMER_ATOMIC_PRIMS = false` the
micro-step's race window closes (20_memory R53). -/
def State.pause (s : State) (p : Phase) : State :=
  { s with
    rsp := none
    swin := if s.active = .sync then false else s.swin
    portA := if s.active = .async then { s.portA with phase := p } else s.portA
    portS := if s.active = .sync then { s.portS with phase := p } else s.portS }

/-- Operations other than INIT_STATIC, INIT_DYNAMIC, TEARDOWN have a meaning only when `life` is `Static` or `Dynamic`
(40 R90). -/
def liveOnly (s : State) (k : Step) : Step :=
  if s.life = .uninit then .refused .notInitialised else k

/-! ## Registers that hold no value -/

/-- Outside an ADD_MESSAGE `blen` and `bidx` hold no value (10_state R24). Log 8. -/
def State.voidBuilder (s : State) : State :=
  { s with
    blen := Config.freeByte s.fresh
    bidx := Config.freeByte (s.fresh + 1)
    fresh := s.fresh + 2 }

/-- `flen`, `fidx` and `fxor` hold no value (10_state R21 to R23). Log 8. -/
def State.voidFrame (s : State) : State :=
  { s with
    flen := Config.freeByte s.fresh
    fidx := Config.freeByte (s.fresh + 1)
    fxor := Config.freeByte (s.fresh + 2)
    fresh := s.fresh + 3 }

/-- `fstate <- Idle`, and `flen`, `fidx`, `fxor` hold no value once the response is given (43 R170). -/
def State.voidParser (s : State) : State := { s.voidFrame with fstate := .idle }

/-- After an init and while `Uninit` the transients of an engine hold no value (10_state R11, R33) when no operation of it
is in progress (93_implementation_defined section 2, "outside their operation"). Inside an operation they are the
operation's alone: no other agent can write them (43 R169), and it goes on with them. Log 28. -/
def State.voidTransients (s : State) : State :=
  { s with
    flen := if s.parserBusy then s.flen else Config.freeByte s.fresh
    fidx := if s.parserBusy then s.fidx else Config.freeByte (s.fresh + 1)
    fxor := if s.parserBusy then s.fxor else Config.freeByte (s.fresh + 2)
    blen := if s.builderBusy then s.blen else Config.freeByte (s.fresh + 3)
    bidx := if s.builderBusy then s.bidx else Config.freeByte (s.fresh + 4)
    fresh := s.fresh + 5 }

/-- While `life` is `Uninit`, every register but `ie`, `fstate` and `swin` holds no value (10_state R11): so TEARDOWN and
a failed INIT_DYNAMIC leave the ring's registers, `store` and the transients of an idle engine (40 R92, R93; log 28). `obuf` and `olen` are "not
touched by any init, RESET or TEARDOWN" (10_state R25, log 15). Each register is a free value. Log 7. -/
def State.voidRing (s : State) : State :=
  { s.voidTransients with
    life := .uninit
    size := (Config.freeWord s.cfg.width (s.fresh + 5)).toNat
    head := (Config.freeWord s.cfg.width (s.fresh + 6)).toNat
    tail := (Config.freeWord s.cfg.width (s.fresh + 7)).toNat
    count := (Config.freeWord s.cfg.width (s.fresh + 8)).toNat
    highWatermark := (Config.freeWord s.cfg.width (s.fresh + 9)).toNat
    lowWatermark := (Config.freeWord s.cfg.width (s.fresh + 10)).toNat
    overwriteEnabled := Config.freeBit (s.fresh + 11)
    store := []
    fresh := s.fresh + 12 }

/-- The registers and `store` right after a successful init, but for the thresholds and `life`, which the two inits set
differently (10_state R33, 90_conflicts C9); the transients of an idle engine hold no value (log 28). -/
def State.initRing (s : State) (life : Life) (size high low : Nat) : State :=
  { s.voidTransients with
    life := life
    size := size
    head := 0
    tail := 0
    count := 0
    highWatermark := high
    lowWatermark := low
    overwriteEnabled := false
    store := [] }

/-! ## Ring primitives -/

/-- What a ring primitive answers: a value and the next state, a failure that has written nothing, or a stop. -/
inductive Prim (α : Type) where
  | done (v : α) (s : State)
  | fail (e : Status)
  | fault (r : Fault)
  | refused (r : Refusal)

/-- One primitive after another. -/
def Prim.andThen {α β : Type} (p : Prim α) (k : α → State → Prim β) : Prim β :=
  match p with
  | .done v s => k v s
  | .fail e => .fail e
  | .fault r => .fault r
  | .refused r => .refused r

/-- The micro-step that a primitive ends: `after` says how it goes on when the primitive succeeds, `failed` when it
fails. -/
def Prim.finish {α : Type} (p : Prim α) (after : α → State → State) (failed : Status → State) : Step :=
  match p with
  | .done v t => .next (after v t)
  | .fail e => .next (failed e)
  | .fault r => .fault r
  | .refused r => .refused r

/-- `MemRead(i, 1)` (00_scope R6). An entry that no push has written holds no value (10_state R19). Log 5, log 6. -/
def storeRead (i : Nat) (s : State) : Prim Byte :=
  if i < s.size then
    match s.store.read i with
    | some b => .done b s
    | none => .fault .unwrittenEntry
  else .fault .indexOutsideStore

/-- `MemWrite(i, 1, v)` (00_scope R6). Log 6. -/
def storeWrite (i : Nat) (v : Byte) (s : State) : Prim Unit :=
  if i < s.size then .done () { s with store := s.store.write i v }
  else .fault .indexOutsideStore

/-- PUSH on a ring whose overwrite policy is `overwrite` (41 R111; R112 reads the policy as 1). -/
def ringPush (overwrite : Bool) (b : Byte) (s : State) : Prim Unit :=
  if s.full then
    if overwrite then
      if s.size = 0 then .refused .zeroSize
      else
        (storeWrite s.head b { s with tail := inc s.size s.tail }).andThen fun _ t =>
          .done () { t with head := inc t.size t.head }
    else .fail .full
  else
    (storeWrite s.head b s).andThen fun _ t =>
      .done () { t with head := inc t.size t.head, count := t.count + 1 }

/-- POP (41 R113). -/
def ringPop (s : State) : Prim Byte :=
  if s.empty then .fail .empty
  else
    (storeRead s.tail s).andThen fun b t =>
      .done b { t with tail := inc t.size t.tail, count := t.count - 1 }

/-- PEEK at a logical position (41 R114). -/
def ringPeek (i : Nat) (s : State) : Prim Byte :=
  if s.count ≤ i then .fail .outOfRange
  else storeRead (s.physicalIndex i) s

/-- A threshold setter's range check (42 R141, R142). -/
def checkThreshold (v : Nat) (s : State) : Prim Unit :=
  if s.size < v then .fail .outOfRange else .done () s

/-- A micro-step of DUMP (00_scope R7): `DIAG[i] <- MemRead((tail + i) mod size, 1)` (42 R145). -/
def snapshotByte (i : Nat) (s : State) : Prim Unit :=
  (storeRead (s.physicalIndex i) s).andThen fun b t => .done () { t with diag := t.diag.write i b }

/-- The micro-steps of DUMP for `i` in `0 .. n-1`, one after the other (00_scope R7, 42 R145). -/
def snapshot (n : Nat) (s : State) : Prim Unit :=
  match n with
  | 0 => .done () s
  | i + 1 => (snapshot i s).andThen fun _ t => snapshotByte i t

/-- An operation that is one primitive: `Ok` with its data, or the primitive's own failure. -/
def answerPrim {α : Type} (s : State) (p : Prim α) (data : α → Nat) : Step :=
  p.finish (fun v t => t.answer .ok (data v)) (fun e => s.failWith e)

/-! ## The critical section -/

/-- The critical section of PUSH_SAFE and POP_SAFE: save `ie`, clear it, perform the one operation, restore what was
saved. The four lines are one micro-step (41 R119). -/
def critical (body : State → Step) (s : State) : Step :=
  match body { s with ie := false } with
  | .next t => .next { t with ie := s.ie }
  | .fault r => .fault r
  | .refused r => .refused r

end Sys2Proof.Machine
end

