-- ==== Sys2Proof/Machine/Configuration.lean ====
section
/-! DEFINITION. Configuration, watermark comparators and diagnostics (42_ring_config_watermarks). -/

namespace Sys2Proof.Machine

/-- SET_OVERWRITE `enable` (42 R140). -/
def execSetOverwrite (e : Bool) (s : State) : Step :=
  liveOnly s (.next ({ s with overwriteEnabled := e }.answer .ok 0))

/-- SET_HIGH_WM `value` (42 R141). -/
def execSetHighWm (v : Nat) (s : State) : Step :=
  liveOnly s ((checkThreshold v s).finish (fun _ t => { t with highWatermark := v }.answer .ok 0) s.failWith)

/-- SET_LOW_WM `value` (42 R142). -/
def execSetLowWm (v : Nat) (s : State) : Step :=
  liveOnly s ((checkThreshold v s).finish (fun _ t => { t with lowWatermark := v }.answer .ok 0) s.failWith)

/-- CHECK_WM (42 R143): levels, High before Low. -/
def execCheckWm (s : State) : Step :=
  liveOnly s (.next (s.answer .ok s.wm.code))

/-- DUMP (42 R145): `data = count`, and the valid bytes, oldest first, in DIAG. DUMP is the
sequence of the micro-steps `snapshotByte 0 .. count-1` (00_scope R7). One step of the model performs the whole sequence: it
counts as one micro-step, or as a window when `S` issues it (70 R244, 10_state R26), and its effect is applied at the end of
that window (20_memory R52). Log 29. -/
def execDump (s : State) : Step :=
  liveOnly s (answerPrim s (snapshot s.count s) fun _ => s.count)

end Sys2Proof.Machine
end

