-- ==== Sys2Proof/Machine/Framer.lean ====
section
/-! DEFINITION. The message framer (43_framer): the builder's and the parser's micro-steps. The meaning of ADD_MESSAGE
and of GET_MESSAGE is the operation's first micro-step; the step function goes on with `addMessageByte` and
`parserStep` until the response is given. -/

namespace Sys2Proof.Machine

/-! ## The builder -/

/-- An ADD_MESSAGE ends with status `e`: the response, and `blen`, `bidx` hold no value (10_state R24). -/
def State.endBuild (s : State) (e : Status) : State := s.voidBuilder.answer e 0

/-- ADD_MESSAGE `length`, micro-step B0: the two checks, in this order, against live free space (43 R162). -/
def execAddMessage (length : Byte) (s : State) : Step :=
  liveOnly s
    (if s.builderBusy then .refused .engineBusy
    else if length < minLen then .next ({ s with blen := length }.endBuild .invalidLength)
    else if s.freeSpace < length.toNat then .next ({ s with blen := length }.endBuild .insufficientSpace)
    else .next ({ s with blen := length, bidx := 0 }.pause .building))

/-- After a byte of the message has been pushed: the next offset, or the end (43 R162). -/
def State.byteAdded (s : State) : State :=
  if s.bidx + 1 = s.blen then { s with bidx := s.bidx + 1 }.endBuild .ok
  else { s with bidx := s.bidx + 1 }.pause .building

/-- ADD_MESSAGE, micro-steps B1 .. B`blen`: push the next byte of `MSG_IN` verbatim; a push that fails ends the
operation with its own status and the bytes already pushed stay (43 R162, R163). -/
def addMessageByte (s : State) : Step :=
  liveOnly s
    ((ringPush s.overwriteEnabled (s.command.messageByte s.bidx) s).finish (fun _ t => t.byteAdded) s.endBuild)

/-! ## The parser -/

/-- A GET_MESSAGE ends in `Failed` with status `e`, and then in `Idle` (43 R165, R170). -/
def State.endParse (s : State) (e : Status) : State :=
  { s with fstate := .failed }.voidParser.failWith e

/-- A GET_MESSAGE goes on in state `f` (43 R165). -/
def State.parseOn (s : State) (f : FState) : State := { s with fstate := f }.pause .parsing

/-- After P0 has popped the candidate start marker (43 R166). -/
def State.startPopped (b : Byte) (s : State) : State :=
  if b = s.cfg.startByte then s.parseOn .awaitLength
  else s.endParse .invalidStart

/-- GET_MESSAGE, micro-step P0, state AwaitStart: the emptiness test and the first pop (43 R166). -/
def execGetMessage (s : State) : Step :=
  liveOnly s
    (if s.parserBusy then .refused .engineBusy
    else
      (ringPop { s with fstate := .awaitStart }).finish State.startPopped
        fun _ => s.endParse .empty)

/-- After P1 has popped the candidate length (43 R167). -/
def State.lengthPopped (b : Byte) (s : State) : State :=
  if b < minLen then { s with flen := b }.endParse .invalidLength
  else
    { s with
      flen := b
      obuf := (s.obuf.write 0 s.cfg.startByte).write 1 b
      fidx := 2
      fxor := 0 }.parseOn .consumePayload

/-- After one byte at offset `fidx` has been popped (43 R168). -/
def State.payloadPopped (b : Byte) (s : State) : State :=
  { s with
    obuf := s.obuf.write s.fidx.toNat b
    fxor := s.fxor ^^^ b
    fidx := s.fidx + 1 }.parseOn (if s.fidx + 1 = s.flen then .validate else .consumePayload)

/-- PV, state Validate: the running exclusive-or must be zero (43 R169). -/
def State.validated (s : State) : State :=
  if s.fxor = 0 then
    { s with olen := s.flen, fstate := .done }.voidParser.answer .ok (zextByte s.flen)
  else s.endParse .checksumMismatch

/-- GET_MESSAGE, micro-steps P1 .. PV (43 R165 to R169). A pop that fails is Incomplete. Log 13, log 20. -/
def parserStep (s : State) : Step :=
  liveOnly s
    (match s.fstate with
    | .awaitLength => (ringPop s).finish State.lengthPopped fun _ => s.endParse .incomplete
    | .consumePayload => (ringPop s).finish State.payloadPopped fun _ => s.endParse .incomplete
    | .validate => .next s.validated
    | .idle => .fault .strayParserState
    | .awaitStart => .fault .strayParserState
    | .done => .fault .strayParserState
    | .failed => .fault .strayParserState)

end Sys2Proof.Machine
end

