-- ==== Sys2Proof/Machine/Lifecycle.lean ====
section
/-! DEFINITION. The lifecycle operations (40_ring_lifecycle): INIT_STATIC, INIT_DYNAMIC, TEARDOWN, RESET. -/

namespace Sys2Proof.Machine

/-- INIT_STATIC `size` (40 R91): defined in `Uninit` and `Static` (R90), no failure mode. Log 14. -/
def execInitStatic (size : Nat) (s : State) : Step :=
  if s.life = .dynamic then .refused .initOverDynamic
  else if s.cfg.storeBytes < size then .refused .storeTooSmall
  else .next ((s.initRing .static size (staticHigh size) (staticLow size)).answer .ok 0)

/-- INIT_DYNAMIC `size` (40 R92): defined in `Uninit` and `Static` (R90) for `size >= 1`; whether storage is acquired is
the environment's draw. Log 14. -/
def execInitDynamic (size : Nat) (s : State) : Step :=
  if s.life = .dynamic then .refused .initOverDynamic
  else if size = 0 then .refused .zeroSize
  else if s.cfg.storeBytes < size then .refused .storeTooSmall
  else if s.command.grant then .next ((s.initRing .dynamic size (size - 1) 1).answer .ok 0)
  else .next (s.voidRing.failWith .allocationError)

/-- TEARDOWN (40 R93). -/
def execTeardown (s : State) : Step :=
  match s.life with
  | .dynamic => .next (s.voidRing.answer .ok 0)
  | .uninit => .next (s.answer .ok 0)
  | .static => .refused .teardownStatic

/-- RESET, the command (40 R94). -/
def execReset (s : State) : Step :=
  liveOnly s (.next ({ s with head := 0, tail := 0, count := 0 }.answer .ok 0))

end Sys2Proof.Machine
end

