-- ==== Sys2Proof/Machine/RingData.lean ====
section
/-! DEFINITION. The ring data operations (41_ring_data). -/

namespace Sys2Proof.Machine

/-- PUSH `byte` (41 R111). -/
def execPush (b : Byte) (s : State) : Step :=
  liveOnly s (answerPrim s (ringPush s.overwriteEnabled b s) fun _ => 0)

/-- PUSH_OVW `byte` (41 R112): the policy is read as 1 whatever the register holds. -/
def execPushOvw (b : Byte) (s : State) : Step :=
  liveOnly s (answerPrim s (ringPush true b s) fun _ => 0)

/-- POP (41 R113). -/
def execPop (s : State) : Step :=
  liveOnly s (answerPrim s (ringPop s) zextByte)

/-- PEEK `index` (41 R114). -/
def execPeek (i : Nat) (s : State) : Step :=
  liveOnly s (answerPrim s (ringPeek i s) zextByte)

/-- IS_EMPTY (41 R115). -/
def execIsEmpty (s : State) : Step :=
  liveOnly s (.next (s.answer .ok (boolCode s.empty)))

/-- IS_FULL (41 R116). -/
def execIsFull (s : State) : Step :=
  liveOnly s (.next (s.answer .ok (boolCode s.full)))

/-- PUSH_SAFE `byte` (41 R117): the critical section of R119 around the push of R111. -/
def execPushSafe (b : Byte) (s : State) : Step :=
  liveOnly s (critical (fun c => answerPrim c (ringPush c.overwriteEnabled b c) fun _ => 0) s)

/-- POP_SAFE (41 R118): the critical section of R119 around the pop of R113. -/
def execPopSafe (s : State) : Step :=
  liveOnly s (critical (fun c => answerPrim c (ringPop c) zextByte) s)

end Sys2Proof.Machine
end

