-- ==== Sys2Proof/Machine/Dispatch.lean ====
section
/-! DEFINITION. One arm for each operation: the micro-step, or for DUMP the sequence of them (log 29), that an accepted command
performs. -/

namespace Sys2Proof.Machine

def exec (i : Instr) (s : State) : Host.Outcome State Fault Refusal :=
  match i with
  | .initStatic n => Sys2Proof.Machine.execInitStatic n s
  | .initDynamic n => Sys2Proof.Machine.execInitDynamic n s
  | .teardown => Sys2Proof.Machine.execTeardown s
  | .reset => Sys2Proof.Machine.execReset s
  | .push b => Sys2Proof.Machine.execPush b s
  | .pushOvw b => Sys2Proof.Machine.execPushOvw b s
  | .pop => Sys2Proof.Machine.execPop s
  | .peek n => Sys2Proof.Machine.execPeek n s
  | .isEmpty => Sys2Proof.Machine.execIsEmpty s
  | .isFull => Sys2Proof.Machine.execIsFull s
  | .pushSafe b => Sys2Proof.Machine.execPushSafe b s
  | .popSafe => Sys2Proof.Machine.execPopSafe s
  | .setOverwrite e => Sys2Proof.Machine.execSetOverwrite e s
  | .setHighWm v => Sys2Proof.Machine.execSetHighWm v s
  | .setLowWm v => Sys2Proof.Machine.execSetLowWm v s
  | .checkWm => Sys2Proof.Machine.execCheckWm s
  | .addMessage n => Sys2Proof.Machine.execAddMessage n s
  | .getMessage => Sys2Proof.Machine.execGetMessage s
  | .dump => Sys2Proof.Machine.execDump s

end Sys2Proof.Machine
end

