-- ==== Sys2Proof/Machine/Schedule.lean ====
section
/-! DEFINITION. The agents, the command port, the race window and the hardware reset (20_memory sections 3 and 4,
70_reset_and_hazards section 1): which micro-step a step of the machine performs. -/

namespace Sys2Proof.Machine

/-! ## The race window -/

/-- The plain operations: issued by `S` they open a race window (20_memory R52). -/
def plainOp : Instr → Bool
  | .initStatic _ => true
  | .initDynamic _ => true
  | .teardown => true
  | .reset => true
  | .push _ => true
  | .pushOvw _ => true
  | .pop => true
  | .peek _ => true
  | .isEmpty => false
  | .isFull => false
  | .pushSafe _ => false
  | .popSafe => false
  | .setOverwrite _ => false
  | .setHighWm _ => false
  | .setLowWm _ => false
  | .checkWm => false
  | .addMessage _ => false
  | .getMessage => false
  | .dump => true

/-- The operations of the framer (20_memory R53). -/
def framerOp : Instr → Bool
  | .addMessage _ => true
  | .getMessage => true
  | .initStatic _ => false
  | .initDynamic _ => false
  | .teardown => false
  | .reset => false
  | .push _ => false
  | .pushOvw _ => false
  | .pop => false
  | .peek _ => false
  | .isEmpty => false
  | .isFull => false
  | .pushSafe _ => false
  | .popSafe => false
  | .setOverwrite _ => false
  | .setHighWm _ => false
  | .setLowWm _ => false
  | .checkWm => false
  | .dump => false

/-- Whether an operation's first micro-step, issued by `S`, has a race window: a plain operation, or one of the framer
when `FRAMER_ATOMIC_PRIMS = false` (20_memory R51 to R53). -/
def opensWindow (cfg : Config) (i : Instr) : Bool :=
  plainOp i || (framerOp i && !cfg.framerAtomicPrims)

/-- The same of a command as it stands at the port; an illegal word opens no race window (30_encoding R69). -/
def commandOpensWindow (cfg : Config) (c : Command) : Bool :=
  match c.decoded cfg.width with
  | .ok i => opensWindow cfg i
  | .error _ => false

/-! ## Accepting a command -/

/-- A command of `S` is at the command port; its race window, if it has one, opens (20_memory R52). Log 10. -/
def State.acceptSync (s : State) (c : Command) : State :=
  { s with
    portS := { phase := .accepted, cmd := c }
    swin := commandOpensWindow s.cfg c }

/-- `A` may begin its next command when `ie = 1` (20_memory R50); to begin an operation inside a race window of `S` is
the race (R52, U1). An illegal word is no operation. Log 11, log 12, log 24. -/
def beginAsync (s : State) : Step :=
  match s.streamA with
  | [] => .next s
  | c :: rest =>
    if s.ie then
      if s.swin && legalWord (c.bits s.cfg.width) then .fault .raced
      else .next { s with streamA := rest, portA := { phase := .accepted, cmd := c } }
    else .next s

/-- Between operations of `S`: the next command is accepted, or the host writes `ie` (30_encoding R75, 10_state R29). -/
def beginSync (s : State) : Step :=
  match s.streamS with
  | [] => .next s
  | .command c :: rest => .next ({ s with streamS := rest }.acceptSync c)
  | .setIe v :: rest => .next { s with streamS := rest, ie := v }

/-! ## Performing a micro-step -/

/-- The first micro-step of the command that is being executed. An illegal word is answered BadCommand and writes
nothing, in every lifecycle state (30_encoding R69, 60_exceptions R211, R213). -/
def runCommand (s : State) : Step :=
  match s.command.decoded s.cfg.width with
  | .ok i => exec i s
  | .error _ => .next (s.failWith .badCommand)

/-- A later micro-step of the framer; with `FRAMER_ATOMIC_PRIMS = false` each one issued by `S` opens a race window of
its own first (20_memory R53). -/
def framerStep (k : State → Step) (s : State) : Step :=
  if s.active = .sync && !s.cfg.framerAtomicPrims && !s.swin then .next { s with swin := true }
  else k s

/-- The next micro-step of the operation that moves (10_state R26). -/
def advance (s : State) : Step :=
  match (s.port s.active).phase with
  | .free => .next s
  | .accepted => runCommand s
  | .building => framerStep addMessageByte s
  | .parsing => framerStep parserStep s

/-- `A` moves: it begins a command when it has none in progress. -/
def asyncTurn (s : State) : Step :=
  if s.portA.phase = .free then beginAsync s else advance s

/-- `S` moves: it begins a command when it has none in progress. -/
def syncTurn (s : State) : Step :=
  if s.portS.phase = .free then beginSync s else advance s

/-- `S` has something to do. -/
def State.syncReady (s : State) : Bool := s.portS.phase != .free || !s.streamS.isEmpty

/-! ## Hardware reset and the schedule -/

/-- `HWRESET` (70 R230): everything of the block as after reset, whatever it was; an operation in flight is abandoned
without a response. What is not the block's stays: the parameters, `ie`, what the agents will issue. Log 3, log 21. -/
def State.hardwareReset (s : State) : State :=
  { State.reset with
    cfg := s.cfg
    ie := s.ie
    streamA := s.streamA
    streamS := s.streamS
    turns := s.turns
    fresh := s.fresh }

/-- Who moves (20_memory R49, R50). An operation of `A` in progress runs before any micro-step of `S`; with no turn
given, `S` moves when it can and `A` otherwise. Log 9. -/
def schedule (s : State) : Step :=
  match s.turns with
  | .hwReset :: rest => .next { s with turns := rest }.hardwareReset
  | .async :: rest => asyncTurn { s with turns := rest }
  | .sync :: rest => if s.portA.phase = .free then syncTurn { s with turns := rest } else advance s
  | [] =>
    if s.portA.phase = .free then
      if s.syncReady then syncTurn s else asyncTurn s
    else advance s

end Sys2Proof.Machine
end

