-- ==== Sys2Proof/Machine/Step.lean ====
section
/-! DEFINITION. One step of the machine. -/

namespace Sys2Proof.Machine

/-- One step: the response port shows a response only in the step that gives it (30_encoding R70), and the schedule says
which micro-step is performed. -/
def step (s : State) : Host.Outcome State Fault Refusal :=
  schedule { s with rsp := none }

/-- `s` with a command word of `S` accepted at the command port, so that the very next step performs it: `A` has nothing
in progress, no turn is given to anyone else, and the race window is as the acceptance leaves it. Log 18. -/
def State.withFetchWord (s : State) (nbits w : Nat) : State :=
  { s with
    portA := { s.portA with phase := .free }
    turns := [] }.acceptSync
      { s.portS.cmd with word := w % 2 ^ nbits }

end Sys2Proof.Machine
end

