-- ==== Sys2Proof/Safety.lean ====
section
/-! DEFINITION. The terms claims use: the invariant of the block (10_state R30 and what the ports add to it), the
logical contents of the ring, the frames, the opcode table as masks, and the bounded queue a ring is meant to be. -/

namespace Sys2Proof.Machine

/-! ## Lifecycle and contents -/

/-- `life` in `Static`, `Dynamic` (41 R110). -/
abbrev State.Live (s : State) : Prop := s.life ≠ .uninit

/-- The stored bytes, oldest first (00_scope R9, 10_state R30 (d)). An entry that holds no value shows as none. -/
def State.contents (s : State) : List (Option Byte) :=
  (List.range s.count).map fun i => s.store.read (s.physicalIndex i)

/-- The first `n` bytes of a command's `MSG_IN` (30_encoding R73). -/
def Command.message (c : Command) (n : Nat) : List Byte := c.msgIn.toList.take n

/-! ## The invariant -/

/-- `W` is a legal width (30_encoding R67) and every `W`-bit register fits its width, whatever `life` is (10_state R10,
R31). -/
abbrev State.WidthsOk (s : State) : Prop :=
  8 ≤ s.cfg.width ∧ s.size < 2 ^ s.cfg.width ∧ s.head < 2 ^ s.cfg.width ∧ s.tail < 2 ^ s.cfg.width ∧
  s.count < 2 ^ s.cfg.width ∧ s.highWatermark < 2 ^ s.cfg.width ∧ s.lowWatermark < 2 ^ s.cfg.width

/-- 10_state R30 (a) to (c), (e) to (g), and 70 R239. -/
abbrev State.RingOk (s : State) : Prop :=
  s.count ≤ s.size ∧
  (0 < s.size → s.head < s.size ∧ s.tail < s.size ∧
    ((s.head : Int) - (s.tail : Int)) % (s.size : Int)
      = (s.count : Int) % (s.size : Int)) ∧
  (s.size = 0 → s.head = 0 ∧ s.tail = 0) ∧
  (∀ i, i < s.count → (s.store.read (s.physicalIndex i)).isSome = true) ∧
  s.highWatermark ≤ s.size ∧
  s.lowWatermark ≤ s.size ∧
  s.size ≤ s.cfg.storeBytes

/-- The byte spaces are in canonical form and inside their extents (20_memory R40); while `Uninit` no `store` entry
holds a value (10_state R11). -/
abbrev State.SpacesOk (s : State) : Prop :=
  s.store.wf = true ∧ s.obuf.wf = true ∧ s.diag.wf = true ∧
  s.obuf.within 256 = true ∧ s.diag.within (2 ^ s.cfg.width) = true ∧
  (s.life ≠ .uninit → s.store.within s.size = true) ∧
  (s.life = .uninit → s.store = [])

/-- Each engine runs one operation (43 R175), and `fstate` is a state between micro-steps of 43 R165. -/
abbrev State.EnginesOk (s : State) : Prop :=
  ¬(s.portA.phase = .building ∧ s.portS.phase = .building) ∧
  ¬(s.portA.phase = .parsing ∧ s.portS.phase = .parsing) ∧
  (s.parserBusy = false → s.fstate = .idle) ∧
  (s.parserBusy = true →
    s.fstate = .awaitLength ∨ s.fstate = .consumePayload ∨ s.fstate = .validate)

/-- The transients of an operation in flight are in the ranges of 10_state R20 to R24, and `blen` is the operand of the
ADD_MESSAGE it belongs to, so that `MSG_IN[0 .. length-1]` and nothing else is read (30_encoding R73). Every step keeps
it. -/
abbrev State.OffsetsOk (s : State) : Prop :=
  (s.fstate = .consumePayload → 2 ≤ s.fidx.toNat ∧ s.fidx.toNat < s.flen.toNat) ∧
  (s.fstate = .validate → s.fidx = s.flen ∧ 3 ≤ s.flen.toNat) ∧
  (s.builderBusy = true → 3 ≤ s.blen.toNat ∧ s.bidx.toNat < s.blen.toNat) ∧
  (s.portA.phase = .building → s.portA.cmd.decoded s.cfg.width = .ok (.addMessage s.blen)) ∧
  (s.portS.phase = .building → s.portS.cmd.decoded s.cfg.width = .ok (.addMessage s.blen))

/-- `swin` is 1 only while a micro-step of `S` with a race window is open (10_state R32, 20_memory R52, R53), and no
operation of `A` is in progress then (an illegal word is none). -/
abbrev State.WindowOk (s : State) : Prop :=
  (s.portS.phase = .free → s.swin = false) ∧
  (s.portS.phase = .accepted → s.swin = commandOpensWindow s.cfg s.portS.cmd) ∧
  (s.portS.phase = .building ∨ s.portS.phase = .parsing → s.cfg.framerAtomicPrims = true → s.swin = false) ∧
  (s.swin = true → s.portA.phase ≠ .free →
    s.portA.phase = .accepted ∧ legalWord (s.portA.cmd.bits s.cfg.width) = false)

/-- The invariant every step keeps. -/
abbrev State.Inv (s : State) : Prop :=
  s.WidthsOk ∧ (s.life ≠ .uninit → s.RingOk) ∧ s.SpacesOk ∧ s.EnginesOk ∧ s.WindowOk

/-! ## Frames -/

/-- The control registers (10_state R10) are the same. -/
abbrev State.SameControl (s t : State) : Prop :=
  t.life = s.life ∧ t.size = s.size ∧ t.highWatermark = s.highWatermark ∧ t.lowWatermark = s.lowWatermark ∧
  t.overwriteEnabled = s.overwriteEnabled

/-- The data-path registers are the same. -/
abbrev State.SameIndices (s t : State) : Prop :=
  t.head = s.head ∧ t.tail = s.tail ∧ t.count = s.count

/-- Every entry of `store` reads as before. -/
abbrev State.SameStore (s t : State) : Prop := ∀ a, t.store.read a = s.store.read a

/-- Every entry of `store` but one reads as before. -/
abbrev State.SameStoreBut (s t : State) (k : Nat) : Prop := ∀ a, a ≠ k → t.store.read a = s.store.read a

/-- The parser's transients are the same. -/
abbrev State.SameParser (s t : State) : Prop :=
  t.fstate = s.fstate ∧ t.flen = s.flen ∧ t.fidx = s.fidx ∧ t.fxor = s.fxor

/-- The builder's transients are the same. -/
abbrev State.SameBuilder (s t : State) : Prop := t.blen = s.blen ∧ t.bidx = s.bidx

/-- The output buffer reads as before. -/
abbrev State.SameOutput (s t : State) : Prop := (∀ a, t.obuf.read a = s.obuf.read a) ∧ t.olen = s.olen

/-- The DIAG port reads as before. -/
abbrev State.SameDiag (s t : State) : Prop := ∀ a, t.diag.read a = s.diag.read a

/-- The parameters, `ie` and what the agents will issue are the same. -/
abbrev State.SameEnvironment (s t : State) : Prop :=
  t.cfg = s.cfg ∧ t.ie = s.ie ∧ t.streamA = s.streamA ∧ t.streamS = s.streamS ∧ t.turns = s.turns

/-- Everything an operation that is not the framer's and not DUMP leaves alone. -/
abbrev State.SameRest (s t : State) : Prop :=
  s.SameParser t ∧ s.SameBuilder t ∧ s.SameOutput t ∧ s.SameDiag t ∧ s.SameEnvironment t

/-- The agent that moves is at phase `p`, the other port is untouched, and a race window of `S` is closed when `S` moved
(20_memory R52). -/
abbrev State.Moved (s t : State) (p : Phase) : Prop :=
  (s.portA.phase ≠ .free →
    t.portA = { phase := p, cmd := s.portA.cmd } ∧ t.portS = s.portS ∧ t.swin = s.swin) ∧
  (s.portA.phase = .free →
    t.portS = { phase := p, cmd := s.portS.cmd } ∧ t.portA = s.portA ∧ t.swin = false)

/-- `RSP = status, 0000, data` as a number: the status in bits `W+7 .. W+4`, zero in `W+3 .. W`, the data in `W-1 .. 0`
(30_encoding R70). -/
def rspWord (W status data : Nat) : Nat := status * 2 ^ (W + 4) + data % 2 ^ W

/-- The operation has ended: one response word, with this status number and this data, to the agent that issued it
(30_encoding R70, R71). -/
abbrev State.Answered (s t : State) (status data : Nat) : Prop :=
  t.rsp = some { agent := s.active, word := rspWord s.cfg.width status data } ∧ s.Moved t .free

/-- A micro-step that is not the operation's last: no response. -/
abbrev State.Paused (s t : State) (p : Phase) : Prop := t.rsp = none ∧ s.Moved t p

/-- What an init or a TEARDOWN leaves alone (40 R91 and R93, "not touched"; 10_state R25): all that `SameRest` says but
for the transients, which hold no value then outside their operation (10_state R11, R33; log 28). -/
abbrev State.SameOutside (s t : State) : Prop :=
  t.fstate = s.fstate ∧ s.SameOutput t ∧ s.SameDiag t ∧ s.SameEnvironment t

/-! ## Who moves -/

/-- The next step is a step of the operation that moves: `A`'s when it has one in progress, whoever's turn it is
(20_memory R49), else `S`'s. -/
abbrev State.ActiveMoves (s : State) : Prop :=
  s.turns = [] ∨ s.turns.head? = some .sync ∨ (s.portA.phase ≠ .free ∧ s.turns.head? = some .async)

/-- The state in which that step's micro-step is performed: no response is shown, and the turn is used (a turn of `S`
waits while `A` has an operation in progress). -/
def State.taken (s : State) : State :=
  { s with
    rsp := none
    turns := if s.portA.phase ≠ .free ∧ s.turns.head? = some .sync then s.turns else s.turns.tail }

/-! ## The opcode table -/

/-- A word of the opcode table, at its width 16. -/
abbrev word16 (w : Nat) : CommandWord 16 := BitVec.ofNat 24 w

/-- `mask` and `match` of the rows of the opcode table (spec/opcode_table.json), which is written at `W = 16`. -/
def tableRows : List (CommandWord 16 × CommandWord 16) :=
  [(0xFF0000, 0x010000), (0xFF0000, 0x020000), (0xFFFFFF, 0x030000), (0xFFFFFF, 0x040000), (0xFFFF00, 0x100000),
   (0xFFFF00, 0x110000), (0xFFFFFF, 0x120000), (0xFF0000, 0x130000), (0xFFFFFF, 0x140000), (0xFFFFFF, 0x150000),
   (0xFFFF00, 0x180000), (0xFFFFFF, 0x1A0000), (0xFFFFFE, 0x200000), (0xFF0000, 0x210000), (0xFF0000, 0x220000),
   (0xFFFFFF, 0x230000), (0xFFFF00, 0x300000), (0xFFFFFF, 0x310000), (0xFFFFFF, 0x3F0000)]

/-- The rows of the opcode map (30_encoding R66) at any width, as numbers: the opcode `op`, and how many low bits of the
operand field its format leaves free (R65): `W` for `V`, none for `N`, 8 for `B`, 1 for `F`. -/
def opcodeRows (W : Nat) : List (Nat × Nat) :=
  [(0x01, W), (0x02, W), (0x03, 0), (0x04, 0), (0x10, 8), (0x11, 8), (0x12, 0), (0x13, W), (0x14, 0), (0x15, 0),
   (0x18, 8), (0x1A, 0), (0x20, 1), (0x21, W), (0x22, W), (0x23, 0), (0x30, 8), (0x31, 0), (0x3F, 0)]

/-- A word matches a row of the opcode map: its opcode is the row's, and every bit of the operand field above the free
ones is zero (30_encoding R69). -/
def MatchesARow (W word : Nat) : Prop :=
  ∃ r ∈ opcodeRows W, word / 2 ^ W = r.1 ∧ word % 2 ^ W < 2 ^ r.2

/-! ## The bounded queue -/

/-- A push onto a queue of capacity `cap` (41 R111, R120 (3), (4)); none where the spec refuses it (U5). -/
def queuePush (cap : Nat) (overwrite : Bool) (b : Byte) (q : List Byte) : Option (Status × Nat × List Byte) :=
  if q.length < cap then some (.ok, 0, q ++ [b])
  else if overwrite then (if cap = 0 then none else some (.ok, 0, q.tail ++ [b]))
  else some (.full, 0, q)

/-- A pop (41 R113, R120 (5)). -/
def queuePop (q : List Byte) : Status × Nat × List Byte :=
  match q with
  | [] => (.empty, 0, [])
  | b :: rest => (.ok, b.toNat, rest)

/-- A peek (41 R114). -/
def queuePeek (n : Nat) (q : List Byte) : Status × Nat × List Byte :=
  match q[n]? with
  | some b => (.ok, b.toNat, q)
  | none => (.outOfRange, 0, q)

/-- What an operation on the ring is to a queue: its status, its data, the queue after it (20_memory R55, 41 R120). The
other operations are no queue operations. -/
def queueStep (cap : Nat) (overwrite : Bool) (i : Instr) (q : List Byte) : Option (Status × Nat × List Byte) :=
  match i with
  | .push b => queuePush cap overwrite b q
  | .pushSafe b => queuePush cap overwrite b q
  | .pushOvw b => queuePush cap true b q
  | .pop => some (queuePop q)
  | .popSafe => some (queuePop q)
  | .peek n => some (queuePeek n q)
  | .isEmpty => some (.ok, if q = [] then 1 else 0, q)
  | .isFull => some (.ok, if q.length = cap then 1 else 0, q)
  | .reset => some (.ok, 0, [])
  | .dump => some (.ok, q.length, q)
  | .initStatic _ => none
  | .initDynamic _ => none
  | .teardown => none
  | .setOverwrite _ => none
  | .setHighWm _ => none
  | .setLowWm _ => none
  | .checkWm => none
  | .addMessage _ => none
  | .getMessage => none

/-! ## Frames of the wire -/

/-- The exclusive-or of the bytes of a list (30_encoding R61). -/
def xorBytes (l : List Byte) : Byte := l.foldl (fun x b => x ^^^ b) 0

/-- A frame of length `len` (30_encoding R60 to R63): START, LENGTH, and the exclusive-or of offsets 2 to `len - 1` is
zero. -/
abbrev ValidFrame (start len : Byte) (m : List Byte) : Prop :=
  3 ≤ len.toNat ∧ m.length = len.toNat ∧ m[0]? = some start ∧ m[1]? = some len ∧ xorBytes (m.drop 2) = 0

/-- How many steps an accepted operation of `n` further micro-steps takes when nothing intervenes: with
`FRAMER_ATOMIC_PRIMS = false` each of them that `S` performs opens a race window first (20_memory R53). -/
def State.framerSteps (s : State) (n : Nat) : Nat :=
  if s.portA.phase = .free ∧ s.cfg.framerAtomicPrims = false then 2 * n + 1 else n + 1

end Sys2Proof.Machine
end

