-- ==== Sys2Proof/Certificates/Slice0/Obligations.lean ====
section
/-! DEFINITION. The statements for the provers. -/

open Sys2Proof Sys2Proof.Machine

/-! ## Encoding -/

/-- Words written out in 95_test_vectors section 2.1 and 30_encoding R74, at `W = 16`, decode to the operations they stand
for; and so do words laid out by 30_encoding R64, R65 and R67 at the smallest width, 8, and at 20. -/
def Obligations.DecodesWrittenWords : Prop :=
  decode (word16 0x010008) = .ok (.initStatic 8) ∧ decode (word16 0x020008) = .ok (.initDynamic 8) ∧
  decode (word16 0x030000) = .ok .teardown ∧ decode (word16 0x1000AA) = .ok (.push 0xAA) ∧
  decode (word16 0x120000) = .ok .pop ∧ decode (word16 0x130002) = .ok (.peek 2) ∧
  decode (word16 0x1800AA) = .ok (.pushSafe 0xAA) ∧ decode (word16 0x200001) = .ok (.setOverwrite true) ∧
  decode (word16 0x210006) = .ok (.setHighWm 6) ∧ decode (word16 0x300004) = .ok (.addMessage 4) ∧
  decode (word16 0x310000) = .ok .getMessage ∧ decode (word16 0x3F0000) = .ok .dump ∧
  decode (word16 0x000000) = .error .unassignedOpcode ∧ decode (word16 0x190007) = .error .unassignedOpcode ∧
  decode (word16 0x1001AA) = .error .reservedBitsSet ∧ decode (word16 0x200002) = .error .reservedBitsSet ∧
  decode (0x10AA : CommandWord 8) = .ok (.push 0xAA) ∧ decode (0x01FF : CommandWord 8) = .ok (.initStatic 255) ∧
  decode (0x2003 : CommandWord 8) = .error .reservedBitsSet ∧
  decode (0x1310000 : CommandWord 20) = .ok (.peek 65536) ∧ decode (0x10001AA : CommandWord 20) = .error .reservedBitsSet

/-- At every legal width, every operation whose operand fits the operand field is read back from its own word
(30_encoding R64 to R67). -/
def Obligations.DecodeOfEncodeIsTheOperation : Prop :=
  ∀ (W : Nat) (i : Instr), 8 ≤ W → i.wellFormed W = true → decode (encode W i) = .ok i

/-- A word that decodes is the word of the operation it decodes to, and that operation is well formed: no two words mean
one operation (92 D36). -/
def Obligations.EncodeOfDecodeIsTheWord : Prop :=
  ∀ (W : Nat) (w : CommandWord W) (i : Instr), 8 ≤ W → decode w = .ok i → encode W i = w ∧ i.wellFormed W = true

/-- A word decodes exactly when its opcode is in the map and the bits of the operand field that the opcode's format does
not use are zero, at every legal width (30_encoding R65, R66, R69); and at `W = 16` exactly when it matches a row of the
opcode table under that row's mask. -/
def Obligations.LegalWordsAreTheTableRows : Prop :=
  (∀ (W : Nat) (w : CommandWord W), 8 ≤ W → ((∃ i, decode w = .ok i) ↔ MatchesARow W w.toNat)) ∧
  (∀ w : CommandWord 16, (∃ i, decode w = .ok i) ↔ ∃ r ∈ tableRows, w &&& r.1 = r.2)

/-- Every response a step gives has `8 + W` bits, zero in bits `W+3 .. W`, a status in `W+7 .. W+4` that R71 numbers, and
`data = 0` when the status is not Ok (30_encoding R70, R71). -/
def Obligations.EveryResponseIsWellFormed : Prop :=
  ∀ (s t : State) (r : Response), step s = .next t → t.rsp = some r →
    r.word < 2 ^ (8 + s.cfg.width) ∧ r.word / 2 ^ s.cfg.width % 16 = 0 ∧
    (r.word / 2 ^ (s.cfg.width + 4) ≤ 9 ∨ r.word / 2 ^ (s.cfg.width + 4) = 15) ∧
    (r.word / 2 ^ (s.cfg.width + 4) ≠ 0 → r.word % 2 ^ s.cfg.width = 0)

/-! ## The step -/

/-- When the command accepted from the agent that moves decodes to `i`, the step is `exec i`, in the state with the turn
used and no response shown; and a word placed by `withFetchWord` is what the very next step performs. -/
def Obligations.StepPerformsTheAcceptedCommand : Prop :=
  (∀ (s : State) (i : Instr), s.ActiveMoves → (s.port s.active).phase = .accepted →
    s.command.decoded s.cfg.width = .ok i → step s = exec i s.taken) ∧
  (∀ (s : State) (w : CommandWord s.cfg.width) (i : Instr), decode w = .ok i →
    step (s.withFetchWord (8 + s.cfg.width) w.toNat) = exec i (s.withFetchWord (8 + s.cfg.width) w.toNat).taken)

/-- Between micro-steps of the framer the step is the next micro-step; with `FRAMER_ATOMIC_PRIMS = false` each one of
`S` opens a race window (20_memory R53). That the window opens in a step of its own, before the step that performs the
micro-step, is the model's choice, log 10. -/
def Obligations.StepContinuesTheFramer : Prop :=
  ∀ (s : State) (k : State → Step), s.ActiveMoves →
    ((s.port s.active).phase = .building ∧ k = addMessageByte) ∨
      ((s.port s.active).phase = .parsing ∧ k = parserStep) →
    (s.portA.phase ≠ .free ∨ s.cfg.framerAtomicPrims = true ∨ s.swin = true → step s = k s.taken) ∧
    (s.portA.phase = .free ∧ s.cfg.framerAtomicPrims = false ∧ s.swin = false →
      step s = .next { s.taken with swin := true })

/-- R211: an accepted word that matches no row of the opcode map is answered BadCommand and writes no state. -/
def Obligations.IllegalWordIsAnsweredBadCommand : Prop :=
  ∀ s : State, s.ActiveMoves → (s.port s.active).phase = .accepted →
    8 ≤ s.cfg.width → ¬ MatchesARow s.cfg.width (s.command.bits s.cfg.width).toNat →
    ∃ t, step s = .next t ∧ s.taken.Answered t 0xF 0 ∧ s.SameControl t ∧ s.SameIndices t ∧ t.store = s.store ∧
      s.taken.SameRest t ∧ t.obuf = s.obuf ∧ t.diag = s.diag ∧ t.fresh = s.fresh

/-- The state after reset meets the invariant, and the ranges of the transients. -/
def Obligations.ResetStateMeetsTheInvariant : Prop := State.reset.Inv ∧ State.reset.OffsetsOk

/-- The invariant (10_state R30, the engines' and the window's registers, the canonical byte spaces) is kept by every
step, whatever the schedule. -/
def Obligations.EveryStepKeepsTheInvariant : Prop :=
  ∀ s t : State, s.Inv → step s = .next t → t.Inv

/-- From a state of the invariant no step reads an entry that holds no value, forms an index outside `store`, or strays
from the parser's table: the only fault is the race (10_state R19, R30 (b), (e), 20_memory R41, R52). -/
def Obligations.OnlyTheRaceFaults : Prop :=
  ∀ (s : State) (f : Fault), s.Inv → step s = .fault f → f = .raced

/-- R230: after the hardware reset `life = Uninit`, `fstate = Idle`, `swin = 0`, no entry holds a value, `ie` is not
written, an operation in flight is gone without a response; and what was in the block before the reset cannot be told
from the state after it. -/
def Obligations.HardwareResetForgetsTheBlock : Prop :=
  ∀ (s : State) (rest : List Turn), s.turns = .hwReset :: rest →
    (∃ t, step s = .next t ∧ t.life = .uninit ∧ t.fstate = .idle ∧ t.swin = false ∧
      (∀ a, t.store.read a = none) ∧ (∀ a, t.obuf.read a = none) ∧ t.ie = s.ie ∧ t.rsp = none ∧
      t.portA.phase = .free ∧ t.portS.phase = .free ∧ t.turns = rest) ∧
    (∀ s' : State, s'.cfg = s.cfg → s'.ie = s.ie → s'.streamA = s.streamA → s'.streamS = s.streamS →
      s'.turns = s.turns → s'.fresh = s.fresh → step s' = step s)

/-- With nothing commanded the block does nothing (70 R231): when no turn is given, no operation is in progress and no
agent has a command it can issue, and in a turn given to an agent that has nothing in progress and nothing it can issue
(`A` with `S` idle or not, `S` with no operation of `A` in progress), no register and no byte space of the block changes
and no response is given. That the last response leaves the port then is the model's choice, log 17, and that the turn is
used up is its choice, log 24. A turn given to the host resets (`HardwareResetForgetsTheBlock`). -/
def Obligations.IdleBlockDoesNothing : Prop :=
  (∀ s : State, s.turns = [] → s.portA.phase = .free → s.portS.phase = .free → s.streamS = [] →
    (s.streamA = [] ∨ s.ie = false) → step s = .next { s with rsp := none }) ∧
  (∀ (s : State) (rest : List Turn), s.turns = .async :: rest → s.portA.phase = .free →
    (s.streamA = [] ∨ s.ie = false) → step s = .next { s with rsp := none, turns := rest }) ∧
  (∀ (s : State) (rest : List Turn), s.turns = .sync :: rest → s.portA.phase = .free → s.portS.phase = .free →
    s.streamS = [] → step s = .next { s with rsp := none, turns := rest })

/-! ## Lifecycle -/

/-- R91: INIT_STATIC over `Uninit` or `Static`; its defaults, its flags, what it does not touch; refused over `Dynamic`
(U4) and for a size beyond the storage (U6). -/
def Obligations.InitStaticEffect : Prop :=
  ∀ (s : State) (n : Nat),
    (s.life ≠ .dynamic → n ≤ s.cfg.storeBytes →
      ∃ t, exec (.initStatic n) s = .next t ∧ s.Answered t 0x0 0 ∧
        t.life = .static ∧ t.size = n ∧ t.head = 0 ∧ t.tail = 0 ∧ t.count = 0 ∧
        t.highWatermark = 3 * n / 4 ∧ t.lowWatermark = n / 4 ∧
        t.overwriteEnabled = false ∧ (∀ a, t.store.read a = none) ∧
        t.empty = true ∧ (t.full = true ↔ n = 0) ∧ (t.wm = .high ↔ n ≤ 1) ∧ (t.wm = .low ↔ 2 ≤ n) ∧
        s.SameOutside t) ∧
    (s.life = .dynamic → exec (.initStatic n) s = .refused .initOverDynamic) ∧
    (s.life ≠ .dynamic → s.cfg.storeBytes < n → exec (.initStatic n) s = .refused .storeTooSmall) ∧
    (∀ W, n < 2 ^ W → (encode W (.initStatic n)).toNat = 0x01 * 2 ^ W + n)

/-- R92: INIT_DYNAMIC with the environment's draw granted and not granted; refused over `Dynamic` (U4), for size 0 (U5)
and for a size beyond the storage (U6). When it is not granted the ring's registers hold no value: what they were
cannot be told from the state after it. That `obuf` and `olen` are untouched then too, as 10_state R25 says of any init,
and not voided by the general sentence of 10_state R11, is the model's reading (DEDUCED), log 15. -/
def Obligations.InitDynamicEffect : Prop :=
  ∀ (s : State) (n : Nat),
    (s.life ≠ .dynamic → 1 ≤ n → n ≤ s.cfg.storeBytes → s.command.grant = true →
      ∃ t, exec (.initDynamic n) s = .next t ∧ s.Answered t 0x0 0 ∧
        t.life = .dynamic ∧ t.size = n ∧ t.head = 0 ∧ t.tail = 0 ∧ t.count = 0 ∧
        t.highWatermark + 1 = n ∧ t.lowWatermark = 1 ∧ t.overwriteEnabled = false ∧
        (∀ a, t.store.read a = none) ∧
        t.empty = true ∧ t.full = false ∧ (t.wm = .high ↔ n = 1) ∧ (t.wm = .low ↔ 2 ≤ n) ∧
        s.SameOutside t) ∧
    (s.life ≠ .dynamic → 1 ≤ n → n ≤ s.cfg.storeBytes → s.command.grant = false →
      (∀ (sz h tl c hi lo : Nat) (ov : Bool) (m : Memory),
        exec (.initDynamic n) { s with
          size := sz, head := h, tail := tl, count := c, highWatermark := hi, lowWatermark := lo,
          overwriteEnabled := ov, store := m } = exec (.initDynamic n) s) ∧
      ∃ t, exec (.initDynamic n) s = .next t ∧ s.Answered t 0x4 0 ∧ t.life = .uninit ∧
        (∀ a, t.store.read a = none) ∧ s.SameOutside t) ∧
    (s.life = .dynamic → exec (.initDynamic n) s = .refused .initOverDynamic) ∧
    (s.life ≠ .dynamic → n = 0 → exec (.initDynamic n) s = .refused .zeroSize) ∧
    (s.life ≠ .dynamic → 1 ≤ n → s.cfg.storeBytes < n →
      exec (.initDynamic n) s = .refused .storeTooSmall) ∧
    (∀ W, n < 2 ^ W → (encode W (.initDynamic n)).toNat = 0x02 * 2 ^ W + n)

/-- R93: TEARDOWN releases a dynamic ring (its registers hold no value: what they were cannot be told from the state
after it), does nothing while `Uninit`, and is refused on a static one (U3). -/
def Obligations.TeardownEffect : Prop :=
  ∀ s : State,
    (s.life = .dynamic →
      (∀ (sz h tl c hi lo : Nat) (ov : Bool) (m : Memory),
        exec .teardown { s with
          size := sz, head := h, tail := tl, count := c, highWatermark := hi, lowWatermark := lo,
          overwriteEnabled := ov, store := m } = exec .teardown s) ∧
      ∃ t, exec .teardown s = .next t ∧ s.Answered t 0x0 0 ∧ t.life = .uninit ∧ (∀ a, t.store.read a = none) ∧
        s.SameOutside t) ∧
    (s.life = .uninit →
      ∃ t, exec .teardown s = .next t ∧ s.Answered t 0x0 0 ∧ s.SameControl t ∧ s.SameIndices t ∧
        t.store = s.store ∧ s.SameRest t) ∧
    (s.life = .static → exec .teardown s = .refused .teardownStatic) ∧
    (∀ W, (encode W .teardown).toNat = 0x03 * 2 ^ W)

/-- R94: RESET empties the ring and keeps everything else, the residual bytes included. -/
def Obligations.ResetCommandEffect : Prop :=
  (∀ W, (encode W .reset).toNat = 0x04 * 2 ^ W) ∧
  ∀ s : State, s.Live →
    ∃ t, exec .reset s = .next t ∧ s.Answered t 0x0 0 ∧ t.head = 0 ∧ t.tail = 0 ∧ t.count = 0 ∧
      t.empty = true ∧ (t.full = true ↔ s.size = 0) ∧ s.SameControl t ∧ s.SameStore t ∧ s.SameRest t

/-- An init, and a TEARDOWN of a dynamic ring, leave the transients of an engine that has no operation in progress without
a value (10_state R11, R33, 93_implementation_defined section 2), and so does the end of an engine's own operation (43
R170, 10_state R21 to R24): what they were before cannot be told from the outcome. For an init, a TEARDOWN and an end in
the first micro-step that is said of the whole outcome; for an end in a later one (P1 to PV, and the byte micro-steps of
ADD_MESSAGE), which reads them, it is said of the registers: they are then the same after any two runs, whatever the
states before, as far as the model's own counter of free values is the same. That an init or a TEARDOWN leaves the
transients of an operation in progress alone is `TransientsInFlightAreKept`, log 28. -/
def Obligations.TransientsAreForgotten : Prop :=
  (∀ (s : State) (i : Instr),
    (∃ n, i = .initStatic n) ∨ (∃ n, i = .initDynamic n) ∨ (i = .teardown ∧ s.life = .dynamic) →
    (s.parserBusy = false → ∀ l x y : Byte, exec i { s with flen := l, fidx := x, fxor := y } = exec i s) ∧
    (s.builderBusy = false → ∀ b d : Byte, exec i { s with blen := b, bidx := d } = exec i s)) ∧
  (∀ (s t : State) (l x y : Byte), exec .getMessage s = .next t → t.rsp ≠ none →
    exec .getMessage { s with flen := l, fidx := x, fxor := y } = .next t) ∧
  (∀ (s t : State) (n b d : Byte), exec (.addMessage n) s = .next t →
    exec (.addMessage n) { s with blen := b, bidx := d } = .next t) ∧
  (∀ s s' t t' : State, s'.fresh = s.fresh → parserStep s = .next t → parserStep s' = .next t' → t.rsp ≠ none →
    t'.rsp ≠ none → t.flen = t'.flen ∧ t.fidx = t'.fidx ∧ t.fxor = t'.fxor) ∧
  (∀ s s' t t' : State, s'.fresh = s.fresh → addMessageByte s = .next t → addMessageByte s' = .next t' → t.rsp ≠ none →
    t'.rsp ≠ none → t.blen = t'.blen ∧ t.bidx = t'.bidx)

/-- While `Uninit` every legal command but INIT_STATIC, INIT_DYNAMIC and TEARDOWN is refused, and so is every later
micro-step of the framer (40 R90, U2). -/
def Obligations.UninitRefusesTheRing : Prop :=
  ∀ s : State, s.life = .uninit →
    (∀ i : Instr, (∀ n, i ≠ .initStatic n) → (∀ n, i ≠ .initDynamic n) → i ≠ .teardown →
      exec i s = .refused .notInitialised) ∧
    addMessageByte s = .refused .notInitialised ∧ parserStep s = .refused .notInitialised

/-! ## Ring data -/

/-- R111 and R117: PUSH and PUSH_SAFE. Not full: the byte is stored at `head`. Full and overwrite off: Full, nothing
written. Full and overwrite on: the oldest byte is discarded. Full, overwrite on, `size = 0`: refused (U5). PUSH_SAFE
has no race window. -/
def Obligations.PushEffect : Prop :=
  ∀ (s : State) (b : Byte) (i : Instr), i = .push b ∨ i = .pushSafe b → s.Live → s.RingOk →
    (s.count ≠ s.size →
      ∃ t, exec i s = .next t ∧ s.Answered t 0x0 0 ∧
        t.head = (s.head + 1) % s.size ∧ t.tail = s.tail ∧ t.count = s.count + 1 ∧
        t.store.read s.head = some b ∧ s.SameStoreBut t s.head ∧ t.empty = false ∧
        s.SameControl t ∧ s.SameRest t) ∧
    (s.count = s.size → s.overwriteEnabled = false →
      ∃ t, exec i s = .next t ∧ s.Answered t 0x1 0 ∧ s.SameIndices t ∧ s.SameStore t ∧ s.SameControl t ∧
        s.SameRest t) ∧
    (s.count = s.size → s.overwriteEnabled = true → s.size ≠ 0 →
      ∃ t, exec i s = .next t ∧ s.Answered t 0x0 0 ∧
        t.head = (s.head + 1) % s.size ∧ t.tail = (s.tail + 1) % s.size ∧
        t.count = s.count ∧ t.head = t.tail ∧
        t.store.read s.head = some b ∧ s.SameStoreBut t s.head ∧ t.full = true ∧
        s.SameControl t ∧ s.SameRest t) ∧
    (s.size = 0 → s.overwriteEnabled = true → exec i s = .refused .zeroSize) ∧
    (∀ W, 8 ≤ W → (encode W (.push b)).toNat = 0x10 * 2 ^ W + b.toNat) ∧
    (∀ W, 8 ≤ W → (encode W (.pushSafe b)).toNat = 0x18 * 2 ^ W + b.toNat) ∧ opensWindow s.cfg (.pushSafe b) = false

/-- R112: PUSH_OVW is PUSH with the policy read as 1, and does not write the policy. -/
def Obligations.PushOvwEffect : Prop :=
  ∀ (s : State) (b : Byte), s.Live → s.RingOk →
    (s.count ≠ s.size →
      ∃ t, exec (.pushOvw b) s = .next t ∧ s.Answered t 0x0 0 ∧
        t.head = (s.head + 1) % s.size ∧ t.tail = s.tail ∧ t.count = s.count + 1 ∧
        t.store.read s.head = some b ∧ s.SameStoreBut t s.head ∧ t.empty = false ∧
        s.SameControl t ∧ s.SameRest t) ∧
    (s.count = s.size → s.size ≠ 0 →
      ∃ t, exec (.pushOvw b) s = .next t ∧ s.Answered t 0x0 0 ∧
        t.head = (s.head + 1) % s.size ∧ t.tail = (s.tail + 1) % s.size ∧
        t.count = s.count ∧ t.head = t.tail ∧
        t.store.read s.head = some b ∧ s.SameStoreBut t s.head ∧ t.full = true ∧
        s.SameControl t ∧ s.SameRest t) ∧
    (s.size = 0 → exec (.pushOvw b) s = .refused .zeroSize) ∧
    (∀ W, 8 ≤ W → (encode W (.pushOvw b)).toNat = 0x11 * 2 ^ W + b.toNat)

/-- R113 and R118: POP and POP_SAFE, which has no race window. -/
def Obligations.PopEffect : Prop :=
  (∀ W, (encode W .pop).toNat = 0x12 * 2 ^ W) ∧ (∀ W, (encode W .popSafe).toNat = 0x1A * 2 ^ W) ∧
  (∀ cfg, opensWindow cfg .popSafe = false) ∧
  ∀ (s : State) (i : Instr), i = .pop ∨ i = .popSafe → s.Live → s.RingOk →
    (s.count = 0 →
      ∃ t, exec i s = .next t ∧ s.Answered t 0x2 0 ∧ s.SameIndices t ∧ s.SameStore t ∧ s.SameControl t ∧
        s.SameRest t) ∧
    (s.count ≠ 0 →
      ∃ t b, s.store.read s.tail = some b ∧ exec i s = .next t ∧ s.Answered t 0x0 b.toNat ∧
        t.tail = (s.tail + 1) % s.size ∧ t.count + 1 = s.count ∧ t.head = s.head ∧
        s.SameStore t ∧ t.full = false ∧ s.SameControl t ∧ s.SameRest t)

/-- R114: PEEK reads logical position `index` and writes nothing. -/
def Obligations.PeekEffect : Prop :=
  ∀ (s : State) (n : Nat), s.Live → s.RingOk →
    (∀ W, n < 2 ^ W → (encode W (.peek n)).toNat = 0x13 * 2 ^ W + n) ∧
    (s.count ≤ n →
      ∃ t, exec (.peek n) s = .next t ∧ s.Answered t 0x3 0 ∧ s.SameIndices t ∧ s.SameStore t ∧ s.SameControl t ∧
        s.SameRest t) ∧
    (n < s.count →
      ∃ t b, s.store.read ((s.tail + n) % s.size) = some b ∧ exec (.peek n) s = .next t ∧
        s.Answered t 0x0 b.toNat ∧ s.SameIndices t ∧ s.SameStore t ∧ s.SameControl t ∧ s.SameRest t)

/-- R115 and R116: the predicates answer 1 or 0, write nothing, and have no race window. -/
def Obligations.PredicatesAnswer : Prop :=
  (∀ W, (encode W .isEmpty).toNat = 0x14 * 2 ^ W) ∧ (∀ W, (encode W .isFull).toNat = 0x15 * 2 ^ W) ∧
  (∀ cfg, opensWindow cfg .isEmpty = false ∧ opensWindow cfg .isFull = false) ∧
  ∀ s : State, s.Live →
    (∃ t, exec .isEmpty s = .next t ∧ s.Answered t 0x0 (if s.count = 0 then 1 else 0) ∧ s.SameIndices t ∧
      s.SameStore t ∧ s.SameControl t ∧ s.SameRest t) ∧
    (∃ t, exec .isFull s = .next t ∧ s.Answered t 0x0 (if s.count = s.size then 1 else 0) ∧
      s.SameIndices t ∧ s.SameStore t ∧ s.SameControl t ∧ s.SameRest t)

/-- R119: the interrupt-safe forms do exactly what the plain forms do, whatever `ie` is; `ie` is afterwards what it was
before; and no operation of `A` falls inside, since each is one micro-step with no race window. -/
def Obligations.SafeFormsDoWhatThePlainFormsDo : Prop :=
  ∀ (s : State) (b : Byte),
    exec (.pushSafe b) s = exec (.push b) s ∧ exec .popSafe s = exec .pop s ∧
    ∀ i : Instr, i = .pushSafe b ∨ i = .popSafe →
      opensWindow s.cfg i = false ∧
        ∀ t, exec i s = .next t → t.ie = s.ie ∧ ((t.port s.active).phase = .free)

/-- The ring operations are a bounded queue: status, data and the logical contents after each are those of the queue
(20_memory R55, R56, 41 R120; for DUMP, whose data is `count`, 42 R145). That the whole sequence of DUMP's micro-steps
(00_scope R7) is performed and answered in one step of the model is the model's reading (DEDUCED) of 70 R244, 10_state R26
and 20_memory R52, log 29. -/
def Obligations.RingIsABoundedQueue : Prop :=
  ∀ (s : State) (i : Instr) (q q' : List Byte) (e : Status) (d : Nat), s.Live → s.RingOk → s.contents = q.map some →
    queueStep s.size s.overwriteEnabled i q = some (e, d, q') →
    ∃ t, exec i s = .next t ∧ t.contents = q'.map some ∧
      t.rsp = some { agent := s.active, word := rspWord s.cfg.width e.code.toNat d } ∧ t.RingOk

/-! ## Configuration and diagnostics -/

/-- R140: SET_OVERWRITE sets the policy to its operand, touches nothing else, and has no race window. -/
def Obligations.SetOverwriteEffect : Prop :=
  (∀ W e, 8 ≤ W → (encode W (.setOverwrite e)).toNat = 0x20 * 2 ^ W + (if e then 1 else 0)) ∧
  ∀ (s : State) (e : Bool), s.Live →
    opensWindow s.cfg (.setOverwrite e) = false ∧
    ∃ t, exec (.setOverwrite e) s = .next t ∧ s.Answered t 0x0 0 ∧ t.overwriteEnabled = e ∧
      t.life = s.life ∧ t.size = s.size ∧ t.highWatermark = s.highWatermark ∧ t.lowWatermark = s.lowWatermark ∧
      s.SameIndices t ∧ s.SameStore t ∧ s.SameRest t

/-- R141 and R142: the threshold setters; a value above `size` is OutOfRange and writes nothing; neither reads or writes
the other threshold; neither has a race window. -/
def Obligations.SetThresholdEffect : Prop :=
  ∀ (s : State) (v : Nat), s.Live →
    (∀ W, v < 2 ^ W → (encode W (.setHighWm v)).toNat = 0x21 * 2 ^ W + v) ∧
    (∀ W, v < 2 ^ W → (encode W (.setLowWm v)).toNat = 0x22 * 2 ^ W + v) ∧
    opensWindow s.cfg (.setHighWm v) = false ∧ opensWindow s.cfg (.setLowWm v) = false ∧
    (v ≤ s.size →
      (∃ t, exec (.setHighWm v) s = .next t ∧ s.Answered t 0x0 0 ∧ t.highWatermark = v ∧
        (t.cmpHigh = true ↔ v ≤ s.count) ∧
        t.lowWatermark = s.lowWatermark ∧ t.life = s.life ∧ t.size = s.size ∧
        t.overwriteEnabled = s.overwriteEnabled ∧ s.SameIndices t ∧ s.SameStore t ∧ s.SameRest t) ∧
      (∃ t, exec (.setLowWm v) s = .next t ∧ s.Answered t 0x0 0 ∧ t.lowWatermark = v ∧
        (t.cmpLow = true ↔ s.count ≤ v) ∧
        t.highWatermark = s.highWatermark ∧ t.life = s.life ∧ t.size = s.size ∧
        t.overwriteEnabled = s.overwriteEnabled ∧ s.SameIndices t ∧ s.SameStore t ∧ s.SameRest t)) ∧
    (s.size < v → ∀ i : Instr, i = .setHighWm v ∨ i = .setLowWm v →
      ∃ t, exec i s = .next t ∧ s.Answered t 0x3 0 ∧ s.SameControl t ∧ s.SameIndices t ∧ s.SameStore t ∧
        s.SameRest t)

/-- R143: CHECK_WM answers by levels, High before Low, writes nothing, and has no race window. -/
def Obligations.CheckWatermarksAnswer : Prop :=
  (∀ W, (encode W .checkWm).toNat = 0x23 * 2 ^ W) ∧ (∀ cfg, opensWindow cfg .checkWm = false) ∧
  ∀ s : State, s.Live →
    ∃ t, exec .checkWm s = .next t ∧
      s.Answered t 0x0
        (if s.highWatermark ≤ s.count then 2 else if s.count ≤ s.lowWatermark then 1 else 0) ∧
      s.SameControl t ∧ s.SameIndices t ∧ s.SameStore t ∧ s.SameRest t

/-- DUMP (42 R145) answers `count` and shows the valid bytes, oldest first, at DIAG; it writes no state; it is a plain
operation, with a race window. That the whole sequence of its micro-steps (00_scope R7) is performed and answered in one
step of the model is the model's reading (DEDUCED) of 70 R244, 10_state R26 and 20_memory R52, log 29; that the entries of
DIAG above `count` keep what an earlier DUMP wrote is its reading too (DEDUCED), log 16. -/
def Obligations.DumpEffect : Prop :=
  (∀ W, (encode W .dump).toNat = 0x3F * 2 ^ W) ∧ (∀ cfg, opensWindow cfg .dump = true) ∧
  ∀ s : State, s.Live → s.RingOk →
    ∃ t, exec .dump s = .next t ∧ s.Answered t 0x0 s.count ∧
      (∀ i, i < s.count → t.diag.read i = s.store.read ((s.tail + i) % s.size) ∧
        (t.diag.read i).isSome = true) ∧
      (∀ i, s.count ≤ i → t.diag.read i = s.diag.read i) ∧
      s.SameControl t ∧ s.SameIndices t ∧ s.SameStore t ∧ s.SameParser t ∧ s.SameBuilder t ∧ s.SameOutput t ∧
      s.SameEnvironment t

/-- DUMP is a sequence of micro-steps (00_scope R7): micro-step `i` reads the byte at logical position `i` and writes it at
DIAG[i] (42 R145), each from the state the one before it left, and DUMP answers from the last of these states. That one step
of the model performs the whole sequence is the model's reading (DEDUCED) of 70 R244, 10_state R26 and 20_memory R52,
log 29. -/
def Obligations.DumpIsItsSequenceOfByteReads : Prop :=
  ∀ s : State, s.Live → s.RingOk →
    ∃ f : Nat → State, f 0 = s ∧
      (∀ i, i < s.count → snapshotByte i (f i) = .done () (f (i + 1)) ∧
        ∃ b, s.store.read ((s.tail + i) % s.size) = some b ∧
          f (i + 1) = { f i with diag := (f i).diag.write i b }) ∧
      exec .dump s = .next ((f s.count).answer .ok s.count)

/-! ## The builder -/

/-- ADD_MESSAGE's check micro-step B0 (43 R162): InvalidLength before InsufficientSpace, against live free space whatever
the policy (R163 (c)), nothing written to the ring; a check that passes leaves the builder at offset 0; refused while the
builder is in use (R175, U7). -/
def Obligations.AddMessageCheckEffect : Prop :=
  ∀ (s : State) (n : Byte), s.Live →
    (s.builderBusy = true → exec (.addMessage n) s = .refused .engineBusy) ∧
    (s.builderBusy = false → n.toNat < 3 →
      ∃ t, exec (.addMessage n) s = .next t ∧ s.Answered t 0x5 0 ∧ s.SameControl t ∧ s.SameIndices t ∧
        s.SameStore t ∧ s.SameParser t ∧ s.SameOutput t ∧ s.SameDiag t ∧ s.SameEnvironment t) ∧
    (s.builderBusy = false → 3 ≤ n.toNat → (s.size : Int) - (s.count : Int) < (n.toNat : Int) →
      ∃ t, exec (.addMessage n) s = .next t ∧ s.Answered t 0x6 0 ∧ s.SameControl t ∧ s.SameIndices t ∧
        s.SameStore t ∧ s.SameParser t ∧ s.SameOutput t ∧ s.SameDiag t ∧ s.SameEnvironment t) ∧
    (s.builderBusy = false → 3 ≤ n.toNat → (n.toNat : Int) ≤ (s.size : Int) - (s.count : Int) →
      ∃ t, exec (.addMessage n) s = .next t ∧ s.Paused t .building ∧ t.blen = n ∧ t.bidx = 0 ∧ s.SameControl t ∧
        s.SameIndices t ∧ s.SameStore t ∧ s.SameParser t ∧ s.SameOutput t ∧ s.SameDiag t ∧ s.SameEnvironment t)

/-- ADD_MESSAGE's later micro-steps (43 R162): the next byte of `MSG_IN` is pushed by the canonical push; the last one
answers Ok; a push that is refused ends the operation Full and leaves the bytes already pushed (R163 (g)); with overwrite
on the oldest byte is discarded, and on a ring of size 0 the run is refused (U5). That an offset outside the range of 10_state
R24, which no step brings about (`OffsetsStayInRange`), is advanced over 8 bits is the model's choice, log 15. -/
def Obligations.AddMessageByteEffect : Prop :=
  ∀ s : State, s.Live → s.RingOk →
    (s.count ≠ s.size →
      ∃ t b, s.command.msgIn[s.bidx.toNat]? = some b ∧ addMessageByte s = .next t ∧
        (s.bidx + 1 = s.blen → s.Answered t 0x0 0) ∧
        (s.bidx + 1 ≠ s.blen → s.Paused t .building ∧ t.bidx = s.bidx + 1 ∧ t.blen = s.blen ∧
          (s.bidx.toNat < s.blen.toNat → t.bidx.toNat = s.bidx.toNat + 1 ∧ t.bidx.toNat < t.blen.toNat)) ∧
        t.contents = s.contents ++ [some b] ∧ t.head = (s.head + 1) % s.size ∧ t.tail = s.tail ∧
        t.count = s.count + 1 ∧ s.SameStoreBut t s.head ∧ s.SameControl t ∧ s.SameParser t ∧ s.SameOutput t ∧
        s.SameDiag t ∧ s.SameEnvironment t) ∧
    (s.count = s.size → s.overwriteEnabled = false →
      ∃ t, addMessageByte s = .next t ∧ s.Answered t 0x1 0 ∧ s.SameIndices t ∧ s.SameStore t ∧ s.SameControl t ∧
        s.SameParser t ∧ s.SameOutput t ∧ s.SameDiag t ∧ s.SameEnvironment t) ∧
    (s.count = s.size → s.overwriteEnabled = true → s.size ≠ 0 →
      ∃ t b, s.command.msgIn[s.bidx.toNat]? = some b ∧ addMessageByte s = .next t ∧
        (s.bidx + 1 = s.blen → s.Answered t 0x0 0) ∧
        (s.bidx + 1 ≠ s.blen → s.Paused t .building ∧ t.bidx = s.bidx + 1 ∧ t.blen = s.blen ∧
          (s.bidx.toNat < s.blen.toNat → t.bidx.toNat = s.bidx.toNat + 1 ∧ t.bidx.toNat < t.blen.toNat)) ∧
        t.contents = s.contents.tail ++ [some b] ∧ t.head = (s.head + 1) % s.size ∧
        t.tail = t.head ∧ t.count = s.count ∧ s.SameStoreBut t s.head ∧ s.SameControl t ∧ s.SameParser t ∧
        s.SameOutput t ∧ s.SameDiag t ∧ s.SameEnvironment t) ∧
    (s.size = 0 → s.overwriteEnabled = true → addMessageByte s = .refused .zeroSize)

/-- ADD_MESSAGE whole: with room for the message and nothing intervening, the operation answers Ok and the ring holds
the message after what it held, verbatim and in order: all or nothing (43 R161, R163 (a), (d), (f)). -/
def Obligations.AddMessageDeliversTheMessage : Prop :=
  ∀ (s : State) (n : Byte), s.Inv → s.Live → s.turns = [] → (s.port s.active).phase = .accepted →
    s.command.decoded s.cfg.width = .ok (.addMessage n) → s.builderBusy = false → 3 ≤ n.toNat →
    s.count + n.toNat ≤ s.size →
    ∃ t, Host.Core.run Sys2Proof.core (s.framerSteps n.toNat) s = .next t ∧ s.Answered t 0x0 0 ∧
      t.contents = s.contents ++ (s.command.message n.toNat).map some ∧
      t.count = s.count + n.toNat ∧ t.tail = s.tail ∧
      s.SameControl t ∧ s.SameParser t ∧ s.SameOutput t ∧ s.SameDiag t ∧ s.SameEnvironment t

/-! ## The parser -/

/-- R166: GET_MESSAGE's micro-step P0. Where the operation ends here `flen`, `fidx` and `fxor` hold no value afterwards
(`TransientsAreForgotten`), and the statement claims nothing of them; where it goes on they are not written. -/
def Obligations.GetMessageStartStep : Prop :=
  ∀ s : State, s.Live → s.RingOk → s.parserBusy = false →
    (s.count = 0 →
      ∃ t, exec .getMessage s = .next t ∧ s.Answered t 0x2 0 ∧ t.fstate = .idle ∧ s.SameControl t ∧ s.SameIndices t ∧
        s.SameStore t ∧ s.SameBuilder t ∧ s.SameOutput t ∧ s.SameDiag t ∧ s.SameEnvironment t) ∧
    (s.count ≠ 0 →
      ∃ t b, s.store.read s.tail = some b ∧ exec .getMessage s = .next t ∧
        (b ≠ s.cfg.startByte → s.Answered t 0x7 0 ∧ t.fstate = .idle) ∧
        (b = s.cfg.startByte → s.Paused t .parsing ∧ t.fstate = .awaitLength ∧
          t.flen = s.flen ∧ t.fidx = s.fidx ∧ t.fxor = s.fxor) ∧
        t.tail = (s.tail + 1) % s.size ∧ t.count + 1 = s.count ∧ t.head = s.head ∧
        s.SameStore t ∧ s.SameControl t ∧ s.SameBuilder t ∧ s.SameOutput t ∧ s.SameDiag t ∧ s.SameEnvironment t)

/-- R175: a second operation of an engine that is in use is refused (U7); an operation of the other engine is not. -/
def Obligations.OneOperationPerEngine : Prop :=
  ∀ s : State, s.Live →
    (s.parserBusy = true → exec .getMessage s = .refused .engineBusy) ∧
    (s.builderBusy = true → ∀ n, exec (.addMessage n) s = .refused .engineBusy) ∧
    (s.RingOk → s.builderBusy = true → s.parserBusy = false → ∃ t, exec .getMessage s = .next t) ∧
    (s.parserBusy = true → s.builderBusy = false → ∀ n, ∃ t, exec (.addMessage n) s = .next t)

/-- R167: micro-step P1, state AwaitLength. -/
def Obligations.GetMessageLengthStep : Prop :=
  ∀ s : State, s.Live → s.RingOk → s.fstate = .awaitLength →
    (s.count = 0 →
      ∃ t, parserStep s = .next t ∧ s.Answered t 0x8 0 ∧ t.fstate = .idle ∧ s.SameControl t ∧ s.SameIndices t ∧
        s.SameStore t ∧ s.SameBuilder t ∧ s.SameOutput t ∧ s.SameDiag t ∧ s.SameEnvironment t) ∧
    (s.count ≠ 0 →
      ∃ t b, s.store.read s.tail = some b ∧ parserStep s = .next t ∧
        (b.toNat < 3 → s.Answered t 0x5 0 ∧ t.fstate = .idle ∧ s.SameOutput t) ∧
        (3 ≤ b.toNat →
          s.Paused t .parsing ∧ t.fstate = .consumePayload ∧ t.flen = b ∧ t.fidx = 2 ∧ t.fxor = 0 ∧
          t.obuf.read 0 = some s.cfg.startByte ∧ t.obuf.read 1 = some b ∧
          (∀ a, 2 ≤ a → t.obuf.read a = s.obuf.read a) ∧ t.olen = s.olen) ∧
        t.tail = (s.tail + 1) % s.size ∧ t.count + 1 = s.count ∧ t.head = s.head ∧
        s.SameStore t ∧ s.SameControl t ∧ s.SameBuilder t ∧ s.SameDiag t ∧ s.SameEnvironment t)

/-- R168: micro-steps P2 .. P(`flen`-1), state ConsumePayload. The offset is an 8-bit register, which never wraps while it
is below `flen` (10_state R22). That an offset outside that range, which no step brings about (`OffsetsStayInRange`), is
advanced over 8 bits, and where the parser goes then, is the model's choice, log 15. -/
def Obligations.GetMessagePayloadStep : Prop :=
  ∀ s : State, s.Live → s.RingOk → s.fstate = .consumePayload →
    (s.count = 0 →
      ∃ t, parserStep s = .next t ∧ s.Answered t 0x8 0 ∧ t.fstate = .idle ∧ s.SameControl t ∧ s.SameIndices t ∧
        s.SameStore t ∧ s.SameBuilder t ∧ s.SameOutput t ∧ s.SameDiag t ∧ s.SameEnvironment t) ∧
    (s.count ≠ 0 →
      ∃ t b, s.store.read s.tail = some b ∧ parserStep s = .next t ∧ s.Paused t .parsing ∧
        t.obuf.read s.fidx.toNat = some b ∧ (∀ a, a ≠ s.fidx.toNat → t.obuf.read a = s.obuf.read a) ∧
        t.olen = s.olen ∧ t.fxor = s.fxor ^^^ b ∧ t.fidx = s.fidx + 1 ∧ t.flen = s.flen ∧
        (s.fidx.toNat < s.flen.toNat → t.fidx.toNat = s.fidx.toNat + 1) ∧
        t.fstate = (if t.fidx = s.flen then .validate else .consumePayload) ∧
        t.tail = (s.tail + 1) % s.size ∧ t.count + 1 = s.count ∧ t.head = s.head ∧
        s.SameStore t ∧ s.SameControl t ∧ s.SameBuilder t ∧ s.SameDiag t ∧ s.SameEnvironment t)

/-- R169: micro-step PV, state Validate. -/
def Obligations.GetMessageValidateStep : Prop :=
  ∀ s : State, s.Live → s.fstate = .validate →
    ∃ t, parserStep s = .next t ∧ t.fstate = .idle ∧
      (s.fxor ≠ 0 → s.Answered t 0x9 0 ∧ t.olen = s.olen) ∧
      (s.fxor = 0 → s.Answered t 0x0 s.flen.toNat ∧ t.olen = s.flen) ∧
      (∀ a, t.obuf.read a = s.obuf.read a) ∧ s.SameControl t ∧ s.SameIndices t ∧ s.SameStore t ∧ s.SameBuilder t ∧
      s.SameDiag t ∧ s.SameEnvironment t

/-- `fstate` moves only along the transitions of 43 R165: a step leaves it, or takes a row of the table (the states Done
and Failed pass to Idle within the micro-step that gives the response), or is the hardware reset. -/
def Obligations.ParserMovesAlongItsTable : Prop :=
  ∀ s t : State, s.Inv → step s = .next t → s.turns.head? ≠ some .hwReset →
    t.fstate = s.fstate ∨
    (s.fstate, t.fstate) ∈
      [(FState.idle, FState.awaitLength), (FState.awaitLength, FState.idle), (FState.awaitLength, FState.consumePayload),
        (FState.consumePayload, FState.idle), (FState.consumePayload, FState.validate), (FState.validate, FState.idle)]

/-- GET_MESSAGE whole, a valid frame at the tail: with nothing intervening the frame is delivered to `obuf`, `olen` is
its length, the bytes after it stay, and the answer is Ok with the length (43 R164, R170). -/
def Obligations.GetMessageDeliversAValidFrame : Prop :=
  ∀ (s : State) (len : Byte) (m : List Byte) (rest : List (Option Byte)), s.Inv → s.Live → s.turns = [] →
    (s.port s.active).phase = .accepted → s.command.decoded s.cfg.width = .ok .getMessage → s.parserBusy = false →
    ValidFrame s.cfg.startByte len m → s.contents = m.map some ++ rest →
    ∃ t, Host.Core.run Sys2Proof.core (s.framerSteps len.toNat) s = .next t ∧ s.Answered t 0x0 len.toNat ∧
      t.olen = len ∧ (∀ k, k < len.toNat → t.obuf.read k = m[k]?) ∧
      (∀ k, len.toNat ≤ k → t.obuf.read k = s.obuf.read k) ∧ t.contents = rest ∧ t.head = s.head ∧ s.SameStore t ∧
      s.SameControl t ∧ s.SameBuilder t ∧ s.SameDiag t ∧ s.SameEnvironment t

/-- GET_MESSAGE whole, a frame whose exclusive-or over offsets 2 to LENGTH-1 is not zero: ChecksumMismatch, all LENGTH
bytes are lost, `olen` is not written (43 R172, 60 R210). -/
def Obligations.GetMessageRejectsABadChecksum : Prop :=
  ∀ (s : State) (len : Byte) (m : List Byte) (rest : List (Option Byte)), s.Inv → s.Live → s.turns = [] →
    (s.port s.active).phase = .accepted → s.command.decoded s.cfg.width = .ok .getMessage → s.parserBusy = false →
    3 ≤ len.toNat → m.length = len.toNat → m[0]? = some s.cfg.startByte → m[1]? = some len →
    xorBytes (m.drop 2) ≠ 0 → s.contents = m.map some ++ rest →
    ∃ t, Host.Core.run Sys2Proof.core (s.framerSteps len.toNat) s = .next t ∧ s.Answered t 0x9 0 ∧
      t.olen = s.olen ∧ (∀ k, k < len.toNat → t.obuf.read k = m[k]?) ∧ t.contents = rest ∧
      s.SameControl t ∧ s.SameStore t

/-- GET_MESSAGE whole, a ring that runs dry after `m.length` bytes of a longer frame: Incomplete, every byte is lost,
`olen` is not written (43 R172, 60 R209). -/
def Obligations.GetMessageDrainsAnIncompleteFrame : Prop :=
  ∀ (s : State) (len : Byte) (m : List Byte), s.Inv → s.Live → s.turns = [] →
    (s.port s.active).phase = .accepted → s.command.decoded s.cfg.width = .ok .getMessage → s.parserBusy = false →
    3 ≤ len.toNat → 2 ≤ m.length → m.length < len.toNat → m[0]? = some s.cfg.startByte → m[1]? = some len →
    s.contents = m.map some →
    ∃ t, Host.Core.run Sys2Proof.core (s.framerSteps m.length) s = .next t ∧ s.Answered t 0x8 0 ∧
      t.count = 0 ∧ t.olen = s.olen ∧ (∀ k, k < m.length → t.obuf.read k = m[k]?) ∧
      (∀ k, m.length ≤ k → t.obuf.read k = s.obuf.read k) ∧ s.SameControl t ∧ s.SameStore t

/-- R174: on an empty ring of capacity at least `len`, ADD_MESSAGE of a valid frame and then GET_MESSAGE, both by `S`
with nothing intervening, deliver the frame and leave the ring empty; and changing any one byte of a valid frame at an
offset from 2 on makes the exclusive-or nonzero. -/
def Obligations.AddThenGetReturnsTheMessage : Prop :=
  (∀ (start len : Byte) (m : List Byte) (k : Nat) (b : Byte), ValidFrame start len m → 2 ≤ k → k < len.toNat →
    m[k]? ≠ some b → xorBytes ((m.set k b).drop 2) ≠ 0) ∧
  ∀ (s : State) (len : Byte) (g : Command) (more : List Line), s.Inv → s.Live → s.turns = [] →
    s.portA.phase = .free → s.portS.phase = .accepted → s.portS.cmd.decoded s.cfg.width = .ok (.addMessage len) →
    s.streamS = .command g :: more → g.decoded s.cfg.width = .ok .getMessage → s.count = 0 →
    len.toNat ≤ s.size → ValidFrame s.cfg.startByte len (s.portS.cmd.message len.toNat) →
    ∃ t u v, Host.Core.run Sys2Proof.core (s.framerSteps len.toNat) s = .next t ∧
      t.rsp = some { agent := .sync, word := rspWord s.cfg.width 0x0 0 } ∧
      step t = .next u ∧ Host.Core.run Sys2Proof.core (u.framerSteps len.toNat) u = .next v ∧
      v.rsp = some { agent := .sync, word := rspWord s.cfg.width 0x0 len.toNat } ∧ v.olen = len ∧
      (∀ k, k < len.toNat → v.obuf.read k = (s.portS.cmd.message len.toNat)[k]?) ∧ v.count = 0

/-! ## Agents, the race, the frame of the whole machine -/

/-- An operation of `A` in progress runs to its end before `S` performs another micro-step (20_memory R49). -/
def Obligations.AsyncRunsToItsEnd : Prop :=
  ∀ s t : State, s.portA.phase ≠ .free → s.turns.head? ≠ some .hwReset → step s = .next t →
    t.portS = s.portS ∧ t.streamS = s.streamS ∧ t.swin = s.swin ∧ t.streamA = s.streamA

/-- While `ie = 0` agent `A` begins no operation: its commands wait (20_memory R50). -/
def Obligations.AsyncWaitsWhileDisabled : Prop :=
  ∀ s t : State, s.ie = false → s.portA.phase = .free → step s = .next t →
    t.portA.phase = .free ∧ t.streamA = s.streamA

/-- The race, exactly: from a state of the invariant a step is raced when and only when it is `A`'s turn, `A` may begin,
its next command is legal, and a race window of `S` is open (20_memory R50, R52). That an illegal word is no operation is
the model's choice, log 11. -/
def Obligations.RacedExactlyInsideAWindow : Prop :=
  ∀ s : State, s.Inv →
    (step s = .fault .raced ↔
      s.turns.head? = some .async ∧ s.portA.phase = .free ∧ s.ie = true ∧ s.swin = true ∧
        ∃ c rest i, s.streamA = c :: rest ∧ c.decoded s.cfg.width = .ok i)

/-- When `S` issues a command its race window opens exactly for the plain operations of 20_memory R52 (and for the
framer's when `FRAMER_ATOMIC_PRIMS = false`, R53), not for those of R51 and not for an illegal word (30_encoding R69); no
register and no byte space of the block changes. That it opens at the acceptance, a step of its own, is the model's
choice, log 10. -/
def Obligations.WindowOpensForPlainOperations : Prop :=
  ∀ (s : State) (c : Command) (rest : List Line), s.portA.phase = .free → s.portS.phase = .free →
    (s.turns = [] ∨ s.turns.head? = some .sync) → s.streamS = .command c :: rest →
    ∃ t, step s = .next t ∧ t.portS = { phase := .accepted, cmd := c } ∧ t.portA = s.portA ∧ t.streamS = rest ∧
      t.rsp = none ∧
      (∀ e, c.decoded s.cfg.width = .error e → t.swin = false) ∧
      (∀ i, c.decoded s.cfg.width = .ok i →
        (t.swin = true ↔
          (∃ n, i = .initStatic n) ∨ (∃ n, i = .initDynamic n) ∨ i = .teardown ∨ i = .reset ∨ (∃ b, i = .push b) ∨
            (∃ b, i = .pushOvw b) ∨ i = .pop ∨ (∃ n, i = .peek n) ∨ i = .dump ∨
            (((∃ n, i = .addMessage n) ∨ i = .getMessage) ∧ s.cfg.framerAtomicPrims = false))) ∧
      s.SameControl t ∧ s.SameIndices t ∧ s.SameStore t ∧ s.SameParser t ∧ s.SameBuilder t ∧ s.SameOutput t ∧
      s.SameDiag t ∧ t.ie = s.ie

/-- While a race window of `S` is open and it is `A`'s turn, nothing of the block changes: either the run is raced, or no
register and no byte space is written (20_memory R52). -/
def Obligations.OpenWindowShieldsTheRing : Prop :=
  ∀ s t : State, s.Inv → s.swin = true → s.turns.head? = some .async → step s = .next t →
    t.swin = true ∧ t.portS = s.portS ∧ s.SameControl t ∧ s.SameIndices t ∧ t.store = s.store ∧ s.SameParser t ∧
      s.SameBuilder t ∧ t.obuf = s.obuf ∧ t.olen = s.olen ∧ t.diag = s.diag ∧ t.ie = s.ie

/-- The block never changes `ie`: only the host's move `SETIE` does (10_state R29). -/
def Obligations.OnlyTheHostWritesIe : Prop :=
  ∀ s t : State, step s = .next t → t.ie ≠ s.ie → ∃ v rest, s.streamS = .setIe v :: rest ∧ t.ie = v ∧
    s.portA.phase = .free ∧ s.portS.phase = .free

/-- The moves of the host and of `A` that begin something (30_encoding R75, 20_memory R50): `SETIE v`, between operations
of `S`, writes `ie` and nothing of the block; with `ie = 1` and no race window open `A` begins its next command. That the
move `SETIE` stands in the stream of `S` is the model's choice of form, log 22, and that `A`'s acceptance is a step of its
own, in which nothing of the block changes, is the model's choice, log 10. -/
def Obligations.HostAndAgentMovesBegin : Prop :=
  (∀ (s : State) (v : Bool) (rest : List Line), s.portA.phase = .free → s.portS.phase = .free →
    (s.turns = [] ∨ s.turns.head? = some .sync) → s.streamS = .setIe v :: rest →
    ∃ t, step s = .next t ∧ t.ie = v ∧ t.streamS = rest ∧ t.streamA = s.streamA ∧ t.portA = s.portA ∧
      t.portS = s.portS ∧ t.swin = s.swin ∧ t.rsp = none ∧ t.cfg = s.cfg ∧ s.SameControl t ∧ s.SameIndices t ∧
      t.store = s.store ∧ s.SameParser t ∧ s.SameBuilder t ∧ t.obuf = s.obuf ∧ t.olen = s.olen ∧
      t.diag = s.diag) ∧
  (∀ (s : State) (c : Command) (rest : List Command), s.portA.phase = .free → s.turns.head? = some .async →
    s.ie = true → s.swin = false → s.streamA = c :: rest →
    ∃ t, step s = .next t ∧ t.portA = { phase := .accepted, cmd := c } ∧ t.streamA = rest ∧ t.streamS = s.streamS ∧
      t.portS = s.portS ∧ t.swin = s.swin ∧ t.ie = s.ie ∧ t.rsp = none ∧ t.cfg = s.cfg ∧ s.SameControl t ∧
      s.SameIndices t ∧ t.store = s.store ∧ s.SameParser t ∧ s.SameBuilder t ∧ t.obuf = s.obuf ∧ t.olen = s.olen ∧
      t.diag = s.diag)

/-- No step changes the parameters of the block (00_scope R5). -/
def Obligations.NoStepChangesTheParameters : Prop :=
  ∀ s t : State, step s = .next t → t.cfg = s.cfg

/-- Who writes what (10_state R10, column "written by"): an operation's first micro-step changes a register only when it
is one of that register's writers (TEARDOWN and a failed INIT_DYNAMIC void the ring's registers; they and the inits void
the transients, 10_state R11, R33). That a failed INIT_DYNAMIC leaves `obuf` and `olen` alone, as 10_state R25 says of any
init, against the general sentence of 10_state R11, is the model's reading (DEDUCED), log 15; that the inits and TEARDOWN
void the transients of an idle engine only is its reading too (DEDUCED), log 28. -/
def Obligations.RegistersChangeOnlyByTheirWriters : Prop :=
  ∀ (i : Instr) (s t : State), exec i s = .next t →
    (t.life ≠ s.life ∨ t.size ≠ s.size → (∃ n, i = .initStatic n) ∨ (∃ n, i = .initDynamic n) ∨ i = .teardown) ∧
    (t.highWatermark ≠ s.highWatermark →
      (∃ n, i = .initStatic n) ∨ (∃ n, i = .initDynamic n) ∨ i = .teardown ∨ ∃ v, i = .setHighWm v) ∧
    (t.lowWatermark ≠ s.lowWatermark →
      (∃ n, i = .initStatic n) ∨ (∃ n, i = .initDynamic n) ∨ i = .teardown ∨ ∃ v, i = .setLowWm v) ∧
    (t.overwriteEnabled ≠ s.overwriteEnabled →
      (∃ n, i = .initStatic n) ∨ (∃ n, i = .initDynamic n) ∨ i = .teardown ∨ ∃ e, i = .setOverwrite e) ∧
    (t.head ≠ s.head ∨ t.store ≠ s.store →
      (∃ n, i = .initStatic n) ∨ (∃ n, i = .initDynamic n) ∨ i = .teardown ∨ i = .reset ∨ (∃ b, i = .push b) ∨
        (∃ b, i = .pushOvw b) ∨ ∃ b, i = .pushSafe b) ∧
    (t.tail ≠ s.tail ∨ t.count ≠ s.count →
      (∃ n, i = .initStatic n) ∨ (∃ n, i = .initDynamic n) ∨ i = .teardown ∨ i = .reset ∨ (∃ b, i = .push b) ∨
        (∃ b, i = .pushOvw b) ∨ (∃ b, i = .pushSafe b) ∨ i = .pop ∨ i = .popSafe ∨ i = .getMessage) ∧
    (t.fstate ≠ s.fstate → i = .getMessage) ∧
    (t.flen ≠ s.flen ∨ t.fidx ≠ s.fidx ∨ t.fxor ≠ s.fxor →
      i = .getMessage ∨
        (s.parserBusy = false ∧ ((∃ n, i = .initStatic n) ∨ (∃ n, i = .initDynamic n) ∨ i = .teardown))) ∧
    (t.obuf = s.obuf ∧ t.olen = s.olen) ∧
    (t.blen ≠ s.blen ∨ t.bidx ≠ s.bidx →
      (∃ n, i = .addMessage n) ∨
        (s.builderBusy = false ∧ ((∃ n, i = .initStatic n) ∨ (∃ n, i = .initDynamic n) ∨ i = .teardown))) ∧
    (t.diag ≠ s.diag → i = .dump) ∧
    (t.ie = s.ie ∧ t.streamA = s.streamA ∧ t.streamS = s.streamS ∧ t.turns = s.turns)

/-- What a failure of an operation's first micro-step leaves changed (60 R212): nothing of the ring for Full, Empty,
OutOfRange, InsufficientSpace and InvalidLength; `life` for AllocationError; one popped byte for InvalidStart. -/
def Obligations.FailuresWriteOnlyWhatTheyMay : Prop :=
  ∀ (i : Instr) (s t : State) (r : Response), exec i s = .next t → t.rsp = some r →
    (∀ e ∈ [0x1, 0x2, 0x3, 0x5, 0x6], r.word = rspWord s.cfg.width e 0 →
      s.SameControl t ∧ s.SameIndices t ∧ t.store = s.store ∧ t.obuf = s.obuf ∧ t.olen = s.olen) ∧
    (r.word = rspWord s.cfg.width 0x4 0 → t.life = .uninit ∧ (∃ n, i = .initDynamic n)) ∧
    (r.word = rspWord s.cfg.width 0x7 0 →
      s.SameControl t ∧ t.head = s.head ∧ t.store = s.store ∧ t.obuf = s.obuf ∧ t.olen = s.olen ∧
      t.tail = inc s.size s.tail ∧ t.count = s.count - 1)

/-- While the transients of the operations in flight are in the ranges of 10_state R20 to R24, and `blen` is the operand
of the ADD_MESSAGE in flight, so that the builder reads `MSG_IN[0 .. length-1]` and nothing else (30_encoding R73), every
step leaves them so, the hardware reset included. That this holds through an init or a TEARDOWN of `A` too is the model's
reading (DEDUCED), log 28. -/
def Obligations.OffsetsStayInRange : Prop :=
  ∀ s t : State, s.Inv → s.OffsetsOk → step s = .next t → t.OffsetsOk

/-- An ADD_MESSAGE of length `n` has at most `n` micro-steps after its check, and a GET_MESSAGE at most `LENGTH + 1` in all
(70 R244), whatever the other agent does in between: the check that passes sets `blen` to `n` and `bidx` to 0; each byte
micro-step advances `bidx` by one, keeps `blen`, and answers when `bidx` comes to `blen`; P0 goes on only to AwaitLength;
P1 that goes on sets `flen` to LENGTH and `fidx` to 2; each payload micro-step advances `fidx` by one, keeps `flen`, and
goes to Validate when `fidx` comes to `flen`; PV answers. That nothing else moves them is `TransientsInFlightAreKept`. -/
def Obligations.FramerMicroStepsAreBounded : Prop :=
  (∀ (s t : State) (n : Byte), exec (.addMessage n) s = .next t → t.rsp = none →
    3 ≤ n.toNat ∧ t.blen = n ∧ t.bidx = 0) ∧
  (∀ s t : State, s.OffsetsOk → s.builderBusy = true → addMessageByte s = .next t → t.rsp = none →
    t.blen = s.blen ∧ t.bidx.toNat = s.bidx.toNat + 1 ∧ t.bidx.toNat < t.blen.toNat) ∧
  (∀ s t : State, exec .getMessage s = .next t → t.rsp = none → t.fstate = .awaitLength) ∧
  (∀ s t : State, s.fstate = .awaitLength → parserStep s = .next t → t.rsp = none →
    ∃ b, s.store.read s.tail = some b ∧ 3 ≤ b.toNat ∧ t.flen = b ∧ t.fidx = 2 ∧ t.fstate = .consumePayload) ∧
  (∀ s t : State, s.OffsetsOk → s.fstate = .consumePayload → parserStep s = .next t → t.rsp = none →
    t.flen = s.flen ∧ t.fidx.toNat = s.fidx.toNat + 1 ∧
    ((t.fstate = .consumePayload ∧ t.fidx.toNat < t.flen.toNat) ∨ (t.fstate = .validate ∧ t.fidx = t.flen))) ∧
  (∀ s t : State, s.fstate = .validate → parserStep s = .next t → t.rsp ≠ none)

/-- The transients of an operation in flight are the operation's own: no other agent can write them (43 R169), they hold a
value inside their operation (93_implementation_defined section 2), and so its counts are those of the frame or of the
message, whatever comes between two micro-steps (43 R170, R172). A step that is not the hardware reset and not a micro-step
of that engine leaves `flen`, `fidx`, `fxor` and `fstate`, or `blen` and `bidx`, as they are. That an init or a TEARDOWN of
`A` does so too, against the general sentence of 10_state R11 and the word none of 10_state R33, is the model's reading
(DEDUCED), log 28. -/
def Obligations.TransientsInFlightAreKept : Prop :=
  ∀ s t : State, step s = .next t → s.turns.head? ≠ some .hwReset →
    (s.parserBusy = true →
      (t.flen = s.flen ∧ t.fidx = s.fidx ∧ t.fxor = s.fxor ∧ t.fstate = s.fstate) ∨
      ((s.port s.active).phase = .parsing ∧ parserStep s.taken = .next t)) ∧
    (s.builderBusy = true →
      (t.blen = s.blen ∧ t.bidx = s.bidx) ∨
      ((s.port s.active).phase = .building ∧ addMessageByte s.taken = .next t))

/-- Every operation ends: when only the agent that moves moves, an operation in progress has answered, or its run has
been stopped, within 512 steps (70 R244; 512, not 256, because a micro-step of `S` takes two steps when
`FRAMER_ATOMIC_PRIMS = false`, log 10), and within 514 even from offsets outside their ranges, which no
step brings about (`OffsetsStayInRange`; log 15). -/
def Obligations.EveryOperationEnds : Prop :=
  ∀ s : State, s.Inv → s.turns = [] → (s.port s.active).phase ≠ .free →
    ∃ k, k ≤ 514 ∧ (s.OffsetsOk → k ≤ 512) ∧
      ((∃ t, Host.Core.run Sys2Proof.core k s = .next t ∧
          (∃ w, t.rsp = some { agent := s.active, word := w }) ∧ (t.port s.active).phase = .free) ∨
        (∃ r, Host.Core.run Sys2Proof.core k s = .refused r))

/-- The flags are exclusive unless the ring has no capacity (10_state R27), and under the ring's invariant with size 0
both hold. -/
def Obligations.EmptyAndFullExclude : Prop :=
  ∀ s : State, s.RingOk → (s.empty = true ∧ s.full = true ↔ s.size = 0)
end

