-- ==== Sys2Proof/Laws/Memory.lean ====
section
/-! SUPPORT. The laws of a byte space: read after write, and that a write keeps the canonical form. -/

namespace Sys2Proof.Machine

@[simp] theorem memory_read_nil (a : Nat) : Memory.read [] a = none := rfl

@[simp] theorem memory_wf_nil : Memory.wf [] = true := rfl

@[simp] theorem memory_within_nil (n : Nat) : Memory.within [] n = true := rfl

@[simp] theorem memory_read_write_same (m : Memory) (a : Nat) (v : Byte) : (Memory.write m a v).read a = some v := by
  induction m with
  | nil => simp [Memory.write, Memory.read]
  | cons c rest ih =>
    obtain ⟨k, b⟩ := c
    by_cases h1 : a < k
    · simp [Memory.write, Memory.read, h1]
    · by_cases h2 : a = k
      · simp [Memory.write, Memory.read, h2]
      · simp [Memory.write, Memory.read, h1, h2, Ne.symm h2, ih]

theorem memory_read_write_of_ne (m : Memory) {a k : Nat} (v : Byte) (h : a ≠ k) :
    (Memory.write m k v).read a = Memory.read m a := by
  induction m with
  | nil => simp [Memory.write, Memory.read, Ne.symm h]
  | cons c rest ih =>
    obtain ⟨j, b⟩ := c
    by_cases h1 : k < j
    · simp [Memory.write, Memory.read, h1, Ne.symm h]
    · by_cases h2 : k = j
      · subst h2
        simp [Memory.write, Memory.read, Ne.symm h]
      · by_cases h3 : j = a
        · subst h3
          simp [Memory.write, Memory.read, h1, h2]
        · simp [Memory.write, Memory.read, h1, h2, h3, ih]

/-- A read after a write, in one line. -/
theorem memory_read_write (m : Memory) (a k : Nat) (v : Byte) :
    (Memory.write m k v).read a = if a = k then some v else Memory.read m a := by
  by_cases h : a = k
  · subst h; simp
  · simp [h, memory_read_write_of_ne m v h]

/-- A bound below every index of a space stays below it after a write above the bound. -/
theorem memory_write_all_above (m : Memory) {j a : Nat} (v : Byte) (ha : j < a)
    (h : m.all (fun c => decide (j < c.1)) = true) :
    (Memory.write m a v).all (fun c => decide (j < c.1)) = true := by
  induction m with
  | nil => simp [Memory.write, ha]
  | cons c rest ih =>
    obtain ⟨k, b⟩ := c
    simp only [List.all_cons, Bool.and_eq_true, decide_eq_true_eq] at h
    unfold Memory.write
    split
    · simp [ha, h.1, h.2]
    · split
      · simp [ha, h.2]
      · simp [h.1, ih h.2]

/-- A write keeps the canonical form. -/
theorem memory_write_wf (m : Memory) (a : Nat) (v : Byte) (h : Memory.wf m = true) :
    Memory.wf (Memory.write m a v) = true := by
  induction m with
  | nil => simp [Memory.write, Memory.wf]
  | cons c rest ih =>
    obtain ⟨k, b⟩ := c
    simp only [Memory.wf, Bool.and_eq_true] at h
    by_cases h1 : a < k
    · have : rest.all (fun c => decide (a < c.1)) = true := by
        rw [List.all_eq_true] at h ⊢
        intro c hc
        have := h.1 c hc
        simp only [decide_eq_true_eq] at this ⊢
        omega
      simp [Memory.write, Memory.wf, h1, h.1, h.2, this]
    · by_cases h2 : a = k
      · subst h2
        simp [Memory.write, Memory.wf, h.1, h.2]
      · have hk : k < a := by omega
        simp [Memory.write, Memory.wf, h1, h2, ih h.2, memory_write_all_above rest v hk h.1]

/-- A write inside the extent of a space keeps it inside. -/
theorem memory_write_within (m : Memory) {a n : Nat} (v : Byte) (ha : a < n) (h : Memory.within m n = true) :
    Memory.within (Memory.write m a v) n = true := by
  induction m with
  | nil => simp [Memory.write, Memory.within, ha]
  | cons c rest ih =>
    obtain ⟨k, b⟩ := c
    simp only [Memory.within, List.all_cons, Bool.and_eq_true, decide_eq_true_eq] at h ih ⊢
    unfold Memory.write
    split
    · simp [ha, h.1, h.2]
    · split
      · simp [ha, h.2]
      · simp [h.1, ih h.2]

/-- An entry that holds a value is inside the extent. -/
theorem memory_index_lt_of_read (m : Memory) {a n : Nat} {v : Byte} (h : Memory.within m n = true)
    (hr : Memory.read m a = some v) : a < n := by
  induction m with
  | nil => simp at hr
  | cons c rest ih =>
    obtain ⟨k, b⟩ := c
    simp only [Memory.within, List.all_cons, Bool.and_eq_true, decide_eq_true_eq] at h ih
    unfold Memory.read at hr
    split at hr
    · omega
    · exact ih h.2 hr

end Sys2Proof.Machine
end

