-- ==== Sys2Proof/Laws/State.lean ====
section
/-! SUPPORT. One lemma for each field of each named update of the state. -/

namespace Sys2Proof.Machine

/-! ### `answer` -/

@[simp] theorem State.answer_cfg (s : State) (e : Status) (d : Nat) : (s.answer e d).cfg = s.cfg := rfl
@[simp] theorem State.answer_life (s : State) (e : Status) (d : Nat) : (s.answer e d).life = s.life := rfl
@[simp] theorem State.answer_size (s : State) (e : Status) (d : Nat) : (s.answer e d).size = s.size := rfl
@[simp] theorem State.answer_head (s : State) (e : Status) (d : Nat) : (s.answer e d).head = s.head := rfl
@[simp] theorem State.answer_tail (s : State) (e : Status) (d : Nat) : (s.answer e d).tail = s.tail := rfl
@[simp] theorem State.answer_count (s : State) (e : Status) (d : Nat) : (s.answer e d).count = s.count := rfl
@[simp] theorem State.answer_highWatermark (s : State) (e : Status) (d : Nat) : (s.answer e d).highWatermark = s.highWatermark := rfl
@[simp] theorem State.answer_lowWatermark (s : State) (e : Status) (d : Nat) : (s.answer e d).lowWatermark = s.lowWatermark := rfl
@[simp] theorem State.answer_overwriteEnabled (s : State) (e : Status) (d : Nat) : (s.answer e d).overwriteEnabled = s.overwriteEnabled := rfl
@[simp] theorem State.answer_store (s : State) (e : Status) (d : Nat) : (s.answer e d).store = s.store := rfl
@[simp] theorem State.answer_fstate (s : State) (e : Status) (d : Nat) : (s.answer e d).fstate = s.fstate := rfl
@[simp] theorem State.answer_flen (s : State) (e : Status) (d : Nat) : (s.answer e d).flen = s.flen := rfl
@[simp] theorem State.answer_fidx (s : State) (e : Status) (d : Nat) : (s.answer e d).fidx = s.fidx := rfl
@[simp] theorem State.answer_fxor (s : State) (e : Status) (d : Nat) : (s.answer e d).fxor = s.fxor := rfl
@[simp] theorem State.answer_blen (s : State) (e : Status) (d : Nat) : (s.answer e d).blen = s.blen := rfl
@[simp] theorem State.answer_bidx (s : State) (e : Status) (d : Nat) : (s.answer e d).bidx = s.bidx := rfl
@[simp] theorem State.answer_obuf (s : State) (e : Status) (d : Nat) : (s.answer e d).obuf = s.obuf := rfl
@[simp] theorem State.answer_olen (s : State) (e : Status) (d : Nat) : (s.answer e d).olen = s.olen := rfl
@[simp] theorem State.answer_diag (s : State) (e : Status) (d : Nat) : (s.answer e d).diag = s.diag := rfl
@[simp] theorem State.answer_ie (s : State) (e : Status) (d : Nat) : (s.answer e d).ie = s.ie := rfl
@[simp] theorem State.answer_swin (s : State) (e : Status) (d : Nat) : (s.answer e d).swin = (if s.active = .sync then false else s.swin) := rfl
@[simp] theorem State.answer_portA (s : State) (e : Status) (d : Nat) : (s.answer e d).portA = (if s.active = .async then { s.portA with phase := .free } else s.portA) := rfl
@[simp] theorem State.answer_portS (s : State) (e : Status) (d : Nat) : (s.answer e d).portS = (if s.active = .sync then { s.portS with phase := .free } else s.portS) := rfl
@[simp] theorem State.answer_rsp (s : State) (e : Status) (d : Nat) : (s.answer e d).rsp = some { agent := s.active, word := (responseWord s.cfg.width e d).toNat } := rfl
@[simp] theorem State.answer_streamA (s : State) (e : Status) (d : Nat) : (s.answer e d).streamA = s.streamA := rfl
@[simp] theorem State.answer_streamS (s : State) (e : Status) (d : Nat) : (s.answer e d).streamS = s.streamS := rfl
@[simp] theorem State.answer_turns (s : State) (e : Status) (d : Nat) : (s.answer e d).turns = s.turns := rfl
@[simp] theorem State.answer_fresh (s : State) (e : Status) (d : Nat) : (s.answer e d).fresh = s.fresh := rfl

/-! ### `pause` -/

@[simp] theorem State.pause_cfg (s : State) (p : Phase) : (s.pause p).cfg = s.cfg := rfl
@[simp] theorem State.pause_life (s : State) (p : Phase) : (s.pause p).life = s.life := rfl
@[simp] theorem State.pause_size (s : State) (p : Phase) : (s.pause p).size = s.size := rfl
@[simp] theorem State.pause_head (s : State) (p : Phase) : (s.pause p).head = s.head := rfl
@[simp] theorem State.pause_tail (s : State) (p : Phase) : (s.pause p).tail = s.tail := rfl
@[simp] theorem State.pause_count (s : State) (p : Phase) : (s.pause p).count = s.count := rfl
@[simp] theorem State.pause_highWatermark (s : State) (p : Phase) : (s.pause p).highWatermark = s.highWatermark := rfl
@[simp] theorem State.pause_lowWatermark (s : State) (p : Phase) : (s.pause p).lowWatermark = s.lowWatermark := rfl
@[simp] theorem State.pause_overwriteEnabled (s : State) (p : Phase) : (s.pause p).overwriteEnabled = s.overwriteEnabled := rfl
@[simp] theorem State.pause_store (s : State) (p : Phase) : (s.pause p).store = s.store := rfl
@[simp] theorem State.pause_fstate (s : State) (p : Phase) : (s.pause p).fstate = s.fstate := rfl
@[simp] theorem State.pause_flen (s : State) (p : Phase) : (s.pause p).flen = s.flen := rfl
@[simp] theorem State.pause_fidx (s : State) (p : Phase) : (s.pause p).fidx = s.fidx := rfl
@[simp] theorem State.pause_fxor (s : State) (p : Phase) : (s.pause p).fxor = s.fxor := rfl
@[simp] theorem State.pause_blen (s : State) (p : Phase) : (s.pause p).blen = s.blen := rfl
@[simp] theorem State.pause_bidx (s : State) (p : Phase) : (s.pause p).bidx = s.bidx := rfl
@[simp] theorem State.pause_obuf (s : State) (p : Phase) : (s.pause p).obuf = s.obuf := rfl
@[simp] theorem State.pause_olen (s : State) (p : Phase) : (s.pause p).olen = s.olen := rfl
@[simp] theorem State.pause_diag (s : State) (p : Phase) : (s.pause p).diag = s.diag := rfl
@[simp] theorem State.pause_ie (s : State) (p : Phase) : (s.pause p).ie = s.ie := rfl
@[simp] theorem State.pause_swin (s : State) (p : Phase) : (s.pause p).swin = (if s.active = .sync then false else s.swin) := rfl
@[simp] theorem State.pause_portA (s : State) (p : Phase) : (s.pause p).portA = (if s.active = .async then { s.portA with phase := p } else s.portA) := rfl
@[simp] theorem State.pause_portS (s : State) (p : Phase) : (s.pause p).portS = (if s.active = .sync then { s.portS with phase := p } else s.portS) := rfl
@[simp] theorem State.pause_rsp (s : State) (p : Phase) : (s.pause p).rsp = none := rfl
@[simp] theorem State.pause_streamA (s : State) (p : Phase) : (s.pause p).streamA = s.streamA := rfl
@[simp] theorem State.pause_streamS (s : State) (p : Phase) : (s.pause p).streamS = s.streamS := rfl
@[simp] theorem State.pause_turns (s : State) (p : Phase) : (s.pause p).turns = s.turns := rfl
@[simp] theorem State.pause_fresh (s : State) (p : Phase) : (s.pause p).fresh = s.fresh := rfl

/-! ### `voidRing` -/

@[simp] theorem State.voidRing_cfg (s : State) : (s.voidRing).cfg = s.cfg := rfl
@[simp] theorem State.voidRing_life (s : State) : (s.voidRing).life = .uninit := rfl
@[simp] theorem State.voidRing_size (s : State) : (s.voidRing).size = (Config.freeWord s.cfg.width (s.fresh + 5)).toNat := rfl
@[simp] theorem State.voidRing_head (s : State) : (s.voidRing).head = (Config.freeWord s.cfg.width (s.fresh + 6)).toNat := rfl
@[simp] theorem State.voidRing_tail (s : State) : (s.voidRing).tail = (Config.freeWord s.cfg.width (s.fresh + 7)).toNat := rfl
@[simp] theorem State.voidRing_count (s : State) : (s.voidRing).count = (Config.freeWord s.cfg.width (s.fresh + 8)).toNat := rfl
@[simp] theorem State.voidRing_highWatermark (s : State) : (s.voidRing).highWatermark = (Config.freeWord s.cfg.width (s.fresh + 9)).toNat := rfl
@[simp] theorem State.voidRing_lowWatermark (s : State) : (s.voidRing).lowWatermark = (Config.freeWord s.cfg.width (s.fresh + 10)).toNat := rfl
@[simp] theorem State.voidRing_overwriteEnabled (s : State) : (s.voidRing).overwriteEnabled = Config.freeBit (s.fresh + 11) := rfl
@[simp] theorem State.voidRing_store (s : State) : (s.voidRing).store = [] := rfl
@[simp] theorem State.voidRing_fstate (s : State) : (s.voidRing).fstate = s.fstate := rfl
@[simp] theorem State.voidRing_flen (s : State) : (s.voidRing).flen = (if s.parserBusy then s.flen else Config.freeByte s.fresh) := rfl
@[simp] theorem State.voidRing_fidx (s : State) : (s.voidRing).fidx = (if s.parserBusy then s.fidx else Config.freeByte (s.fresh + 1)) := rfl
@[simp] theorem State.voidRing_fxor (s : State) : (s.voidRing).fxor = (if s.parserBusy then s.fxor else Config.freeByte (s.fresh + 2)) := rfl
@[simp] theorem State.voidRing_blen (s : State) : (s.voidRing).blen = (if s.builderBusy then s.blen else Config.freeByte (s.fresh + 3)) := rfl
@[simp] theorem State.voidRing_bidx (s : State) : (s.voidRing).bidx = (if s.builderBusy then s.bidx else Config.freeByte (s.fresh + 4)) := rfl
@[simp] theorem State.voidRing_obuf (s : State) : (s.voidRing).obuf = s.obuf := rfl
@[simp] theorem State.voidRing_olen (s : State) : (s.voidRing).olen = s.olen := rfl
@[simp] theorem State.voidRing_diag (s : State) : (s.voidRing).diag = s.diag := rfl
@[simp] theorem State.voidRing_ie (s : State) : (s.voidRing).ie = s.ie := rfl
@[simp] theorem State.voidRing_swin (s : State) : (s.voidRing).swin = s.swin := rfl
@[simp] theorem State.voidRing_portA (s : State) : (s.voidRing).portA = s.portA := rfl
@[simp] theorem State.voidRing_portS (s : State) : (s.voidRing).portS = s.portS := rfl
@[simp] theorem State.voidRing_rsp (s : State) : (s.voidRing).rsp = s.rsp := rfl
@[simp] theorem State.voidRing_streamA (s : State) : (s.voidRing).streamA = s.streamA := rfl
@[simp] theorem State.voidRing_streamS (s : State) : (s.voidRing).streamS = s.streamS := rfl
@[simp] theorem State.voidRing_turns (s : State) : (s.voidRing).turns = s.turns := rfl
@[simp] theorem State.voidRing_fresh (s : State) : (s.voidRing).fresh = s.fresh + 12 := rfl

/-! ### `voidBuilder` -/

@[simp] theorem State.voidBuilder_cfg (s : State) : (s.voidBuilder).cfg = s.cfg := rfl
@[simp] theorem State.voidBuilder_life (s : State) : (s.voidBuilder).life = s.life := rfl
@[simp] theorem State.voidBuilder_size (s : State) : (s.voidBuilder).size = s.size := rfl
@[simp] theorem State.voidBuilder_head (s : State) : (s.voidBuilder).head = s.head := rfl
@[simp] theorem State.voidBuilder_tail (s : State) : (s.voidBuilder).tail = s.tail := rfl
@[simp] theorem State.voidBuilder_count (s : State) : (s.voidBuilder).count = s.count := rfl
@[simp] theorem State.voidBuilder_highWatermark (s : State) : (s.voidBuilder).highWatermark = s.highWatermark := rfl
@[simp] theorem State.voidBuilder_lowWatermark (s : State) : (s.voidBuilder).lowWatermark = s.lowWatermark := rfl
@[simp] theorem State.voidBuilder_overwriteEnabled (s : State) : (s.voidBuilder).overwriteEnabled = s.overwriteEnabled := rfl
@[simp] theorem State.voidBuilder_store (s : State) : (s.voidBuilder).store = s.store := rfl
@[simp] theorem State.voidBuilder_fstate (s : State) : (s.voidBuilder).fstate = s.fstate := rfl
@[simp] theorem State.voidBuilder_flen (s : State) : (s.voidBuilder).flen = s.flen := rfl
@[simp] theorem State.voidBuilder_fidx (s : State) : (s.voidBuilder).fidx = s.fidx := rfl
@[simp] theorem State.voidBuilder_fxor (s : State) : (s.voidBuilder).fxor = s.fxor := rfl
@[simp] theorem State.voidBuilder_blen (s : State) : (s.voidBuilder).blen = Config.freeByte s.fresh := rfl
@[simp] theorem State.voidBuilder_bidx (s : State) : (s.voidBuilder).bidx = Config.freeByte (s.fresh + 1) := rfl
@[simp] theorem State.voidBuilder_obuf (s : State) : (s.voidBuilder).obuf = s.obuf := rfl
@[simp] theorem State.voidBuilder_olen (s : State) : (s.voidBuilder).olen = s.olen := rfl
@[simp] theorem State.voidBuilder_diag (s : State) : (s.voidBuilder).diag = s.diag := rfl
@[simp] theorem State.voidBuilder_ie (s : State) : (s.voidBuilder).ie = s.ie := rfl
@[simp] theorem State.voidBuilder_swin (s : State) : (s.voidBuilder).swin = s.swin := rfl
@[simp] theorem State.voidBuilder_portA (s : State) : (s.voidBuilder).portA = s.portA := rfl
@[simp] theorem State.voidBuilder_portS (s : State) : (s.voidBuilder).portS = s.portS := rfl
@[simp] theorem State.voidBuilder_rsp (s : State) : (s.voidBuilder).rsp = s.rsp := rfl
@[simp] theorem State.voidBuilder_streamA (s : State) : (s.voidBuilder).streamA = s.streamA := rfl
@[simp] theorem State.voidBuilder_streamS (s : State) : (s.voidBuilder).streamS = s.streamS := rfl
@[simp] theorem State.voidBuilder_turns (s : State) : (s.voidBuilder).turns = s.turns := rfl
@[simp] theorem State.voidBuilder_fresh (s : State) : (s.voidBuilder).fresh = s.fresh + 2 := rfl

/-! ### `voidFrame` -/

@[simp] theorem State.voidFrame_cfg (s : State) : (s.voidFrame).cfg = s.cfg := rfl
@[simp] theorem State.voidFrame_life (s : State) : (s.voidFrame).life = s.life := rfl
@[simp] theorem State.voidFrame_size (s : State) : (s.voidFrame).size = s.size := rfl
@[simp] theorem State.voidFrame_head (s : State) : (s.voidFrame).head = s.head := rfl
@[simp] theorem State.voidFrame_tail (s : State) : (s.voidFrame).tail = s.tail := rfl
@[simp] theorem State.voidFrame_count (s : State) : (s.voidFrame).count = s.count := rfl
@[simp] theorem State.voidFrame_highWatermark (s : State) : (s.voidFrame).highWatermark = s.highWatermark := rfl
@[simp] theorem State.voidFrame_lowWatermark (s : State) : (s.voidFrame).lowWatermark = s.lowWatermark := rfl
@[simp] theorem State.voidFrame_overwriteEnabled (s : State) : (s.voidFrame).overwriteEnabled = s.overwriteEnabled := rfl
@[simp] theorem State.voidFrame_store (s : State) : (s.voidFrame).store = s.store := rfl
@[simp] theorem State.voidFrame_fstate (s : State) : (s.voidFrame).fstate = s.fstate := rfl
@[simp] theorem State.voidFrame_flen (s : State) : (s.voidFrame).flen = Config.freeByte s.fresh := rfl
@[simp] theorem State.voidFrame_fidx (s : State) : (s.voidFrame).fidx = Config.freeByte (s.fresh + 1) := rfl
@[simp] theorem State.voidFrame_fxor (s : State) : (s.voidFrame).fxor = Config.freeByte (s.fresh + 2) := rfl
@[simp] theorem State.voidFrame_blen (s : State) : (s.voidFrame).blen = s.blen := rfl
@[simp] theorem State.voidFrame_bidx (s : State) : (s.voidFrame).bidx = s.bidx := rfl
@[simp] theorem State.voidFrame_obuf (s : State) : (s.voidFrame).obuf = s.obuf := rfl
@[simp] theorem State.voidFrame_olen (s : State) : (s.voidFrame).olen = s.olen := rfl
@[simp] theorem State.voidFrame_diag (s : State) : (s.voidFrame).diag = s.diag := rfl
@[simp] theorem State.voidFrame_ie (s : State) : (s.voidFrame).ie = s.ie := rfl
@[simp] theorem State.voidFrame_swin (s : State) : (s.voidFrame).swin = s.swin := rfl
@[simp] theorem State.voidFrame_portA (s : State) : (s.voidFrame).portA = s.portA := rfl
@[simp] theorem State.voidFrame_portS (s : State) : (s.voidFrame).portS = s.portS := rfl
@[simp] theorem State.voidFrame_rsp (s : State) : (s.voidFrame).rsp = s.rsp := rfl
@[simp] theorem State.voidFrame_streamA (s : State) : (s.voidFrame).streamA = s.streamA := rfl
@[simp] theorem State.voidFrame_streamS (s : State) : (s.voidFrame).streamS = s.streamS := rfl
@[simp] theorem State.voidFrame_turns (s : State) : (s.voidFrame).turns = s.turns := rfl
@[simp] theorem State.voidFrame_fresh (s : State) : (s.voidFrame).fresh = s.fresh + 3 := rfl

/-! ### `voidTransients` -/

@[simp] theorem State.voidTransients_cfg (s : State) : (s.voidTransients).cfg = s.cfg := rfl
@[simp] theorem State.voidTransients_life (s : State) : (s.voidTransients).life = s.life := rfl
@[simp] theorem State.voidTransients_size (s : State) : (s.voidTransients).size = s.size := rfl
@[simp] theorem State.voidTransients_head (s : State) : (s.voidTransients).head = s.head := rfl
@[simp] theorem State.voidTransients_tail (s : State) : (s.voidTransients).tail = s.tail := rfl
@[simp] theorem State.voidTransients_count (s : State) : (s.voidTransients).count = s.count := rfl
@[simp] theorem State.voidTransients_highWatermark (s : State) : (s.voidTransients).highWatermark = s.highWatermark := rfl
@[simp] theorem State.voidTransients_lowWatermark (s : State) : (s.voidTransients).lowWatermark = s.lowWatermark := rfl
@[simp] theorem State.voidTransients_overwriteEnabled (s : State) : (s.voidTransients).overwriteEnabled = s.overwriteEnabled := rfl
@[simp] theorem State.voidTransients_store (s : State) : (s.voidTransients).store = s.store := rfl
@[simp] theorem State.voidTransients_fstate (s : State) : (s.voidTransients).fstate = s.fstate := rfl
@[simp] theorem State.voidTransients_flen (s : State) : (s.voidTransients).flen = (if s.parserBusy then s.flen else Config.freeByte s.fresh) := rfl
@[simp] theorem State.voidTransients_fidx (s : State) : (s.voidTransients).fidx = (if s.parserBusy then s.fidx else Config.freeByte (s.fresh + 1)) := rfl
@[simp] theorem State.voidTransients_fxor (s : State) : (s.voidTransients).fxor = (if s.parserBusy then s.fxor else Config.freeByte (s.fresh + 2)) := rfl
@[simp] theorem State.voidTransients_blen (s : State) : (s.voidTransients).blen = (if s.builderBusy then s.blen else Config.freeByte (s.fresh + 3)) := rfl
@[simp] theorem State.voidTransients_bidx (s : State) : (s.voidTransients).bidx = (if s.builderBusy then s.bidx else Config.freeByte (s.fresh + 4)) := rfl
@[simp] theorem State.voidTransients_obuf (s : State) : (s.voidTransients).obuf = s.obuf := rfl
@[simp] theorem State.voidTransients_olen (s : State) : (s.voidTransients).olen = s.olen := rfl
@[simp] theorem State.voidTransients_diag (s : State) : (s.voidTransients).diag = s.diag := rfl
@[simp] theorem State.voidTransients_ie (s : State) : (s.voidTransients).ie = s.ie := rfl
@[simp] theorem State.voidTransients_swin (s : State) : (s.voidTransients).swin = s.swin := rfl
@[simp] theorem State.voidTransients_portA (s : State) : (s.voidTransients).portA = s.portA := rfl
@[simp] theorem State.voidTransients_portS (s : State) : (s.voidTransients).portS = s.portS := rfl
@[simp] theorem State.voidTransients_rsp (s : State) : (s.voidTransients).rsp = s.rsp := rfl
@[simp] theorem State.voidTransients_streamA (s : State) : (s.voidTransients).streamA = s.streamA := rfl
@[simp] theorem State.voidTransients_streamS (s : State) : (s.voidTransients).streamS = s.streamS := rfl
@[simp] theorem State.voidTransients_turns (s : State) : (s.voidTransients).turns = s.turns := rfl
@[simp] theorem State.voidTransients_fresh (s : State) : (s.voidTransients).fresh = s.fresh + 5 := rfl

/-! ### `voidParser` -/

@[simp] theorem State.voidParser_cfg (s : State) : (s.voidParser).cfg = s.cfg := rfl
@[simp] theorem State.voidParser_life (s : State) : (s.voidParser).life = s.life := rfl
@[simp] theorem State.voidParser_size (s : State) : (s.voidParser).size = s.size := rfl
@[simp] theorem State.voidParser_head (s : State) : (s.voidParser).head = s.head := rfl
@[simp] theorem State.voidParser_tail (s : State) : (s.voidParser).tail = s.tail := rfl
@[simp] theorem State.voidParser_count (s : State) : (s.voidParser).count = s.count := rfl
@[simp] theorem State.voidParser_highWatermark (s : State) : (s.voidParser).highWatermark = s.highWatermark := rfl
@[simp] theorem State.voidParser_lowWatermark (s : State) : (s.voidParser).lowWatermark = s.lowWatermark := rfl
@[simp] theorem State.voidParser_overwriteEnabled (s : State) : (s.voidParser).overwriteEnabled = s.overwriteEnabled := rfl
@[simp] theorem State.voidParser_store (s : State) : (s.voidParser).store = s.store := rfl
@[simp] theorem State.voidParser_fstate (s : State) : (s.voidParser).fstate = .idle := rfl
@[simp] theorem State.voidParser_flen (s : State) : (s.voidParser).flen = Config.freeByte s.fresh := rfl
@[simp] theorem State.voidParser_fidx (s : State) : (s.voidParser).fidx = Config.freeByte (s.fresh + 1) := rfl
@[simp] theorem State.voidParser_fxor (s : State) : (s.voidParser).fxor = Config.freeByte (s.fresh + 2) := rfl
@[simp] theorem State.voidParser_blen (s : State) : (s.voidParser).blen = s.blen := rfl
@[simp] theorem State.voidParser_bidx (s : State) : (s.voidParser).bidx = s.bidx := rfl
@[simp] theorem State.voidParser_obuf (s : State) : (s.voidParser).obuf = s.obuf := rfl
@[simp] theorem State.voidParser_olen (s : State) : (s.voidParser).olen = s.olen := rfl
@[simp] theorem State.voidParser_diag (s : State) : (s.voidParser).diag = s.diag := rfl
@[simp] theorem State.voidParser_ie (s : State) : (s.voidParser).ie = s.ie := rfl
@[simp] theorem State.voidParser_swin (s : State) : (s.voidParser).swin = s.swin := rfl
@[simp] theorem State.voidParser_portA (s : State) : (s.voidParser).portA = s.portA := rfl
@[simp] theorem State.voidParser_portS (s : State) : (s.voidParser).portS = s.portS := rfl
@[simp] theorem State.voidParser_rsp (s : State) : (s.voidParser).rsp = s.rsp := rfl
@[simp] theorem State.voidParser_streamA (s : State) : (s.voidParser).streamA = s.streamA := rfl
@[simp] theorem State.voidParser_streamS (s : State) : (s.voidParser).streamS = s.streamS := rfl
@[simp] theorem State.voidParser_turns (s : State) : (s.voidParser).turns = s.turns := rfl
@[simp] theorem State.voidParser_fresh (s : State) : (s.voidParser).fresh = s.fresh + 3 := rfl

/-! ### `initRing` -/

@[simp] theorem State.initRing_cfg (s : State) (l : Life) (n h w : Nat) : (s.initRing l n h w).cfg = s.cfg := rfl
@[simp] theorem State.initRing_life (s : State) (l : Life) (n h w : Nat) : (s.initRing l n h w).life = l := rfl
@[simp] theorem State.initRing_size (s : State) (l : Life) (n h w : Nat) : (s.initRing l n h w).size = n := rfl
@[simp] theorem State.initRing_head (s : State) (l : Life) (n h w : Nat) : (s.initRing l n h w).head = 0 := rfl
@[simp] theorem State.initRing_tail (s : State) (l : Life) (n h w : Nat) : (s.initRing l n h w).tail = 0 := rfl
@[simp] theorem State.initRing_count (s : State) (l : Life) (n h w : Nat) : (s.initRing l n h w).count = 0 := rfl
@[simp] theorem State.initRing_highWatermark (s : State) (l : Life) (n h w : Nat) : (s.initRing l n h w).highWatermark = h := rfl
@[simp] theorem State.initRing_lowWatermark (s : State) (l : Life) (n h w : Nat) : (s.initRing l n h w).lowWatermark = w := rfl
@[simp] theorem State.initRing_overwriteEnabled (s : State) (l : Life) (n h w : Nat) : (s.initRing l n h w).overwriteEnabled = false := rfl
@[simp] theorem State.initRing_store (s : State) (l : Life) (n h w : Nat) : (s.initRing l n h w).store = [] := rfl
@[simp] theorem State.initRing_fstate (s : State) (l : Life) (n h w : Nat) : (s.initRing l n h w).fstate = s.fstate := rfl
@[simp] theorem State.initRing_flen (s : State) (l : Life) (n h w : Nat) : (s.initRing l n h w).flen = (if s.parserBusy then s.flen else Config.freeByte s.fresh) := rfl
@[simp] theorem State.initRing_fidx (s : State) (l : Life) (n h w : Nat) : (s.initRing l n h w).fidx = (if s.parserBusy then s.fidx else Config.freeByte (s.fresh + 1)) := rfl
@[simp] theorem State.initRing_fxor (s : State) (l : Life) (n h w : Nat) : (s.initRing l n h w).fxor = (if s.parserBusy then s.fxor else Config.freeByte (s.fresh + 2)) := rfl
@[simp] theorem State.initRing_blen (s : State) (l : Life) (n h w : Nat) : (s.initRing l n h w).blen = (if s.builderBusy then s.blen else Config.freeByte (s.fresh + 3)) := rfl
@[simp] theorem State.initRing_bidx (s : State) (l : Life) (n h w : Nat) : (s.initRing l n h w).bidx = (if s.builderBusy then s.bidx else Config.freeByte (s.fresh + 4)) := rfl
@[simp] theorem State.initRing_obuf (s : State) (l : Life) (n h w : Nat) : (s.initRing l n h w).obuf = s.obuf := rfl
@[simp] theorem State.initRing_olen (s : State) (l : Life) (n h w : Nat) : (s.initRing l n h w).olen = s.olen := rfl
@[simp] theorem State.initRing_diag (s : State) (l : Life) (n h w : Nat) : (s.initRing l n h w).diag = s.diag := rfl
@[simp] theorem State.initRing_ie (s : State) (l : Life) (n h w : Nat) : (s.initRing l n h w).ie = s.ie := rfl
@[simp] theorem State.initRing_swin (s : State) (l : Life) (n h w : Nat) : (s.initRing l n h w).swin = s.swin := rfl
@[simp] theorem State.initRing_portA (s : State) (l : Life) (n h w : Nat) : (s.initRing l n h w).portA = s.portA := rfl
@[simp] theorem State.initRing_portS (s : State) (l : Life) (n h w : Nat) : (s.initRing l n h w).portS = s.portS := rfl
@[simp] theorem State.initRing_rsp (s : State) (l : Life) (n h w : Nat) : (s.initRing l n h w).rsp = s.rsp := rfl
@[simp] theorem State.initRing_streamA (s : State) (l : Life) (n h w : Nat) : (s.initRing l n h w).streamA = s.streamA := rfl
@[simp] theorem State.initRing_streamS (s : State) (l : Life) (n h w : Nat) : (s.initRing l n h w).streamS = s.streamS := rfl
@[simp] theorem State.initRing_turns (s : State) (l : Life) (n h w : Nat) : (s.initRing l n h w).turns = s.turns := rfl
@[simp] theorem State.initRing_fresh (s : State) (l : Life) (n h w : Nat) : (s.initRing l n h w).fresh = s.fresh + 5 := rfl

/-! ### `acceptSync` -/

@[simp] theorem State.acceptSync_cfg (s : State) (c : Command) : (s.acceptSync c).cfg = s.cfg := rfl
@[simp] theorem State.acceptSync_life (s : State) (c : Command) : (s.acceptSync c).life = s.life := rfl
@[simp] theorem State.acceptSync_size (s : State) (c : Command) : (s.acceptSync c).size = s.size := rfl
@[simp] theorem State.acceptSync_head (s : State) (c : Command) : (s.acceptSync c).head = s.head := rfl
@[simp] theorem State.acceptSync_tail (s : State) (c : Command) : (s.acceptSync c).tail = s.tail := rfl
@[simp] theorem State.acceptSync_count (s : State) (c : Command) : (s.acceptSync c).count = s.count := rfl
@[simp] theorem State.acceptSync_highWatermark (s : State) (c : Command) : (s.acceptSync c).highWatermark = s.highWatermark := rfl
@[simp] theorem State.acceptSync_lowWatermark (s : State) (c : Command) : (s.acceptSync c).lowWatermark = s.lowWatermark := rfl
@[simp] theorem State.acceptSync_overwriteEnabled (s : State) (c : Command) : (s.acceptSync c).overwriteEnabled = s.overwriteEnabled := rfl
@[simp] theorem State.acceptSync_store (s : State) (c : Command) : (s.acceptSync c).store = s.store := rfl
@[simp] theorem State.acceptSync_fstate (s : State) (c : Command) : (s.acceptSync c).fstate = s.fstate := rfl
@[simp] theorem State.acceptSync_flen (s : State) (c : Command) : (s.acceptSync c).flen = s.flen := rfl
@[simp] theorem State.acceptSync_fidx (s : State) (c : Command) : (s.acceptSync c).fidx = s.fidx := rfl
@[simp] theorem State.acceptSync_fxor (s : State) (c : Command) : (s.acceptSync c).fxor = s.fxor := rfl
@[simp] theorem State.acceptSync_blen (s : State) (c : Command) : (s.acceptSync c).blen = s.blen := rfl
@[simp] theorem State.acceptSync_bidx (s : State) (c : Command) : (s.acceptSync c).bidx = s.bidx := rfl
@[simp] theorem State.acceptSync_obuf (s : State) (c : Command) : (s.acceptSync c).obuf = s.obuf := rfl
@[simp] theorem State.acceptSync_olen (s : State) (c : Command) : (s.acceptSync c).olen = s.olen := rfl
@[simp] theorem State.acceptSync_diag (s : State) (c : Command) : (s.acceptSync c).diag = s.diag := rfl
@[simp] theorem State.acceptSync_ie (s : State) (c : Command) : (s.acceptSync c).ie = s.ie := rfl
@[simp] theorem State.acceptSync_swin (s : State) (c : Command) : (s.acceptSync c).swin = commandOpensWindow s.cfg c := rfl
@[simp] theorem State.acceptSync_portA (s : State) (c : Command) : (s.acceptSync c).portA = s.portA := rfl
@[simp] theorem State.acceptSync_portS (s : State) (c : Command) : (s.acceptSync c).portS = { phase := .accepted, cmd := c } := rfl
@[simp] theorem State.acceptSync_rsp (s : State) (c : Command) : (s.acceptSync c).rsp = s.rsp := rfl
@[simp] theorem State.acceptSync_streamA (s : State) (c : Command) : (s.acceptSync c).streamA = s.streamA := rfl
@[simp] theorem State.acceptSync_streamS (s : State) (c : Command) : (s.acceptSync c).streamS = s.streamS := rfl
@[simp] theorem State.acceptSync_turns (s : State) (c : Command) : (s.acceptSync c).turns = s.turns := rfl
@[simp] theorem State.acceptSync_fresh (s : State) (c : Command) : (s.acceptSync c).fresh = s.fresh := rfl

/-! ### `hardwareReset` -/

@[simp] theorem State.hardwareReset_cfg (s : State) : (s.hardwareReset).cfg = s.cfg := rfl
@[simp] theorem State.hardwareReset_life (s : State) : (s.hardwareReset).life = State.reset.life := rfl
@[simp] theorem State.hardwareReset_size (s : State) : (s.hardwareReset).size = State.reset.size := rfl
@[simp] theorem State.hardwareReset_head (s : State) : (s.hardwareReset).head = State.reset.head := rfl
@[simp] theorem State.hardwareReset_tail (s : State) : (s.hardwareReset).tail = State.reset.tail := rfl
@[simp] theorem State.hardwareReset_count (s : State) : (s.hardwareReset).count = State.reset.count := rfl
@[simp] theorem State.hardwareReset_highWatermark (s : State) : (s.hardwareReset).highWatermark = State.reset.highWatermark := rfl
@[simp] theorem State.hardwareReset_lowWatermark (s : State) : (s.hardwareReset).lowWatermark = State.reset.lowWatermark := rfl
@[simp] theorem State.hardwareReset_overwriteEnabled (s : State) : (s.hardwareReset).overwriteEnabled = State.reset.overwriteEnabled := rfl
@[simp] theorem State.hardwareReset_store (s : State) : (s.hardwareReset).store = State.reset.store := rfl
@[simp] theorem State.hardwareReset_fstate (s : State) : (s.hardwareReset).fstate = State.reset.fstate := rfl
@[simp] theorem State.hardwareReset_flen (s : State) : (s.hardwareReset).flen = State.reset.flen := rfl
@[simp] theorem State.hardwareReset_fidx (s : State) : (s.hardwareReset).fidx = State.reset.fidx := rfl
@[simp] theorem State.hardwareReset_fxor (s : State) : (s.hardwareReset).fxor = State.reset.fxor := rfl
@[simp] theorem State.hardwareReset_blen (s : State) : (s.hardwareReset).blen = State.reset.blen := rfl
@[simp] theorem State.hardwareReset_bidx (s : State) : (s.hardwareReset).bidx = State.reset.bidx := rfl
@[simp] theorem State.hardwareReset_obuf (s : State) : (s.hardwareReset).obuf = State.reset.obuf := rfl
@[simp] theorem State.hardwareReset_olen (s : State) : (s.hardwareReset).olen = State.reset.olen := rfl
@[simp] theorem State.hardwareReset_diag (s : State) : (s.hardwareReset).diag = State.reset.diag := rfl
@[simp] theorem State.hardwareReset_ie (s : State) : (s.hardwareReset).ie = s.ie := rfl
@[simp] theorem State.hardwareReset_swin (s : State) : (s.hardwareReset).swin = State.reset.swin := rfl
@[simp] theorem State.hardwareReset_portA (s : State) : (s.hardwareReset).portA = State.reset.portA := rfl
@[simp] theorem State.hardwareReset_portS (s : State) : (s.hardwareReset).portS = State.reset.portS := rfl
@[simp] theorem State.hardwareReset_rsp (s : State) : (s.hardwareReset).rsp = State.reset.rsp := rfl
@[simp] theorem State.hardwareReset_streamA (s : State) : (s.hardwareReset).streamA = s.streamA := rfl
@[simp] theorem State.hardwareReset_streamS (s : State) : (s.hardwareReset).streamS = s.streamS := rfl
@[simp] theorem State.hardwareReset_turns (s : State) : (s.hardwareReset).turns = s.turns := rfl
@[simp] theorem State.hardwareReset_fresh (s : State) : (s.hardwareReset).fresh = s.fresh := rfl

/-! ### Compound updates -/

@[simp] theorem State.failWith_eq (s : State) (e : Status) : s.failWith e = s.answer e 0 := rfl

@[simp] theorem State.endBuild_eq (s : State) (e : Status) : s.endBuild e = s.voidBuilder.answer e 0 := rfl

@[simp] theorem State.endParse_eq (s : State) (e : Status) :
    s.endParse e = { s with fstate := .failed }.voidParser.answer e 0 := rfl

@[simp] theorem State.parseOn_eq (s : State) (f : FState) :
    s.parseOn f = { s with fstate := f }.pause .parsing := rfl

/-! ### The agent that moves -/

theorem State.active_eq_sync {s : State} : s.active = .sync ↔ s.portA.phase = .free := by
  unfold State.active; split <;> simp [*]

theorem State.active_eq_async {s : State} : s.active = .async ↔ s.portA.phase ≠ .free := by
  unfold State.active; split <;> simp [*]

/-- Two states with the same port of `A` have the same agent moving. -/
theorem State.active_congr {s t : State} (h : t.portA = s.portA) : t.active = s.active := by
  simp [State.active, h]

@[simp] theorem State.voidRing_active (s : State) : s.voidRing.active = s.active := rfl

@[simp] theorem State.voidBuilder_active (s : State) : s.voidBuilder.active = s.active := rfl

@[simp] theorem State.voidParser_active (s : State) : s.voidParser.active = s.active := rfl

@[simp] theorem State.voidFrame_active (s : State) : s.voidFrame.active = s.active := rfl

@[simp] theorem State.voidTransients_active (s : State) : s.voidTransients.active = s.active := rfl

@[simp] theorem State.initRing_active (s : State) (l : Life) (n h w : Nat) :
    (s.initRing l n h w).active = s.active := rfl

end Sys2Proof.Machine
end

