-- ==== Sys2Proof/Laws/Ring.lean ====
section
/-! SUPPORT. What the ring primitives can answer, and what they do to the indices, to the invariant of the ring and to
its logical contents. -/

namespace Sys2Proof.Machine

/-! ## Arithmetic -/

/-- `inc` as 00_scope R6 writes it. -/
theorem inc_eq (n x : Nat) : inc n x = (x + 1) % n := rfl

theorem inc_lt {n : Nat} (x : Nat) (h : 0 < n) : inc n x < n := Nat.mod_lt _ h

theorem full_iff (s : State) : s.full = true ↔ s.count = s.size := by simp [State.full]

theorem empty_iff (s : State) : s.empty = true ↔ s.count = 0 := by simp [State.empty]

theorem physicalIndex_lt (s : State) (i : Nat) (h : 0 < s.size) : s.physicalIndex i < s.size :=
  Nat.mod_lt _ h

/-- The index congruence of 10_state R30 (c) in the form the pushes use: `head` is logical position `count`. -/
theorem head_iff_physicalIndex {n h t c : Nat} (hh : h < n) (ht : t < n) (_hc : c ≤ n) :
    ((h : Int) - (t : Int)) % (n : Int) = (c : Int) % (n : Int) ↔ (t + c) % n = h := by
  have hn : (0 : Int) < (n : Int) := by omega
  constructor
  · intro e
    have e2 : ((h : Int) - t - c) % (n : Int) = 0 := by
      rw [Int.sub_emod, e, Int.sub_self]; simp
    obtain ⟨k, hk⟩ := Int.dvd_of_emod_eq_zero e2
    have : ((t : Int) + c) % n = h := by
      have h3 : (t : Int) + c = h + n * (-k) := by linarith [hk]
      rw [h3, Int.add_mul_emod_self_left]
      exact Int.emod_eq_of_lt (by omega) (by omega)
    exact_mod_cast this
  · intro e
    have e2 : ((t : Int) + c) % (n : Int) = h := by exact_mod_cast e
    rw [← e2, Int.sub_emod, Int.emod_emod_of_dvd _ (dvd_refl _), ← Int.sub_emod]
    congr 1; ring

/-- Under the ring's invariant the next write slot is logical position `count`. -/
theorem head_eq_physicalIndex {s : State} (h : s.RingOk) (hn : 0 < s.size) :
    s.physicalIndex s.count = s.head := by
  obtain ⟨hc, hi, -⟩ := h
  obtain ⟨hh, ht, e⟩ := hi hn
  exact (head_iff_physicalIndex hh ht hc).mp e

/-- Moving the window of positions by one. -/
theorem mod_succ_add (t i n : Nat) : ((t + 1) % n + i) % n = (t + (i + 1)) % n := by
  rw [Nat.mod_add_mod]; congr 1; omega

/-- Two positions below the size that meet at one physical index are the same. -/
theorem physicalIndex_inj {t n i j : Nat} (hi : i < n) (hj : j < n) (h : (t + i) % n = (t + j) % n) : i = j := by
  have := (Nat.ModEq.add_left_cancel' t (show Nat.ModEq n (t + i) (t + j) from h))
  rwa [Nat.ModEq, Nat.mod_eq_of_lt hi, Nat.mod_eq_of_lt hj] at this

/-! ## What the primitives answer -/

theorem storeRead_of_read {s : State} {i : Nat} {b : Byte} (hi : i < s.size) (h : s.store.read i = some b) :
    storeRead i s = .done b s := by simp [storeRead, hi, h]

/-- `storeRead`: the byte with nothing written, or one of the two faults. -/
theorem storeRead_cases (i : Nat) (s : State) :
    (∃ b, i < s.size ∧ s.store.read i = some b ∧ storeRead i s = .done b s) ∨
    (i < s.size ∧ s.store.read i = none ∧ storeRead i s = .fault .unwrittenEntry) ∨
    (s.size ≤ i ∧ storeRead i s = .fault .indexOutsideStore) := by
  unfold storeRead
  split
  · next h => cases hr : s.store.read i <;> simp [h]
  · next h => exact .inr (.inr ⟨by omega, rfl⟩)

/-- The state after a push onto a ring that is not full (41 R111). -/
def State.pushed (s : State) (b : Byte) : State :=
  { s with store := s.store.write s.head b, head := inc s.size s.head, count := s.count + 1 }

/-- The state after a push that discards the oldest byte (41 R111). -/
def State.overwritten (s : State) (b : Byte) : State :=
  { s with
    tail := inc s.size s.tail
    store := s.store.write s.head b
    head := inc s.size s.head }

/-- The state after a pop (41 R113). -/
def State.popped (s : State) : State := { s with tail := inc s.size s.tail, count := s.count - 1 }

/-- `ringPush`: everything it can answer. -/
theorem ringPush_cases (o : Bool) (b : Byte) (s : State) :
    (s.count ≠ s.size ∧ s.head < s.size ∧ ringPush o b s = .done () (s.pushed b)) ∨
    (s.count = s.size ∧ o = true ∧ s.size ≠ 0 ∧ s.head < s.size ∧
      ringPush o b s = .done () (s.overwritten b)) ∨
    (s.count = s.size ∧ o = false ∧ ringPush o b s = .fail .full) ∨
    (s.count = s.size ∧ o = true ∧ s.size = 0 ∧ ringPush o b s = .refused .zeroSize) ∨
    (s.size ≤ s.head ∧ ringPush o b s = .fault .indexOutsideStore) := by
  by_cases hf : s.count = s.size
  · have hfull : s.full = true := (full_iff s).mpr hf
    cases o
    · exact .inr (.inr (.inl ⟨hf, rfl, by simp [ringPush, hfull]⟩))
    · by_cases h0 : s.size = 0
      · exact .inr (.inr (.inr (.inl ⟨hf, rfl, h0, by simp only [ringPush, hfull, if_pos, h0]⟩)))
      · by_cases hh : s.head < s.size
        · refine .inr (.inl ⟨hf, rfl, h0, hh, ?_⟩)
          simp only [ringPush, hfull, if_true, if_neg h0, storeWrite, if_pos hh, Prim.andThen, State.overwritten]
        · refine .inr (.inr (.inr (.inr ⟨by omega, ?_⟩)))
          simp only [ringPush, hfull, if_true, if_neg h0, storeWrite, if_neg hh, Prim.andThen]
  · have hfull : s.full = false := by
      cases h : s.full
      · rfl
      · exact absurd ((full_iff s).mp h) hf
    by_cases hh : s.head < s.size
    · refine .inl ⟨hf, hh, ?_⟩
      simp [ringPush, hfull, storeWrite, hh, Prim.andThen, State.pushed]
    · refine .inr (.inr (.inr (.inr ⟨by omega, ?_⟩)))
      simp [ringPush, hfull, storeWrite, hh, Prim.andThen]

/-- `ringPop`: everything it can answer. -/
theorem ringPop_cases (s : State) :
    (s.count = 0 ∧ ringPop s = .fail .empty) ∨
    (∃ b, s.count ≠ 0 ∧ s.tail < s.size ∧ s.store.read s.tail = some b ∧
      ringPop s = .done b s.popped) ∨
    (s.count ≠ 0 ∧ s.tail < s.size ∧ s.store.read s.tail = none ∧
      ringPop s = .fault .unwrittenEntry) ∨
    (s.count ≠ 0 ∧ s.size ≤ s.tail ∧ ringPop s = .fault .indexOutsideStore) := by
  by_cases he : s.count = 0
  · exact .inl ⟨he, by simp [ringPop, (empty_iff s).mpr he]⟩
  · have hf : s.empty = false := by
      cases h : s.empty
      · rfl
      · exact absurd ((empty_iff s).mp h) he
    rcases storeRead_cases s.tail s with ⟨b, h1, h2, h3⟩ | ⟨h1, h2, h3⟩ | ⟨h1, h3⟩
    · exact .inr (.inl ⟨b, he, h1, h2, by simp [ringPop, hf, h3, Prim.andThen, State.popped]⟩)
    · exact .inr (.inr (.inl ⟨he, h1, h2, by simp [ringPop, hf, h3, Prim.andThen]⟩))
    · exact .inr (.inr (.inr ⟨he, h1, by simp [ringPop, hf, h3, Prim.andThen]⟩))

/-- `ringPeek`: everything it can answer. -/
theorem ringPeek_cases (i : Nat) (s : State) :
    (s.count ≤ i ∧ ringPeek i s = .fail .outOfRange) ∨
    (∃ b, i < s.count ∧ s.store.read (s.physicalIndex i) = some b ∧ ringPeek i s = .done b s) ∨
    (i < s.count ∧ s.store.read (s.physicalIndex i) = none ∧
      ringPeek i s = .fault .unwrittenEntry) ∨
    (i < s.count ∧ s.size ≤ s.physicalIndex i ∧
      ringPeek i s = .fault .indexOutsideStore) := by
  by_cases h : s.count ≤ i
  · exact .inl ⟨by simpa [BitVec.le_def] using h, by simp [ringPeek, h]⟩
  · have hlt : i < s.count := by simpa [BitVec.le_def] using h
    rcases storeRead_cases (s.physicalIndex i) s with ⟨b, h1, h2, h3⟩ | ⟨h1, h2, h3⟩ | ⟨h1, h3⟩
    · exact .inr (.inl ⟨b, hlt, h2, by simp [ringPeek, h, h3]⟩)
    · exact .inr (.inr (.inl ⟨hlt, h2, by simp [ringPeek, h, h3]⟩))
    · exact .inr (.inr (.inr ⟨hlt, h1, by simp [ringPeek, h, h3]⟩))

/-! ## Under the ring's invariant -/

/-- A pop of a ring that is not empty finds the oldest byte. -/
theorem ringPop_of_ringOk {s : State} (h : s.RingOk) (hc : s.count ≠ 0) :
    ∃ b, s.store.read s.tail = some b ∧ s.contents.head? = some (some b) ∧ ringPop s = .done b s.popped := by
  have hn : 0 < s.size := by have := h.1; omega
  obtain ⟨-, ht, -⟩ := h.2.1 hn
  have hp : s.physicalIndex 0 = s.tail := by simp [State.physicalIndex, Nat.mod_eq_of_lt ht]
  have hs := h.2.2.2.1 0 (by omega)
  rw [hp] at hs
  obtain ⟨b, hb⟩ := Option.isSome_iff_exists.mp hs
  refine ⟨b, hb, ?_, ?_⟩
  · obtain ⟨k, hk⟩ := Nat.exists_eq_succ_of_ne_zero hc
    simp [State.contents, hk, List.range_succ_eq_map, hp, hb]
  · rcases ringPop_cases s with h1 | ⟨b', -, -, h2, h3⟩ | ⟨-, -, h2, -⟩ | ⟨-, h2, -⟩
    · exact absurd h1.1 hc
    · rw [hb] at h2; cases h2; exact h3
    · simp [hb] at h2
    · omega

/-- A push onto a ring that is not full goes through. -/
theorem ringPush_of_room {s : State} (h : s.RingOk) (hc : s.count < s.size) (o : Bool) (b : Byte) :
    ringPush o b s = .done () (s.pushed b) := by
  have hh := (h.2.1 (by omega)).1
  rcases ringPush_cases o b s with ⟨-, -, h1⟩ | ⟨h1, -⟩ | ⟨h1, -⟩ | ⟨h1, -⟩ | ⟨h1, -⟩
  · exact h1
  all_goals first | (rw [h1] at hc; omega) | omega

theorem ringOk_popped {s : State} (h : s.RingOk) (hc : s.count ≠ 0) : s.popped.RingOk := by
  have hn : 0 < s.size := by have := h.1; omega
  obtain ⟨hh, ht, e⟩ := h.2.1 hn
  have hp := head_eq_physicalIndex h hn
  have ht' := inc_eq s.size s.tail
  have htl := inc_lt s.tail hn
  refine ⟨?_, ?_, ?_, ?_, h.2.2.2.2⟩
  · have := h.1; simp only [State.popped]; omega
  · intro _
    refine ⟨hh, htl, ?_⟩
    refine (head_iff_physicalIndex hh htl ?_).mpr ?_
    · have := h.1; simp only [State.popped]; omega
    · simp only [State.popped, ht', mod_succ_add]
      rw [show s.count - 1 + 1 = s.count by omega]
      exact hp
  · intro h0; simp only [State.popped] at h0; omega
  · intro i hi
    simp only [State.popped] at hi
    have := h.2.2.2.1 (i + 1) (by omega)
    simpa only [State.popped, State.physicalIndex, ht', mod_succ_add] using this

theorem contents_popped {s : State} (hc : s.count ≠ 0) :
    s.popped.contents = s.contents.tail := by
  obtain ⟨k, hk⟩ := Nat.exists_eq_succ_of_ne_zero hc
  have hc' : s.popped.count = k := by
    simp only [State.popped]; omega
  unfold State.contents
  rw [hc', hk, Nat.succ_eq_add_one, List.range_succ_eq_map, List.map_cons, List.tail_cons, List.map_map]
  refine List.map_congr_left fun i _ => ?_
  simp [State.popped, State.physicalIndex, inc_eq s.size s.tail]
  congr 2; omega

theorem ringOk_pushed {s : State} (h : s.RingOk) (hc : s.count < s.size) (b : Byte) :
    (s.pushed b).RingOk := by
  have hn : 0 < s.size := by omega
  obtain ⟨hh, ht, e⟩ := h.2.1 hn
  have hp := head_eq_physicalIndex h hn
  have hh' := inc_eq s.size s.head
  have hhl := inc_lt s.head hn
  refine ⟨?_, ?_, ?_, ?_, h.2.2.2.2⟩
  · simp only [State.pushed]; omega
  · intro _
    refine ⟨hhl, ht, ?_⟩
    refine (head_iff_physicalIndex hhl ht ?_).mpr ?_
    · simp only [State.pushed]; omega
    · simp only [State.pushed, ← hp, inc_eq, State.physicalIndex]
      rw [Nat.mod_add_mod]; congr 1
  · intro h0; simp only [State.pushed] at h0; omega
  · intro i hi
    simp only [State.pushed] at hi
    simp only [State.pushed, State.physicalIndex, memory_read_write]
    split
    · rfl
    · next hne =>
      refine h.2.2.2.1 i ?_
      by_contra hge
      have : i = s.count := by omega
      rw [this] at hne
      exact hne hp

theorem contents_pushed {s : State} (h : s.RingOk) (hc : s.count < s.size) (b : Byte) :
    (s.pushed b).contents = s.contents ++ [some b] := by
  have hn : 0 < s.size := by omega
  have hp := head_eq_physicalIndex h hn
  have hc' : (s.pushed b).count = s.count + 1 := rfl
  unfold State.contents
  rw [hc', List.range_succ, List.map_append]
  congr 1
  · refine List.map_congr_left fun i hi => ?_
    have hi' := List.mem_range.mp hi
    simp only [State.pushed, State.physicalIndex] at hp ⊢
    refine memory_read_write_of_ne _ _ ?_
    rw [← hp]
    intro heq
    have := physicalIndex_inj (by omega) (by omega) heq
    omega
  · simp only [List.map_cons, List.map_nil, State.pushed, State.physicalIndex] at hp ⊢
    rw [hp]; simp

theorem ringOk_overwritten {s : State} (h : s.RingOk) (hf : s.count = s.size) (hn : 0 < s.size)
    (b : Byte) : (s.overwritten b).RingOk := by
  obtain ⟨hh, ht, e⟩ := h.2.1 hn
  have hp := head_eq_physicalIndex h hn
  have hh' := inc_eq s.size s.head
  have hhl := inc_lt s.head hn
  have ht' := inc_eq s.size s.tail
  have htl := inc_lt s.tail hn
  refine ⟨?_, ?_, ?_, ?_, h.2.2.2.2⟩
  · simp only [State.overwritten]; omega
  · intro _
    refine ⟨hhl, htl, ?_⟩
    refine (head_iff_physicalIndex hhl htl ?_).mpr ?_
    · simp only [State.overwritten]; omega
    · simp only [State.overwritten, ht', ← hp, inc_eq, State.physicalIndex, Nat.mod_add_mod]
      congr 1; omega
  · intro h0; simp only [State.overwritten] at h0; omega
  · intro i hi
    simp only [State.overwritten] at hi
    simp only [State.overwritten, State.physicalIndex, memory_read_write, ht', mod_succ_add]
    split
    · rfl
    · next hne =>
      refine h.2.2.2.1 (i + 1) ?_
      by_contra hge
      have hi1 : i + 1 = s.count := by omega
      rw [hi1] at hne
      exact hne hp

theorem contents_overwritten {s : State} (h : s.RingOk) (hf : s.count = s.size)
    (hn : 0 < s.size) (b : Byte) : (s.overwritten b).contents = s.contents.tail ++ [some b] := by
  have hp := head_eq_physicalIndex h hn
  have ht' := inc_eq s.size s.tail
  obtain ⟨k, hk⟩ := Nat.exists_eq_succ_of_ne_zero (show s.count ≠ 0 by omega)
  have hko : (s.overwritten b).count = k + 1 := hk
  have e1 : s.contents.tail = (List.range k).map fun i => s.store.read (s.physicalIndex (i + 1)) := by
    unfold State.contents
    rw [hk, Nat.succ_eq_add_one, List.range_succ_eq_map, List.map_cons, List.tail_cons, List.map_map]
    rfl
  rw [e1]
  unfold State.contents
  rw [hko, List.range_succ, List.map_append]
  congr 1
  · refine List.map_congr_left fun i hi => ?_
    have hi' := List.mem_range.mp hi
    simp only [State.overwritten, State.physicalIndex, ht', mod_succ_add] at hp ⊢
    refine memory_read_write_of_ne _ _ ?_
    rw [← hp]
    intro heq
    rw [hf, Nat.add_mod_right] at heq
    have := physicalIndex_inj (j := 0) (show i + 1 < s.size by omega) hn (by simpa using heq)
    omega
  · simp only [List.map_cons, List.map_nil, State.overwritten, State.physicalIndex, ht', mod_succ_add] at hp ⊢
    rw [← hk.trans (Nat.succ_eq_add_one k), hp]; simp

/-- The length of the logical contents is `count`. -/
@[simp] theorem contents_length (s : State) : s.contents.length = s.count := by simp [State.contents]

theorem contents_get (s : State) {i : Nat} (h : i < s.count) :
    s.contents[i]? = some (s.store.read (s.physicalIndex i)) := by
  simp [State.contents, h]

/-- The logical contents depend on these four fields alone. -/
theorem contents_congr {s t : State} (h1 : t.count = s.count) (h2 : t.tail = s.tail) (h3 : t.size = s.size)
    (h4 : ∀ a, t.store.read a = s.store.read a) : t.contents = s.contents := by
  simp [State.contents, State.physicalIndex, h1, h2, h3, h4]

/-- Under the ring's invariant every stored byte has a value. -/
theorem contents_eq_map_some {s : State} (h : s.RingOk) : ∃ q : List Byte, s.contents = q.map some := by
  refine ⟨(List.range s.count).map fun i => (s.store.read (s.physicalIndex i)).getD 0, ?_⟩
  rw [List.map_map]
  refine List.map_congr_left fun i hi => ?_
  have := h.2.2.2.1 i (List.mem_range.mp hi)
  obtain ⟨b, hb⟩ := Option.isSome_iff_exists.mp this
  simp [hb]

/-! ## The inits, and the byte spaces -/

theorem staticHigh_le (n : Nat) : staticHigh n ≤ n := by simp only [staticHigh]; omega

theorem staticLow_le (n : Nat) : staticLow n ≤ n := by simp only [staticLow]; omega

/-- A ring just initialised meets the ring's invariant when its thresholds and its size are in range. -/
theorem ringOk_initRing {s : State} {l : Life} {n hi lo : Nat} (hn : n ≤ s.cfg.storeBytes)
    (h1 : hi ≤ n) (h2 : lo ≤ n) : (s.initRing l n hi lo).RingOk := by
  refine ⟨by simp, ?_, fun _ => ⟨rfl, rfl⟩, ?_, h1, h2, hn⟩
  · exact fun h => ⟨h, h, by simp⟩
  · intro i hi; simp at hi

/-- A push keeps the byte spaces canonical and inside their extents. -/
theorem spacesOk_pushed {s : State} {b : Byte} (h : s.SpacesOk) (hl : s.Live) (hh : s.head < s.size) :
    (s.pushed b).SpacesOk := by
  obtain ⟨h1, h2, h3, h4, h5, h6, -⟩ := h
  exact ⟨memory_write_wf _ _ _ h1, h2, h3, h4, h5, fun _ => memory_write_within _ _ hh (h6 hl), fun h => absurd h hl⟩

/-- So does a push that discards the oldest byte. -/
theorem spacesOk_overwritten {s : State} {b : Byte} (h : s.SpacesOk) (hl : s.Live)
    (hh : s.head < s.size) : (s.overwritten b).SpacesOk := spacesOk_pushed h hl hh

/-- The byte spaces after reset are in canonical form. -/
theorem reset_spaces_wf : State.reset.store.wf = true ∧ State.reset.obuf.wf = true ∧ State.reset.diag.wf = true :=
  ⟨rfl, rfl, rfl⟩

end Sys2Proof.Machine
end

