-- ==== Sys2Proof/Laws/Exec.lean ====
section
/-! SUPPORT. What each operation's first micro-step, and each later micro-step of the framer, can do: said once, with
its guards, for the proofs that follow. -/

namespace Sys2Proof.Machine

/-! ## The snapshot -/

/-- A snapshot that goes through writes DIAG alone. -/
theorem snapshot_done_eq {n : Nat} {s t : State} (h : snapshot n s = .done () t) :
    ∃ d, t = { s with diag := d } := by
  induction n generalizing t with
  | zero => simp only [snapshot, Prim.done.injEq, true_and] at h; exact ⟨s.diag, by rw [← h]⟩
  | succ n ih =>
    simp only [snapshot, snapshotByte] at h
    cases hs : snapshot n s with
    | done v u =>
      obtain ⟨d, hd⟩ := ih hs
      rw [hs] at h
      simp only [Prim.andThen] at h
      rcases storeRead_cases (u.physicalIndex n) u with ⟨b, -, -, hr⟩ | ⟨-, -, hr⟩ | ⟨-, hr⟩
      · rw [hr] at h; simp only [Prim.done.injEq, true_and] at h
        exact ⟨u.diag.write n b, by rw [← h, hd]⟩
      · rw [hr] at h; simp at h
      · rw [hr] at h; simp at h
    | fail e => rw [hs] at h; simp [Prim.andThen] at h
    | fault r => rw [hs] at h; simp [Prim.andThen] at h
    | refused r => rw [hs] at h; simp [Prim.andThen] at h

/-- A snapshot never fails and is never refused. -/
theorem snapshot_cases (n : Nat) (s : State) :
    (∃ t, snapshot n s = .done () t) ∨ (∃ r, snapshot n s = .fault r) := by
  induction n with
  | zero => exact .inl ⟨s, rfl⟩
  | succ n ih =>
    rcases ih with ⟨t, ht⟩ | ⟨r, hr⟩
    · rcases storeRead_cases (t.physicalIndex n) t with ⟨b, -, -, hr⟩ | ⟨-, -, hr⟩ | ⟨-, hr⟩
      · exact .inl ⟨{ t with diag := t.diag.write n b }, by simp [snapshot, snapshotByte, ht, Prim.andThen, hr]⟩
      · exact .inr ⟨.unwrittenEntry, by simp [snapshot, snapshotByte, ht, Prim.andThen, hr]⟩
      · exact .inr ⟨.indexOutsideStore, by simp [snapshot, snapshotByte, ht, Prim.andThen, hr]⟩
    · exact .inr ⟨r, by simp [snapshot, hr, Prim.andThen]⟩

/-- A snapshot of valid positions: DIAG below `n` reads the ring, above it as before, and the space stays canonical and
inside its extent. -/
theorem snapshot_of_ringOk {s : State} (h : s.RingOk) {n : Nat} (hn : n ≤ s.count) :
    ∃ d, snapshot n s = .done () { s with diag := d } ∧
      (∀ i, i < n → d.read i = s.store.read (s.physicalIndex i)) ∧
      (∀ i, n ≤ i → d.read i = s.diag.read i) ∧
      (s.diag.wf = true → d.wf = true) ∧
      (∀ bound, n ≤ bound → s.diag.within bound = true → d.within bound = true) := by
  induction n with
  | zero => exact ⟨s.diag, rfl, by simp, by simp, id, fun _ _ => id⟩
  | succ n ih =>
    obtain ⟨d, h1, h2, h3, h4, h5⟩ := ih (by omega)
    have hp : 0 < s.size := by have := h.1; omega
    obtain ⟨b, hb⟩ := Option.isSome_iff_exists.mp (h.2.2.2.1 n (by omega))
    have hr : storeRead (s.physicalIndex n) { s with diag := d } = .done b { s with diag := d } :=
      storeRead_of_read (physicalIndex_lt s n hp) hb
    refine ⟨d.write n b, ?_, ?_, ?_, fun hw => memory_write_wf d n b (h4 hw), fun bound hle hw => ?_⟩
    · simp only [snapshot, snapshotByte, h1, Prim.andThen]
      change (storeRead (s.physicalIndex n) { s with diag := d }).andThen _ = _
      rw [hr]; rfl
    · intro i hi
      rw [memory_read_write]
      split
      · next hin => rw [hin, hb]
      · exact h2 i (by omega)
    · intro i hi
      rw [memory_read_write_of_ne _ _ (by omega : i ≠ n)]
      exact h3 i (by omega)
    · exact memory_write_within d b (by omega) (h5 bound (by omega) hw)

/-! ## The operations -/

/-- What an operation's first micro-step does when it gives a next state. -/
inductive ExecEffect : Instr → State → State → Prop where
  | initStatic {n : Nat} {s : State} (hl : s.life ≠ .dynamic) (hn : n ≤ s.cfg.storeBytes) :
      ExecEffect (.initStatic n) s ((s.initRing .static n (staticHigh n) (staticLow n)).answer .ok 0)
  | initDynamic {n : Nat} {s : State} (hl : s.life ≠ .dynamic) (h0 : n ≠ 0) (hn : n ≤ s.cfg.storeBytes) :
      ExecEffect (.initDynamic n) s ((s.initRing .dynamic n (n - 1) 1).answer .ok 0)
  | initFailed {n : Nat} {s : State} : ExecEffect (.initDynamic n) s (s.voidRing.answer .allocationError 0)
  | teardown {s : State} (hl : s.life = .dynamic) : ExecEffect .teardown s (s.voidRing.answer .ok 0)
  | teardownAgain {s : State} (hl : s.life = .uninit) : ExecEffect .teardown s (s.answer .ok 0)
  | reset {s : State} (hl : s.Live) :
      ExecEffect .reset s ({ s with head := 0, tail := 0, count := 0 }.answer .ok 0)
  | pushed {i : Instr} {b : Byte} {s : State} (hi : i = .push b ∨ i = .pushOvw b ∨ i = .pushSafe b) (hl : s.Live)
      (hc : s.count ≠ s.size) (hh : s.head < s.size) :
      ExecEffect i s ((s.pushed b).answer .ok 0)
  | overwritten {i : Instr} {b : Byte} {s : State} (hi : i = .push b ∨ i = .pushOvw b ∨ i = .pushSafe b) (hl : s.Live)
      (hc : s.count = s.size) (h0 : s.size ≠ 0) (hh : s.head < s.size) :
      ExecEffect i s ((s.overwritten b).answer .ok 0)
  | full {i : Instr} {b : Byte} {s : State} (hi : i = .push b ∨ i = .pushSafe b) (hl : s.Live)
      (hc : s.count = s.size) : ExecEffect i s (s.answer .full 0)
  | popped {i : Instr} {b : Byte} {s : State} (hi : i = .pop ∨ i = .popSafe) (hl : s.Live) (hc : s.count ≠ 0)
      (hb : s.store.read s.tail = some b) : ExecEffect i s (s.popped.answer .ok (zextByte b))
  | empty {i : Instr} {s : State} (hi : i = .pop ∨ i = .popSafe) (hl : s.Live) (hc : s.count = 0) :
      ExecEffect i s (s.answer .empty 0)
  | peeked {n : Nat} {b : Byte} {s : State} (hl : s.Live) : ExecEffect (.peek n) s (s.answer .ok (zextByte b))
  | peekOut {n : Nat} {s : State} (hl : s.Live) : ExecEffect (.peek n) s (s.answer .outOfRange 0)
  | isEmpty {s : State} (hl : s.Live) : ExecEffect .isEmpty s (s.answer .ok (boolCode s.empty))
  | isFull {s : State} (hl : s.Live) : ExecEffect .isFull s (s.answer .ok (boolCode s.full))
  | setOverwrite {e : Bool} {s : State} (hl : s.Live) :
      ExecEffect (.setOverwrite e) s ({ s with overwriteEnabled := e }.answer .ok 0)
  | setHigh {v : Nat} {s : State} (hl : s.Live) (hv : v ≤ s.size) :
      ExecEffect (.setHighWm v) s ({ s with highWatermark := v }.answer .ok 0)
  | setLow {v : Nat} {s : State} (hl : s.Live) (hv : v ≤ s.size) :
      ExecEffect (.setLowWm v) s ({ s with lowWatermark := v }.answer .ok 0)
  | thresholdOut {i : Instr} {v : Nat} {s : State} (hi : i = .setHighWm v ∨ i = .setLowWm v) (hl : s.Live) :
      ExecEffect i s (s.answer .outOfRange 0)
  | checkWm {s : State} (hl : s.Live) : ExecEffect .checkWm s (s.answer .ok s.wm.code)
  | dump {s : State} {d : Memory} (hl : s.Live) (hd : snapshot s.count s = .done () { s with diag := d }) :
      ExecEffect .dump s ({ s with diag := d }.answer .ok s.count)
  | addRefused {n : Byte} {e : Status} {s : State} (hl : s.Live) (hb : s.builderBusy = false)
      (he : e = .invalidLength ∨ e = .insufficientSpace) :
      ExecEffect (.addMessage n) s ({ s with blen := n }.voidBuilder.answer e 0)
  | addBegun {n : Byte} {s : State} (hl : s.Live) (hb : s.builderBusy = false) (hn : 3 ≤ n.toNat)
      (hr : (n.toNat : Int) ≤ (s.size : Int) - (s.count : Int)) :
      ExecEffect (.addMessage n) s ({ s with blen := n, bidx := 0 }.pause .building)
  | getEmpty {s : State} (hl : s.Live) (hb : s.parserBusy = false) (hc : s.count = 0) :
      ExecEffect .getMessage s (s.voidParser.answer .empty 0)
  | getWrong {b : Byte} {s : State} (hl : s.Live) (hp : s.parserBusy = false) (hc : s.count ≠ 0)
      (hb : s.store.read s.tail = some b) (hs : b ≠ s.cfg.startByte) :
      ExecEffect .getMessage s (s.popped.voidParser.answer .invalidStart 0)
  | getBegun {s : State} (hl : s.Live) (hp : s.parserBusy = false) (hc : s.count ≠ 0)
      (hb : s.store.read s.tail = some s.cfg.startByte) :
      ExecEffect .getMessage s ({ s.popped with fstate := .awaitLength }.pause .parsing)

/-- `liveOnly` gives a next state only while the ring is live. -/
theorem liveOnly_next {s t : State} {k : Step} (h : liveOnly s k = .next t) : s.Live ∧ k = .next t := by
  unfold liveOnly at h
  split at h
  · cases h
  · next hl => exact ⟨hl, h⟩

/-- The critical section gives a next state only when its body does. -/
theorem critical_next {s t : State} {body : State → Step} (h : critical body s = .next t) :
    ∃ u, body { s with ie := false } = .next u ∧ t = { u with ie := s.ie } := by
  unfold critical at h
  split at h
  · next u hu => cases h; exact ⟨u, hu, rfl⟩
  · cases h
  · cases h

/-- A push that answers. -/
theorem answerPush_next {o : Bool} {b : Byte} {s t : State}
    (h : answerPrim s (ringPush o b s) (fun _ => 0) = .next t) :
    (s.count ≠ s.size ∧ s.head < s.size ∧ t = (s.pushed b).answer .ok 0) ∨
    (s.count = s.size ∧ s.size ≠ 0 ∧ s.head < s.size ∧ t = (s.overwritten b).answer .ok 0) ∨
    (s.count = s.size ∧ o = false ∧ t = s.answer .full 0) := by
  rcases ringPush_cases o b s with ⟨h1, h2, h3⟩ | ⟨h1, -, h2, h3, h4⟩ | ⟨h1, h2, h3⟩ | ⟨-, -, -, h3⟩ | ⟨-, h3⟩
  · rw [h3] at h; cases h; exact .inl ⟨h1, h2, rfl⟩
  · rw [h4] at h; cases h; exact .inr (.inl ⟨h1, h2, h3, rfl⟩)
  · rw [h3] at h; cases h; exact .inr (.inr ⟨h1, h2, rfl⟩)
  · rw [h3] at h; cases h
  · rw [h3] at h; cases h

/-- A pop that answers. -/
theorem answerPop_next {s t : State} (h : answerPrim s (ringPop s) zextByte = .next t) :
    (s.count = 0 ∧ t = s.answer .empty 0) ∨
    (∃ b, s.count ≠ 0 ∧ s.store.read s.tail = some b ∧ t = s.popped.answer .ok (zextByte b)) := by
  rcases ringPop_cases s with ⟨h1, h2⟩ | ⟨b, h1, -, h2, h3⟩ | ⟨-, -, -, h3⟩ | ⟨-, -, h3⟩
  · rw [h2] at h; cases h; exact .inl ⟨h1, rfl⟩
  · rw [h3] at h; cases h; exact .inr ⟨b, h1, h2, rfl⟩
  · rw [h3] at h; cases h
  · rw [h3] at h; cases h

/-- Everything an operation's first micro-step can do. -/
theorem exec_next {i : Instr} {s t : State} (h : exec i s = .next t) : ExecEffect i s t := by
  cases i with
  | initStatic n =>
    simp only [exec, execInitStatic] at h
    split at h
    · cases h
    · next hl =>
      split at h
      · cases h
      · next hn => cases h; exact .initStatic hl (by omega)
  | initDynamic n =>
    simp only [exec, execInitDynamic] at h
    split at h
    · cases h
    · next hl =>
      split at h
      · cases h
      · next h0 =>
        split at h
        · cases h
        · next hn =>
          split at h
          · cases h; exact .initDynamic hl h0 (by omega)
          · cases h; exact .initFailed
  | teardown =>
    simp only [exec, execTeardown] at h
    split at h
    · next hl => cases h; exact .teardown hl
    · next hl => cases h; exact .teardownAgain hl
    · cases h
  | reset =>
    obtain ⟨hl, h⟩ := liveOnly_next h
    cases h; exact .reset hl
  | push b =>
    obtain ⟨hl, h⟩ := liveOnly_next h
    rcases answerPush_next h with ⟨h1, h2, rfl⟩ | ⟨h1, h2, h3, rfl⟩ | ⟨h1, -, rfl⟩
    · exact .pushed (.inl rfl) hl h1 h2
    · exact .overwritten (.inl rfl) hl h1 h2 h3
    · exact .full (.inl rfl) hl h1
  | pushOvw b =>
    obtain ⟨hl, h⟩ := liveOnly_next h
    rcases answerPush_next h with ⟨h1, h2, rfl⟩ | ⟨h1, h2, h3, rfl⟩ | ⟨-, h2, -⟩
    · exact .pushed (.inr (.inl rfl)) hl h1 h2
    · exact .overwritten (.inr (.inl rfl)) hl h1 h2 h3
    · cases h2
  | pop =>
    obtain ⟨hl, h⟩ := liveOnly_next h
    rcases answerPop_next h with ⟨h1, rfl⟩ | ⟨b, h1, h2, rfl⟩
    · exact .empty (.inl rfl) hl h1
    · exact .popped (.inl rfl) hl h1 h2
  | peek n =>
    obtain ⟨hl, h⟩ := liveOnly_next h
    rcases ringPeek_cases n s with ⟨-, h2⟩ | ⟨b, -, -, h2⟩ | ⟨-, -, h2⟩ | ⟨-, -, h2⟩
    · rw [h2] at h; cases h; exact .peekOut hl
    · rw [h2] at h; cases h; exact .peeked hl
    · rw [h2] at h; cases h
    · rw [h2] at h; cases h
  | isEmpty =>
    obtain ⟨hl, h⟩ := liveOnly_next h
    cases h; exact .isEmpty hl
  | isFull =>
    obtain ⟨hl, h⟩ := liveOnly_next h
    cases h; exact .isFull hl
  | pushSafe b =>
    obtain ⟨hl, h⟩ := liveOnly_next h
    obtain ⟨u, hu, rfl⟩ := critical_next h
    rcases answerPush_next hu with ⟨h1, h2, rfl⟩ | ⟨h1, h2, h3, rfl⟩ | ⟨h1, -, rfl⟩
    · exact .pushed (.inr (.inr rfl)) hl h1 h2
    · exact .overwritten (.inr (.inr rfl)) hl h1 h2 h3
    · exact .full (.inr rfl) hl h1
  | popSafe =>
    obtain ⟨hl, h⟩ := liveOnly_next h
    obtain ⟨u, hu, rfl⟩ := critical_next h
    rcases answerPop_next hu with ⟨h1, rfl⟩ | ⟨b, h1, h2, rfl⟩
    · exact .empty (.inr rfl) hl h1
    · exact .popped (.inr rfl) hl h1 h2
  | setOverwrite e =>
    obtain ⟨hl, h⟩ := liveOnly_next h
    cases h; exact .setOverwrite hl
  | setHighWm v =>
    obtain ⟨hl, h⟩ := liveOnly_next h
    unfold checkThreshold at h
    split at h
    · cases h; exact .thresholdOut (.inl rfl) hl
    · next hv => cases h; exact .setHigh hl (by omega)
  | setLowWm v =>
    obtain ⟨hl, h⟩ := liveOnly_next h
    unfold checkThreshold at h
    split at h
    · cases h; exact .thresholdOut (.inr rfl) hl
    · next hv => cases h; exact .setLow hl (by omega)
  | checkWm =>
    obtain ⟨hl, h⟩ := liveOnly_next h
    cases h; exact .checkWm hl
  | addMessage n =>
    obtain ⟨hl, h⟩ := liveOnly_next h
    split at h
    · cases h
    · next hb =>
      have hb' : s.builderBusy = false := by simpa using hb
      split at h
      · cases h; exact .addRefused hl hb' (.inl rfl)
      · next hn =>
        split at h
        · cases h; exact .addRefused hl hb' (.inr rfl)
        · next hr =>
          cases h
          refine .addBegun hl hb' ?_ ?_
          · simp only [minLen] at hn; bv_omega
          · simp only [State.freeSpace] at hr; omega
  | getMessage =>
    obtain ⟨hl, h⟩ := liveOnly_next h
    split at h
    · cases h
    · next hb =>
      have hb' : s.parserBusy = false := by simpa using hb
      rcases ringPop_cases { s with fstate := .awaitStart } with ⟨h1, h2⟩ | ⟨b, h1, -, h2, h3⟩ | ⟨-, -, -, h3⟩ | ⟨-, -, h3⟩
      · rw [h2] at h; cases h; exact .getEmpty hl hb' h1
      · rw [h3] at h
        simp only [Prim.finish, State.startPopped] at h
        split at h
        · next he =>
          cases h
          exact .getBegun hl hb' h1 (by rw [show s.store.read s.tail = some b from h2, he]; rfl)
        · next he => cases h; exact .getWrong hl hb' h1 h2 he
      · rw [h3] at h; cases h
      · rw [h3] at h; cases h
  | dump =>
    obtain ⟨hl, h⟩ := liveOnly_next h
    rcases snapshot_cases s.count s with ⟨t', ht⟩ | ⟨r, hr⟩
    · obtain ⟨d, rfl⟩ := snapshot_done_eq ht
      rw [ht] at h; cases h
      exact .dump hl ht
    · rw [hr] at h; cases h

/-! ## The later micro-steps of the framer -/

/-- What a later micro-step of ADD_MESSAGE does. -/
inductive BuildEffect : State → State → Prop where
  | last {s u : State} {b : Byte} (hl : s.Live)
      (hu : (s.count ≠ s.size ∧ s.head < s.size ∧ u = s.pushed b) ∨
        (s.count = s.size ∧ s.size ≠ 0 ∧ s.head < s.size ∧ u = s.overwritten b))
      (hb : b = s.command.messageByte s.bidx) (he : s.bidx + 1 = s.blen) :
      BuildEffect s ({ u with bidx := s.bidx + 1 }.voidBuilder.answer .ok 0)
  | more {s u : State} {b : Byte} (hl : s.Live)
      (hu : (s.count ≠ s.size ∧ s.head < s.size ∧ u = s.pushed b) ∨
        (s.count = s.size ∧ s.size ≠ 0 ∧ s.head < s.size ∧ u = s.overwritten b))
      (hb : b = s.command.messageByte s.bidx) (he : s.bidx + 1 ≠ s.blen) :
      BuildEffect s ({ u with bidx := s.bidx + 1 }.pause .building)
  | full {s : State} (hl : s.Live) (hc : s.count = s.size) : BuildEffect s (s.voidBuilder.answer .full 0)

theorem addMessageByte_next {s t : State} (h : addMessageByte s = .next t) : BuildEffect s t := by
  obtain ⟨hl, h⟩ := liveOnly_next h
  rcases ringPush_cases s.overwriteEnabled (s.command.messageByte s.bidx) s with
    ⟨h1, h2, h3⟩ | ⟨h1, -, h2, h3, h4⟩ | ⟨h1, h2, h3⟩ | ⟨-, -, -, h3⟩ | ⟨-, h3⟩
  · rw [h3] at h
    simp only [Prim.finish, State.byteAdded] at h
    split at h
    · next he => cases h; exact .last hl (.inl ⟨h1, h2, rfl⟩) rfl he
    · next he => cases h; exact .more hl (.inl ⟨h1, h2, rfl⟩) rfl he
  · rw [h4] at h
    simp only [Prim.finish, State.byteAdded] at h
    split at h
    · next he => cases h; exact .last hl (.inr ⟨h1, h2, h3, rfl⟩) rfl he
    · next he => cases h; exact .more hl (.inr ⟨h1, h2, h3, rfl⟩) rfl he
  · rw [h3] at h; cases h; exact .full hl h1
  · rw [h3] at h; cases h
  · rw [h3] at h; cases h

/-- What a later micro-step of GET_MESSAGE does. -/
inductive ParseEffect : State → State → Prop where
  | dry {s : State} (hl : s.Live) (hf : s.fstate = .awaitLength ∨ s.fstate = .consumePayload)
      (hc : s.count = 0) : ParseEffect s ({ s with fstate := .failed }.voidParser.answer .incomplete 0)
  | short {s : State} {b : Byte} (hl : s.Live) (hf : s.fstate = .awaitLength) (hc : s.count ≠ 0)
      (hb : s.store.read s.tail = some b) (hs : b.toNat < 3) :
      ParseEffect s ({ s.popped with flen := b, fstate := .failed }.voidParser.answer .invalidLength 0)
  | length {s : State} {b : Byte} (hl : s.Live) (hf : s.fstate = .awaitLength) (hc : s.count ≠ 0)
      (hb : s.store.read s.tail = some b) (hs : 3 ≤ b.toNat) :
      ParseEffect s ({ s.popped with
        flen := b
        obuf := (s.obuf.write 0 s.cfg.startByte).write 1 b
        fidx := 2
        fxor := 0
        fstate := .consumePayload }.pause .parsing)
  | payload {s : State} {b : Byte} (hl : s.Live) (hf : s.fstate = .consumePayload) (hc : s.count ≠ 0)
      (hb : s.store.read s.tail = some b) :
      ParseEffect s ({ s.popped with
        obuf := s.obuf.write s.fidx.toNat b
        fxor := s.fxor ^^^ b
        fidx := s.fidx + 1
        fstate := if s.fidx + 1 = s.flen then .validate else .consumePayload }.pause .parsing)
  | delivered {s : State} (hl : s.Live) (hf : s.fstate = .validate) (hx : s.fxor = 0) :
      ParseEffect s ({ s with olen := s.flen, fstate := .done }.voidParser.answer .ok (zextByte s.flen))
  | mismatch {s : State} (hl : s.Live) (hf : s.fstate = .validate) (hx : s.fxor ≠ 0) :
      ParseEffect s ({ s with fstate := .failed }.voidParser.answer .checksumMismatch 0)

theorem parserStep_next {s t : State} (h : parserStep s = .next t) : ParseEffect s t := by
  obtain ⟨hl, h⟩ := liveOnly_next h
  split at h
  · next hf =>
    rcases ringPop_cases s with ⟨h1, h2⟩ | ⟨b, h1, -, h2, h3⟩ | ⟨-, -, -, h3⟩ | ⟨-, -, h3⟩
    · rw [h2] at h; cases h; exact .dry hl (.inl hf) h1
    · rw [h3] at h
      by_cases hs : b < minLen
      · simp only [Prim.finish, State.lengthPopped, if_pos hs] at h
        cases h; exact .short hl hf h1 h2 (by simp only [minLen] at hs; bv_omega)
      · simp only [Prim.finish, State.lengthPopped, if_neg hs] at h
        cases h; exact .length hl hf h1 h2 (by simp only [minLen] at hs; bv_omega)
    · rw [h3] at h; cases h
    · rw [h3] at h; cases h
  · next hf =>
    rcases ringPop_cases s with ⟨h1, h2⟩ | ⟨b, h1, -, h2, h3⟩ | ⟨-, -, -, h3⟩ | ⟨-, -, h3⟩
    · rw [h2] at h; cases h; exact .dry hl (.inr hf) h1
    · rw [h3] at h; cases h; exact .payload hl hf h1 h2
    · rw [h3] at h; cases h
    · rw [h3] at h; cases h
  · next hf =>
    simp only [State.validated] at h
    split at h
    · next hx => cases h; exact .delivered hl hf hx
    · next hx => cases h; exact .mismatch hl hf hx
  all_goals cases h

end Sys2Proof.Machine
end

