-- ==== Sys2Proof/Laws/Schedule.lean ====
section
/-! SUPPORT. What one step of the machine can be. -/

namespace Sys2Proof.Machine

@[simp] theorem taken_portA (s : State) : s.taken.portA = s.portA := rfl
@[simp] theorem taken_portS (s : State) : s.taken.portS = s.portS := rfl
@[simp] theorem taken_active (s : State) : s.taken.active = s.active := rfl
@[simp] theorem taken_command (s : State) : s.taken.command = s.command := rfl
@[simp] theorem taken_cfg (s : State) : s.taken.cfg = s.cfg := rfl
@[simp] theorem taken_swin (s : State) : s.taken.swin = s.swin := rfl
@[simp] theorem taken_rsp (s : State) : s.taken.rsp = none := rfl

theorem port_sync {s : State} (h : s.portA.phase = .free) : s.port s.active = s.portS := by
  simp [State.active, h, State.port]

theorem port_async {s : State} (h : s.portA.phase ≠ .free) : s.port s.active = s.portA := by
  simp [State.active, h, State.port]

/-- The step of the operation that moves. -/
theorem step_of_activeMoves {s : State} (hm : s.ActiveMoves) (hb : (s.port s.active).phase ≠ .free) :
    step s = advance s.taken := by
  by_cases ha : s.portA.phase = .free
  · have hs : s.portS.phase ≠ .free := by rwa [port_sync ha] at hb
    rcases hm with h | h | h
    · simp [step, schedule, h, ha, syncTurn, hs, State.syncReady, State.taken]
    · obtain ⟨ts, h⟩ : ∃ ts, s.turns = .sync :: ts := by
        cases ht : s.turns with
        | nil => simp [ht] at h
        | cons x ts => simp [ht] at h; exact ⟨ts, by rw [h]⟩
      simp [step, schedule, h, ha, syncTurn, hs, State.taken]
    · exact absurd ha h.1
  · rcases hm with h | h | h
    · simp [step, schedule, h, ha, State.taken]
    · obtain ⟨ts, h⟩ : ∃ ts, s.turns = .sync :: ts := by
        cases ht : s.turns with
        | nil => simp [ht] at h
        | cons x ts => simp [ht] at h; exact ⟨ts, by rw [h]⟩
      simp [step, schedule, h, ha, State.taken]
    · obtain ⟨ts, h⟩ : ∃ ts, s.turns = .async :: ts := by
        cases ht : s.turns with
        | nil => simp [ht] at h
        | cons x ts => simp [ht] at h; exact ⟨ts, by rw [h.2]⟩
      simp [step, schedule, h, ha, asyncTurn, State.taken]

/-- Everything a step can be: the hardware reset, a micro-step of the operation that moves, or a beginning of `A` or of
`S`. -/
theorem step_cases (s : State) :
    (∃ ts, s.turns = .hwReset :: ts ∧ step s = .next { s with rsp := none, turns := ts }.hardwareReset) ∨
    (s.ActiveMoves ∧ (s.port s.active).phase ≠ .free ∧ step s = advance s.taken) ∨
    (s.portA.phase = .free ∧ (s.turns = [] → s.syncReady = false) ∧ (s.turns = [] ∨ s.turns.head? = some .async) ∧
      step s = beginAsync s.taken) ∨
    (s.portA.phase = .free ∧ s.portS.phase = .free ∧ (s.turns = [] ∨ s.turns.head? = some .sync) ∧
      step s = beginSync s.taken) := by
  cases ht : s.turns with
  | nil =>
    by_cases ha : s.portA.phase = .free
    · by_cases hr : s.syncReady = true
      · by_cases hs : s.portS.phase = .free
        · refine .inr (.inr (.inr ⟨ha, hs, .inl rfl, ?_⟩))
          simp [step, schedule, ht, ha, syncTurn, hs, State.taken, State.syncReady] at hr ⊢
          simp [hr]
        · have hm : s.ActiveMoves := .inl ht
          have hb : (s.port s.active).phase ≠ .free := by rwa [port_sync ha]
          exact .inr (.inl ⟨hm, hb, step_of_activeMoves hm hb⟩)
      · refine .inr (.inr (.inl ⟨ha, fun _ => by simpa using hr, .inl rfl, ?_⟩))
        have hr' : s.portS.phase = .free ∧ s.streamS = [] := by
          simpa [State.syncReady] using hr
        simp [step, schedule, ht, ha, State.syncReady, hr'.1, hr'.2, asyncTurn, State.taken]
    · have hm : s.ActiveMoves := .inl ht
      have hb : (s.port s.active).phase ≠ .free := by rwa [port_async ha]
      exact .inr (.inl ⟨hm, hb, step_of_activeMoves hm hb⟩)
  | cons x ts =>
    cases x with
    | hwReset => exact .inl ⟨ts, rfl, by simp [step, schedule, ht]⟩
    | async =>
      by_cases ha : s.portA.phase = .free
      · refine .inr (.inr (.inl ⟨ha, by simp, by simp, ?_⟩))
        simp [step, schedule, ht, asyncTurn, ha, State.taken]
      · have hm : s.ActiveMoves := .inr (.inr ⟨ha, by simp [ht]⟩)
        have hb : (s.port s.active).phase ≠ .free := by rwa [port_async ha]
        exact .inr (.inl ⟨hm, hb, step_of_activeMoves hm hb⟩)
    | sync =>
      by_cases ha : s.portA.phase = .free
      · by_cases hs : s.portS.phase = .free
        · refine .inr (.inr (.inr ⟨ha, hs, by simp, ?_⟩))
          simp [step, schedule, ht, ha, syncTurn, hs, State.taken]
        · have hm : s.ActiveMoves := .inr (.inl (by simp [ht]))
          have hb : (s.port s.active).phase ≠ .free := by rwa [port_sync ha]
          exact .inr (.inl ⟨hm, hb, step_of_activeMoves hm hb⟩)
      · have hm : s.ActiveMoves := .inr (.inl (by simp [ht]))
        have hb : (s.port s.active).phase ≠ .free := by rwa [port_async ha]
        exact .inr (.inl ⟨hm, hb, step_of_activeMoves hm hb⟩)

/-- A later micro-step of the framer: it opens its race window first, or it is performed. -/
theorem framerStep_cases (k : State → Step) (s : State) :
    (s.active = .sync ∧ s.cfg.framerAtomicPrims = false ∧ s.swin = false ∧
      framerStep k s = .next { s with swin := true }) ∨
    ((s.active = .async ∨ s.cfg.framerAtomicPrims = true ∨ s.swin = true) ∧ framerStep k s = k s) := by
  unfold framerStep
  cases s.active <;> cases s.cfg.framerAtomicPrims <;> cases s.swin <;> simp

/-- What the micro-step of the operation that moves is, by its phase. -/
theorem advance_cases (s : State) :
    ((s.port s.active).phase = .free ∧ advance s = .next s) ∨
    ((s.port s.active).phase = .accepted ∧ ∃ i, s.command.decoded s.cfg.width = .ok i ∧ advance s = exec i s) ∨
    ((s.port s.active).phase = .accepted ∧ ∃ e, s.command.decoded s.cfg.width = .error e ∧
      advance s = .next (s.answer .badCommand 0)) ∨
    (((s.port s.active).phase = .building ∨ (s.port s.active).phase = .parsing) ∧
      s.active = .sync ∧ s.cfg.framerAtomicPrims = false ∧ s.swin = false ∧
      advance s = .next { s with swin := true }) ∨
    ((s.port s.active).phase = .building ∧
      (s.active = .async ∨ s.cfg.framerAtomicPrims = true ∨ s.swin = true) ∧ advance s = addMessageByte s) ∨
    ((s.port s.active).phase = .parsing ∧
      (s.active = .async ∨ s.cfg.framerAtomicPrims = true ∨ s.swin = true) ∧ advance s = parserStep s) := by
  cases hp : (s.port s.active).phase with
  | free => exact .inl ⟨rfl, by simp [advance, hp]⟩
  | accepted =>
    cases hd : s.command.decoded s.cfg.width with
    | ok i => exact .inr (.inl ⟨rfl, i, rfl, by simp [advance, hp, runCommand, hd]⟩)
    | error e => exact .inr (.inr (.inl ⟨rfl, e, rfl, by simp [advance, hp, runCommand, hd]⟩))
  | building =>
    have hadv : advance s = framerStep addMessageByte s := by simp only [advance, hp]
    rcases framerStep_cases addMessageByte s with ⟨h1, h2, h3, h4⟩ | ⟨h1, h2⟩
    · exact .inr (.inr (.inr (.inl ⟨.inl rfl, h1, h2, h3, hadv.trans h4⟩)))
    · exact .inr (.inr (.inr (.inr (.inl ⟨rfl, h1, hadv.trans h2⟩))))
  | parsing =>
    have hadv : advance s = framerStep parserStep s := by simp only [advance, hp]
    rcases framerStep_cases parserStep s with ⟨h1, h2, h3, h4⟩ | ⟨h1, h2⟩
    · exact .inr (.inr (.inr (.inl ⟨.inr rfl, h1, h2, h3, hadv.trans h4⟩)))
    · exact .inr (.inr (.inr (.inr (.inr ⟨rfl, h1, hadv.trans h2⟩))))

/-- What a beginning of `A` can be. -/
theorem beginAsync_cases (s : State) :
    ((s.streamA = [] ∨ s.ie = false) ∧ beginAsync s = .next s) ∨
    (∃ c rest, s.streamA = c :: rest ∧ s.ie = true ∧ s.swin = true ∧ legalWord (c.bits s.cfg.width) = true ∧
      beginAsync s = .fault .raced) ∨
    (∃ c rest, s.streamA = c :: rest ∧ s.ie = true ∧ (s.swin = false ∨ legalWord (c.bits s.cfg.width) = false) ∧
      beginAsync s = .next { s with streamA := rest, portA := { phase := .accepted, cmd := c } }) := by
  cases hs : s.streamA with
  | nil => exact .inl ⟨.inl rfl, by simp [beginAsync, hs]⟩
  | cons c rest =>
    cases hi : s.ie
    · exact .inl ⟨.inr rfl, by simp [beginAsync, hs, hi]⟩
    · by_cases hr : s.swin = true ∧ legalWord (c.bits s.cfg.width) = true
      · exact .inr (.inl ⟨c, rest, rfl, rfl, hr.1, hr.2, by simp [beginAsync, hs, hi, hr]⟩)
      · refine .inr (.inr ⟨c, rest, rfl, rfl, ?_, ?_⟩)
        · cases h1 : s.swin <;> cases h2 : legalWord (c.bits s.cfg.width) <;> simp_all
        · have : (s.swin && legalWord (c.bits s.cfg.width)) = false := by
            cases h1 : s.swin <;> cases h2 : legalWord (c.bits s.cfg.width) <;> simp_all
          simp [beginAsync, hs, hi, this]

/-- What a beginning of `S` can be. -/
theorem beginSync_cases (s : State) :
    (s.streamS = [] ∧ beginSync s = .next s) ∨
    (∃ c rest, s.streamS = .command c :: rest ∧
      beginSync s = .next ({ s with streamS := rest }.acceptSync c)) ∨
    (∃ v rest, s.streamS = .setIe v :: rest ∧ beginSync s = .next { s with streamS := rest, ie := v }) := by
  cases hs : s.streamS with
  | nil => exact .inl ⟨rfl, by simp [beginSync, hs]⟩
  | cons l rest =>
    cases l with
    | command c => exact .inr (.inl ⟨c, rest, rfl, by simp [beginSync, hs]⟩)
    | setIe v => exact .inr (.inr ⟨v, rest, rfl, by simp [beginSync, hs]⟩)

end Sys2Proof.Machine
end

