-- ==== Sys2Proof/Laws/Answer.lean ====
section
/-! SUPPORT. The ends of a micro-step: an answer and a pause, what they do to the ports, and that every micro-step ends
in one of them. -/

namespace Sys2Proof.Machine

/-- Who moves, by whether `A` has an operation in progress. -/
theorem active_cases (s : State) :
    (s.portA.phase = .free ∧ s.active = .sync ∧ s.port s.active = s.portS) ∨
    (s.portA.phase ≠ .free ∧ s.active = .async ∧ s.port s.active = s.portA) := by
  by_cases h : s.portA.phase = .free
  · exact .inl ⟨h, by simp [State.active, h], port_sync h⟩
  · exact .inr ⟨h, by simp [State.active, h], port_async h⟩

/-- The response word as a number (30_encoding R70). -/
theorem responseWord_toNat (W : Nat) (e : Status) (d : Nat) :
    (responseWord W e d).toNat = rspWord W e.code.toNat d := by
  have h : (BitVec.ofNat W d).toNat < 2 ^ W := (BitVec.ofNat W d).isLt
  unfold responseWord rspWord
  rw [BitVec.toNat_append, ← Nat.shiftLeft_add_eq_or_of_lt h, BitVec.toNat_append, BitVec.toNat_ofNat]
  simp [Nat.shiftLeft_eq, pow_add]
  ring

/-- The fields of a response word, read back from its number. -/
theorem rspWord_fields (W : Nat) {status : Nat} (d : Nat) (h : status < 16) :
    rspWord W status d < 2 ^ (8 + W) ∧ rspWord W status d / 2 ^ (W + 4) = status ∧
    rspWord W status d / 2 ^ W % 16 = 0 ∧ rspWord W status d % 2 ^ W = d % 2 ^ W := by
  have hp : 0 < 2 ^ W := Nat.two_pow_pos W
  have hd : d % 2 ^ W < 2 ^ W := Nat.mod_lt _ hp
  have e4 : 2 ^ (W + 4) = 2 ^ W * 16 := by rw [pow_add]; norm_num
  have e8 : 2 ^ (8 + W) = 2 ^ W * 256 := by rw [pow_add]; ring
  have hr : rspWord W status d = d % 2 ^ W + 2 ^ W * (16 * status) := by
    unfold rspWord; rw [e4]; ring
  have hq : rspWord W status d / 2 ^ W = 16 * status := by
    rw [hr, Nat.add_mul_div_left _ _ hp, Nat.div_eq_of_lt hd, Nat.zero_add]
  refine ⟨?_, ?_, ?_, ?_⟩
  · rw [hr, e8]; nlinarith
  · rw [e4, ← Nat.div_div_eq_div_mul, hq]; omega
  · rw [hq]; omega
  · rw [hr, Nat.add_mul_mod_self_left, Nat.mod_mod]

/-- What an answer does to the ports, the window and the response port. -/
theorem answered_answer {s u : State} (e : Status) (d : Nat) (hA : u.portA = s.portA) (hS : u.portS = s.portS)
    (hw : u.swin = s.swin) (hc : u.cfg = s.cfg) : s.Answered (u.answer e d) e.code.toNat d := by
  have ha : u.active = s.active := by simp [State.active, hA]
  refine ⟨by simp [ha, hc, responseWord_toNat], ?_, ?_⟩ <;> intro h <;> simp [hA, hS, hw, State.active, h]

/-- What a pause does to the ports, the window and the response port. -/
theorem paused_pause {s u : State} (p : Phase) (hA : u.portA = s.portA) (hS : u.portS = s.portS)
    (hw : u.swin = s.swin) : s.Paused (u.pause p) p := by
  refine ⟨rfl, ?_, ?_⟩ <;> intro h <;> simp [hA, hS, hw, State.active, h]

/-- The ports, the window, the parameters and the environment are the same in two states. -/
abbrev State.SamePorts (s u : State) : Prop :=
  u.portA = s.portA ∧ u.portS = s.portS ∧ u.swin = s.swin ∧ u.cfg = s.cfg ∧ u.ie = s.ie ∧ u.streamA = s.streamA ∧
  u.streamS = s.streamS ∧ u.turns = s.turns

/-- `t` is an answer or a pause of a state with the ports of `s`. -/
def State.EndsIn (s t : State) : Prop :=
  ∃ u, s.SamePorts u ∧
    ((∃ e d, (e ≠ .ok → d = 0) ∧ t = u.answer e d) ∨ t = u.pause .building ∨ t = u.pause .parsing)

theorem endsIn_answer {s u : State} {e : Status} {d : Nat} (hu : s.SamePorts u) (he : e ≠ .ok → d = 0) :
    s.EndsIn (u.answer e d) := ⟨u, hu, .inl ⟨e, d, he, rfl⟩⟩

theorem endsIn_building {s u : State} (hu : s.SamePorts u) : s.EndsIn (u.pause .building) := ⟨u, hu, .inr (.inl rfl)⟩

theorem endsIn_parsing {s u : State} (hu : s.SamePorts u) : s.EndsIn (u.pause .parsing) := ⟨u, hu, .inr (.inr rfl)⟩

/-- The ports after an update of the ring, the engines or DIAG. -/
theorem samePorts_rfl (s : State) : s.SamePorts s := ⟨rfl, rfl, rfl, rfl, rfl, rfl, rfl, rfl⟩

/-- An operation's first micro-step ends in an answer or a pause. -/
theorem exec_endsIn {i : Instr} {s t : State} (h : exec i s = .next t) : s.EndsIn t := by
  cases exec_next h
  case addBegun => exact endsIn_building (samePorts_rfl s)
  case getBegun => exact endsIn_parsing (samePorts_rfl s)
  all_goals exact endsIn_answer (samePorts_rfl s) (by simp)

/-- A later micro-step of ADD_MESSAGE ends in an answer or a pause. -/
theorem addMessageByte_endsIn {s t : State} (h : addMessageByte s = .next t) : s.EndsIn t := by
  cases addMessageByte_next h
  case last hu _ _ =>
    rcases hu with ⟨-, -, rfl⟩ | ⟨-, -, -, rfl⟩ <;> exact endsIn_answer (samePorts_rfl s) (by simp)
  case more hu _ _ => rcases hu with ⟨-, -, rfl⟩ | ⟨-, -, -, rfl⟩ <;> exact endsIn_building (samePorts_rfl s)
  case full => exact endsIn_answer (samePorts_rfl s) (by simp)

/-- A later micro-step of GET_MESSAGE ends in an answer or a pause. -/
theorem parserStep_endsIn {s t : State} (h : parserStep s = .next t) : s.EndsIn t := by
  cases parserStep_next h
  case length => exact endsIn_parsing (samePorts_rfl s)
  case payload => exact endsIn_parsing (samePorts_rfl s)
  all_goals exact endsIn_answer (samePorts_rfl s) (by simp)

/-- The micro-step of the operation that moves ends in an answer or a pause, or only opens its race window. -/
theorem advance_endsIn {s t : State} (hb : (s.port s.active).phase ≠ .free) (h : advance s = .next t) :
    (s.active = .sync ∧ s.cfg.framerAtomicPrims = false ∧ s.swin = false ∧ t = { s with swin := true }) ∨
    s.EndsIn t := by
  rcases advance_cases s with ⟨h1, -⟩ | ⟨-, i, -, h3⟩ | ⟨-, e, -, h3⟩ | ⟨-, h2, h3, h4, h5⟩ | ⟨-, -, h3⟩ | ⟨-, -, h3⟩
  · exact absurd h1 hb
  · rw [h3] at h; exact .inr (exec_endsIn h)
  · rw [h3] at h; cases h; exact .inr (endsIn_answer (samePorts_rfl s) (by simp))
  · rw [h5] at h; cases h; exact .inl ⟨h2, h3, h4, rfl⟩
  · rw [h3] at h; exact .inr (addMessageByte_endsIn h)
  · rw [h3] at h; exact .inr (parserStep_endsIn h)

end Sys2Proof.Machine
end

