-- ==== Sys2Proof/Laws/Decode.lean ====
section
/-! SUPPORT. The fields of the command word at any width: what an encoded operation's fields are, that a word is its two
fields, and that the decoder accepts exactly the legal words. -/

namespace Sys2Proof.Laws

/-- How many low bits of `arg` a format leaves to its operand (30_encoding R65). -/
def freeBits (W : Nat) : Format → Nat
  | .N => 0
  | .V => W
  | .B => 8
  | .F => 1

/-- The bits of a format's operand field that must be zero are the bits above its operand (30_encoding R65). -/
theorem reservedClear_iff {W : Nat} (hW : 8 ≤ W) (f : Format) (arg : BitVec W) :
    f.reservedClear arg = true ↔ arg.toNat < 2 ^ freeBits W f := by
  have high : ∀ k, k ≤ W → ((arg.extractLsb' k (W - k) == 0) = true ↔ arg.toNat < 2 ^ k) := by
    intro k hk
    rw [beq_iff_eq, ← BitVec.toNat_inj]
    simp only [BitVec.extractLsb'_toNat, Nat.shiftRight_eq_div_pow]
    have h1 : arg.toNat / 2 ^ k < 2 ^ (W - k) := by
      apply Nat.div_lt_of_lt_mul
      rw [← pow_add, Nat.add_sub_cancel' hk]
      exact arg.isLt
    rw [Nat.mod_eq_of_lt h1]
    have hp : 0 < 2 ^ k := Nat.two_pow_pos k
    constructor
    · intro h
      have h0 : arg.toNat / 2 ^ k = 0 := by simpa using h
      exact (Nat.div_eq_zero_iff_lt hp).mp h0
    · intro h
      simpa using Nat.div_eq_of_lt h
  cases f with
  | N =>
    simp only [Format.reservedClear, freeBits, beq_iff_eq, pow_zero, Nat.lt_one_iff]
    exact ⟨fun h => by simp [h], fun h => BitVec.eq_of_toNat_eq (by simpa using h)⟩
  | V => simp [Format.reservedClear, freeBits, arg.isLt]
  | B => exact high 8 hW
  | F => exact high 1 (by omega)

/-- The opcode of an encoded operation. -/
theorem opField_encode (W : Nat) (i : Instr) : opField (encode W i) = opcodeOf i := by
  apply BitVec.eq_of_getLsbD_eq
  intro j hj
  unfold opField encode
  rw [BitVec.getLsbD_extractLsb']
  erw [BitVec.getLsbD_append]
  simp [hj]

/-- The operand field of an encoded operation. -/
theorem argField_encode (W : Nat) (i : Instr) : argField (encode W i) = BitVec.ofNat W i.operand := by
  apply BitVec.eq_of_getLsbD_eq
  intro j hj
  unfold argField encode
  rw [BitVec.getLsbD_extractLsb']
  erw [BitVec.getLsbD_append]
  simp [hj]

/-- A command word is its opcode and its operand field. -/
theorem opField_append_argField {W : Nat} (w : CommandWord W) : (opField w ++ argField w : CommandWord W) = w := by
  apply BitVec.eq_of_getLsbD_eq
  intro j hj
  unfold opField argField
  erw [BitVec.getLsbD_append]
  by_cases h : j < W
  · simp [h]
  · have h8 : j - W < 8 := by omega
    simp [h, h8, Nat.add_sub_cancel' (by omega : W ≤ j)]

/-- A command word as a number. -/
theorem toNat_eq_fields {W : Nat} (w : CommandWord W) :
    (opField w).toNat = w.toNat / 2 ^ W ∧ (argField w).toNat = w.toNat % 2 ^ W := by
  constructor
  · simp only [opField, BitVec.extractLsb'_toNat, Nat.shiftRight_eq_div_pow]
    apply Nat.mod_eq_of_lt
    apply Nat.div_lt_of_lt_mul
    have := w.isLt
    rwa [pow_add, Nat.mul_comm] at this
  · simp [argField, BitVec.extractLsb'_toNat]

/-- The word of an operation as a number: the opcode above `W` bits of operand (30_encoding R64). -/
theorem encode_toNat {W : Nat} {i : Instr} (h : i.operand < 2 ^ W) :
    (encode W i).toNat = (opcodeOf i).toNat * 2 ^ W + i.operand := by
  unfold encode
  rw [BitVec.toNat_append, BitVec.toNat_ofNat, Nat.mod_eq_of_lt h, ← Nat.shiftLeft_add_eq_or_of_lt h,
    Nat.shiftLeft_eq]

/-- The decoder accepts exactly the legal words (30_encoding R69). -/
theorem exists_decode_iff_legalWord {W : Nat} (w : CommandWord W) :
    (∃ i, decode w = .ok i) ↔ legalWord w = true := by
  unfold decode legalWord formatOfOpcode noOperand byteOperand flagOperand
  split <;> simp [*, Format.reservedClear] <;> split <;> simp_all

/-- The format that the opcode map gives an operation's opcode is the operation's. -/
theorem formatOfOpcode_opcodeOf (i : Instr) : formatOfOpcode (opcodeOf i) = some i.format := by
  cases i <;> rfl

/-- The operand of an operation fits its format, in a word wide enough for it. -/
theorem operand_lt {W : Nat} {i : Instr} (h : i.operand < 2 ^ W) :
    i.operand < 2 ^ freeBits W i.format := by
  cases i
  case push b => exact b.isLt
  case pushOvw b => exact b.isLt
  case pushSafe b => exact b.isLt
  case addMessage n => exact n.isLt
  case setOverwrite e => cases e <;> simp [Instr.operand, Instr.format, freeBits]
  all_goals first | exact h | simp [Instr.operand, Instr.format, freeBits]

/-- Only a `W`-bit value can make an operation ill-formed: an operation of another format is well formed at every legal
width. -/
theorem wellFormed_of_bounded {W : Nat} (hW : 8 ≤ W) {i : Instr} (h : i.format ≠ .V) : i.wellFormed W = true := by
  have h8 : (2 : Nat) ^ 8 ≤ 2 ^ W := Nat.pow_le_pow_right (by norm_num) hW
  have key : i.operand < 2 ^ 8 := by
    cases i
    case push b => exact b.isLt
    case pushOvw b => exact b.isLt
    case pushSafe b => exact b.isLt
    case addMessage n => exact n.isLt
    case setOverwrite e => cases e <;> decide
    all_goals first | exact absurd rfl h | decide
  simpa [Instr.wellFormed] using lt_of_lt_of_le key h8

/-- The word of a well-formed operation is legal. -/
theorem legalWord_encode {W : Nat} (hW : 8 ≤ W) {i : Instr} (h : i.wellFormed W = true) :
    legalWord (encode W i) = true := by
  have h' : i.operand < 2 ^ W := by simpa [Instr.wellFormed] using h
  unfold legalWord
  rw [opField_encode, argField_encode, formatOfOpcode_opcodeOf]
  refine (reservedClear_iff hW _ _).mpr ?_
  rw [BitVec.toNat_ofNat, Nat.mod_eq_of_lt h']
  exact operand_lt h'

end Sys2Proof.Laws
end

