-- ==== Sys2Proof/Laws/PerInstr.lean ====
section
/-! SUPPORT. What holds of every operation as syntax, one lemma for each. -/

namespace Sys2Proof.Laws.EncodedWord

/-- At every legal width at which the operation is well formed its word is legal and carries the operation's own opcode
and operand (30_encoding R64 to R67). -/
def Statement (i : Instr) : Prop :=
  ∀ W, 8 ≤ W → i.wellFormed W = true →
    legalWord (encode W i) = true ∧ opField (encode W i) = opcodeOf i ∧ (argField (encode W i)).toNat = i.operand

/-- The statement of any operation. -/
theorem of_instr (i : Instr) : Statement i := fun W hW h =>
  ⟨legalWord_encode hW h, opField_encode W i, by
    rw [argField_encode, BitVec.toNat_ofNat]
    exact Nat.mod_eq_of_lt (by simpa [Instr.wellFormed] using h)⟩

theorem initStatic (size : Nat) : Statement (.initStatic size) := of_instr _
theorem initDynamic (size : Nat) : Statement (.initDynamic size) := of_instr _
theorem teardown : Statement .teardown := of_instr _
theorem reset : Statement .reset := of_instr _
theorem push (byte : Byte) : Statement (.push byte) := of_instr _
theorem pushOvw (byte : Byte) : Statement (.pushOvw byte) := of_instr _
theorem pop : Statement .pop := of_instr _
theorem peek (index : Nat) : Statement (.peek index) := of_instr _
theorem isEmpty : Statement .isEmpty := of_instr _
theorem isFull : Statement .isFull := of_instr _
theorem pushSafe (byte : Byte) : Statement (.pushSafe byte) := of_instr _
theorem popSafe : Statement .popSafe := of_instr _
theorem setOverwrite (enable : Bool) : Statement (.setOverwrite enable) := of_instr _
theorem setHighWm (value : Nat) : Statement (.setHighWm value) := of_instr _
theorem setLowWm (value : Nat) : Statement (.setLowWm value) := of_instr _
theorem checkWm : Statement .checkWm := of_instr _
theorem addMessage (length : Byte) : Statement (.addMessage length) := of_instr _
theorem getMessage : Statement .getMessage := of_instr _
theorem dump : Statement .dump := of_instr _

end Sys2Proof.Laws.EncodedWord
end

