-- ==== Sys2Proof/Tests/Slice0.lean ====
section
/-! SUPPORT. Tests whose expected results stand in the spec (95_test_vectors and the examples of the rules), and a
witness for the hypotheses of each obligation. -/

namespace Sys2Proof.Tests

open Sys2Proof Sys2Proof.Machine

/-! ## Helpers -/

/-- A command with nothing at `MSG_IN`. -/
def cmd (w : Nat) : Command := { word := w, msgIn := Vector.replicate 256 0, grant := true }

/-- `ADD_MESSAGE 3, {AA 03 00}`: the only valid frame of length 3 (30_encoding R62). -/
def addCmd : Command :=
  { word := 0x300003, msgIn := ((Vector.replicate 256 0).set 0 0xAA).set 1 0x03, grant := true }

/-- A static ring of `size` holding `q`, oldest first, from `tail` on. -/
def ring (size tail : Nat) (q : List Byte) : State :=
  { State.reset with
    life := .static
    size := size
    head := (tail + q.length) % size
    tail := tail
    count := q.length
    highWatermark := 3 * size / 4
    lowWatermark := size / 4
    store := (List.range q.length).foldl (fun m i => m.write ((tail + i) % size) (q.getD i 0)) [] }

/-- `s` with a command of `S` accepted. -/
def sHas (s : State) (w : Nat) : State := s.acceptSync (cmd w)

/-- `s` with a command of `A` accepted. -/
def aHas (s : State) (w : Nat) : State := { s with portA := { phase := .accepted, cmd := cmd w } }

/-- `s` with `S` inside an ADD_MESSAGE of length `n` at offset `i`. -/
def adding (s : State) (n i : Byte) : State :=
  { s with portS := { phase := .building, cmd := cmd (0x300000 + n.toNat) }, blen := n, bidx := i }

/-- `s` with `S` inside a GET_MESSAGE, in state `f`. -/
def getting (s : State) (f : FState) (len idx x : Byte) : State :=
  { s with
    portS := { phase := .parsing, cmd := cmd 0x310000 }
    fstate := f
    flen := len
    fidx := idx
    fxor := x }

/-- The outcome is a next state that passes a check. -/
def goes (o : Step) (check : State → Bool) : Bool :=
  match o with
  | .next t => check t
  | .fault _ => false
  | .refused _ => false

/-- The response word is `w`, for agent `S`. -/
def responds (t : State) (w : Nat) : Bool := decide (t.rsp = some { agent := .sync, word := w })

/-- `head`, `tail`, `count`. -/
def at_ (t : State) (h l c : Nat) : Bool := t.head == h && t.tail == l && t.count == c

/-- With `FRAMER_ATOMIC_PRIMS = false`. -/
def split_ (s : State) : State := { s with cfg := { s.cfg with framerAtomicPrims := false } }

/-- At width `w`, with a storage of every size. -/
def wide (w : Nat) (s : State) : State := { s with cfg := { s.cfg with width := w, storeBytes := 2 ^ w - 1 } }

/-- With a storage of 4 entries. -/
def small (s : State) : State := { s with cfg := { s.cfg with storeBytes := 4 } }

/-! ## Decoding: words written out bit by bit from 30_encoding R64 to R66 -/

theorem test_decode_lifecycle :
    decode (word16 0b00000001_1111111111111111) = .ok (.initStatic 65535) ∧
    decode (word16 0b00000010_0000000000001000) = .ok (.initDynamic 8) ∧
    decode (word16 0b00000011_0000000000000000) = .ok .teardown ∧
    decode (word16 0b00000100_0000000000000000) = .ok .reset := by decide

theorem test_decode_ring :
    decode (word16 0b00010000_0000000010101010) = .ok (.push 0xAA) ∧
    decode (word16 0b00010001_0000000000000111) = .ok (.pushOvw 0x07) ∧
    decode (word16 0b00010010_0000000000000000) = .ok .pop ∧
    decode (word16 0b00010011_1000000000000010) = .ok (.peek 0x8002) ∧
    decode (word16 0b00010100_0000000000000000) = .ok .isEmpty ∧
    decode (word16 0b00010101_0000000000000000) = .ok .isFull ∧
    decode (word16 0b00011000_0000000010101010) = .ok (.pushSafe 0xAA) ∧
    decode (word16 0b00011010_0000000000000000) = .ok .popSafe := by decide

theorem test_decode_configuration :
    decode (word16 0b00100000_0000000000000001) = .ok (.setOverwrite true) ∧
    decode (word16 0b00100000_0000000000000000) = .ok (.setOverwrite false) ∧
    decode (word16 0b00100001_0000000000000110) = .ok (.setHighWm 6) ∧
    decode (word16 0b00100010_0000000000000010) = .ok (.setLowWm 2) ∧
    decode (word16 0b00100011_0000000000000000) = .ok .checkWm ∧
    decode (word16 0b00111111_0000000000000000) = .ok .dump := by decide

theorem test_decode_framer :
    decode (word16 0b00110000_0000000000000100) = .ok (.addMessage 4) ∧
    decode (word16 0b00110001_0000000000000000) = .ok .getMessage := by decide

/-- 95_test_vectors section 2.1, "Illegal words". -/
theorem test_decode_illegal :
    decode (word16 0x000000) = .error .unassignedOpcode ∧ decode (word16 0x190007) = .error .unassignedOpcode ∧
    decode (word16 0x1B0000) = .error .unassignedOpcode ∧ decode (word16 0xFF0000) = .error .unassignedOpcode ∧
    decode (word16 0x1001AA) = .error .reservedBitsSet ∧ decode (word16 0x3F8000) = .error .reservedBitsSet ∧
    decode (word16 0x200003) = .error .reservedBitsSet ∧ decode (word16 0x300100) = .error .reservedBitsSet := by decide

/-- 30_encoding R67: at another width the layout is the same with `arg` of `W` bits. -/
theorem test_decode_other_widths :
    decode (0b00010000_10101010 : CommandWord 8) = .ok (.push 0xAA) ∧
    decode (0b00010011_11111111 : CommandWord 8) = .ok (.peek 255) ∧
    decode (0b00100000_00000011 : CommandWord 8) = .error .reservedBitsSet ∧
    decode (0b00000001_10000000000000001000 : CommandWord 20) = .ok (.initStatic 524296) ∧
    decode (0b00110000_00000000000100000000 : CommandWord 20) = .error .reservedBitsSet ∧
    encode 20 (.initStatic 524296) = 0b00000001_10000000000000001000 := by decide

theorem test_decode_table_word :
    decodeTableWord 24 0x1000AA = some (.push 0xAA) ∧ decodeTableWord 24 0x1001AA = none := by decide

theorem test_encode : encode 16 (.setOverwrite true) = 0x200001 ∧ encode 16 (.addMessage 4) = 0x300004 := by decide

/-! ## Well-formedness: an ill-formed word for each check, and a legal one beside it -/

theorem smoke_opcode_unassigned : legalWord (word16 0x050000) = false ∧ legalWord (word16 0x040000) = true := by decide

theorem smoke_format_N : legalWord (word16 0x120001) = false ∧ legalWord (word16 0x120000) = true := by decide

theorem smoke_format_B : legalWord (word16 0x18FF00) = false ∧ legalWord (word16 0x1800FF) = true := by decide

theorem smoke_format_F : legalWord (word16 0x200002) = false ∧ legalWord (word16 0x200001) = true := by decide

theorem smoke_format_V : legalWord (word16 0x13FFFF) = true := by decide

/-- An operand that needs more than `W` bits. -/
theorem smoke_operand_width :
    (Instr.initStatic 65536).wellFormed 16 = false ∧ (Instr.initStatic 65535).wellFormed 16 = true ∧
    (Instr.peek 256).wellFormed 8 = false ∧ (Instr.addMessage 255).wellFormed 8 = true := by decide

/-! ## One micro-step each -/

/-- 95_test_vectors section 2.2. -/
theorem test_initStatic :
    goes (exec (.initStatic 8) State.reset) (fun t =>
      responds t 0x000000 && t.highWatermark == 6 && t.lowWatermark == 2 && !t.overwriteEnabled && t.life == .static) = true ∧
    goes (exec (.initStatic 65535) State.reset) (fun t => t.highWatermark == 49151 && t.lowWatermark == 16383) = true := by
  decide

/-- 40 R92, the example. -/
theorem test_initDynamic :
    goes (exec (.initDynamic 8) State.reset) (fun t =>
      responds t 0x000000 && t.highWatermark == 7 && t.lowWatermark == 1 && t.life == .dynamic) = true ∧
    goes (exec (.initDynamic 8) (State.reset.acceptSync { cmd 0x020008 with grant := false })) (fun t =>
      responds t 0x400000 && t.life == .uninit) = true := by decide

/-- 40 R93, the example, and U3. -/
theorem test_teardown :
    goes (exec .teardown { ring 4 0 [1] with life := .dynamic }) (fun t => responds t 0x000000 && t.life == .uninit) = true ∧
    exec .teardown (ring 4 0 [1]) = .refused .teardownStatic := ⟨by decide, rfl⟩

/-- 40 R94: residual bytes stay. -/
theorem test_reset :
    goes (exec .reset (ring 8 5 [0x11, 0x22])) (fun t =>
      responds t 0x000000 && at_ t 0 0 0 && t.store.read 5 == some 0x11 && t.size == 8) = true := by decide

/-- 41 R111, the example. -/
theorem test_push :
    goes (exec (.push 0x5A) (ring 4 1 [1, 2])) (fun t =>
      responds t 0x000000 && at_ t 0 1 3 && t.store.read 3 == some 0x5A) = true := by decide

/-- 41 R111, corner case (a): the oldest byte is discarded. -/
theorem test_push_overwrites :
    goes (exec (.push 9) { ring 2 1 [1, 2] with overwriteEnabled := true }) (fun t =>
      responds t 0x000000 && at_ t 0 0 2 && t.contents == [some 2, some 9]) = true := by decide

/-- 41 R112, the example. -/
theorem test_pushOvw :
    goes (exec (.pushOvw 3) (ring 2 0 [1, 2])) (fun t =>
      responds t 0x000000 && t.contents == [some 2, some 3] && !t.overwriteEnabled) = true := by decide

/-- 41 R113, the example. -/
theorem test_pop :
    goes (exec .pop (ring 4 3 [0x5A, 7])) (fun t => responds t 0x00005A && at_ t 1 0 1) = true := by decide

/-- 41 R114: with `tail = 3`, `size = 4`, `PEEK 2` reads `store[1]`; the index just past the end fails. -/
theorem test_peek :
    goes (exec (.peek 2) (ring 4 3 [1, 2, 0x30])) (fun t => responds t 0x000030 && at_ t 2 3 3) = true ∧
    goes (exec (.peek 3) (ring 4 3 [1, 2, 0x30])) (fun t => responds t 0x300000) = true := by decide

/-- 41 R115, R116: with `size = 0` both answer 1. -/
theorem test_isEmpty : goes (exec .isEmpty (ring 0 0 [])) (fun t => responds t 0x000001) = true := by decide

theorem test_isFull : goes (exec .isFull (ring 0 0 [])) (fun t => responds t 0x000001) = true := by decide

/-- 41 R117, the example: `ie` stays 0. -/
theorem test_pushSafe :
    goes (exec (.pushSafe 0x33) (ring 4 0 [])) (fun t => responds t 0x000000 && t.count == 1 && !t.ie) = true := by decide

/-- 41 R118, the example: `ie` stays 1. -/
theorem test_popSafe :
    goes (exec .popSafe { ring 4 0 [0x33] with ie := true }) (fun t =>
      responds t 0x000033 && t.count == 0 && t.ie) = true := by decide

/-- 42 R140. -/
theorem test_setOverwrite :
    goes (exec (.setOverwrite true) (ring 2 0 [1, 2])) (fun t =>
      responds t 0x000000 && t.overwriteEnabled && t.count == 2) = true := by decide

/-- 42 R141, the example. -/
theorem test_setHighWm :
    goes (exec (.setHighWm 8) (ring 8 0 [])) (fun t => responds t 0x000000 && t.highWatermark == 8) = true ∧
    goes (exec (.setHighWm 9) (ring 8 0 [])) (fun t => responds t 0x300000 && t.highWatermark == 6) = true := by decide

/-- 42 R142. -/
theorem test_setLowWm :
    goes (exec (.setLowWm 0) (ring 8 0 [])) (fun t => responds t 0x000000 && t.lowWatermark == 0) = true ∧
    goes (exec (.setLowWm 9) (ring 8 0 [])) (fun t => responds t 0x300000 && t.lowWatermark == 2) = true := by decide

/-- 42 R143, the example, and High before Low when the thresholds overlap. -/
theorem test_checkWm :
    goes (exec .checkWm (ring 8 0 [1, 2, 3])) (fun t => responds t 0x000000) = true ∧
    goes (exec .checkWm { ring 8 0 [1, 2] with highWatermark := 2 }) (fun t => responds t 0x000002) = true := by decide

/-- 60 R213: InvalidLength before InsufficientSpace; 43 R163 (c). -/
theorem test_addMessage :
    goes (exec (.addMessage 2) (ring 2 0 [1, 2])) (fun t => responds t 0x500000) = true ∧
    goes (exec (.addMessage 3) { ring 3 0 [1] with overwriteEnabled := true }) (fun t =>
      responds t 0x600000 && t.count == 1) = true := by decide

/-- 95_test_vectors P4: a byte that is not START is consumed; an empty ring is Empty. -/
theorem test_getMessage :
    goes (exec .getMessage (ring 8 4 [0x55, 0xAA])) (fun t => responds t 0x700000 && at_ t 6 5 1) = true ∧
    goes (exec .getMessage (ring 8 4 [])) (fun t => responds t 0x200000) = true := by decide

/-- 42 R145, the example. -/
theorem test_dump :
    goes (exec .dump (ring 4 3 [0x10, 0x20])) (fun t =>
      responds t 0x000002 && t.diag.read 0 == some 0x10 && t.diag.read 1 == some 0x20 && t.diag.read 2 == none) = true := by
  decide

/-- 43 R167: a length of 2 is InvalidLength and `obuf` is untouched. -/
theorem test_parser_length :
    goes (parserStep (getting (ring 4 0 [2, 9]) .awaitLength 0 0 0)) (fun t =>
      responds t 0x500000 && t.obuf == [] && t.count == 1 && t.fstate == .idle) = true := by decide

/-- 30_encoding R70 at `W = 8`: POP answers the 16-bit word `0x00AA` and PUSH onto a full ring `0x1000`. -/
theorem test_response_width :
    goes (exec .pop (wide 8 (ring 4 3 [0xAA]))) (fun t => responds t 0x00AA) = true ∧
    goes (step (sHas (wide 8 (ring 1 0 [1])) 0x10AA)) (fun t => responds t 0x1000) = true := by decide

/-- 10_state R33: an init leaves the transients of an idle engine without a value; 43 R169: it cannot write those of an
operation in flight, and `fstate` is unchanged. -/
theorem test_init_transients :
    goes (exec (.initStatic 4) (getting (ring 4 0 [1]) .consumePayload 9 5 7)) (fun t =>
      t.fstate == .consumePayload && t.flen == 9 && t.fidx == 5 && t.fxor == 7 &&
        t.blen == Config.freeByte 3 && t.bidx == Config.freeByte 4) = true ∧
    goes (exec (.initStatic 4) (adding (ring 4 0 [1]) 3 2)) (fun t =>
      t.blen == 3 && t.bidx == 2 && t.flen == Config.freeByte 0) = true := by
  constructor <;> simp [goes, exec, execInitStatic, getting, adding, ring, State.reset, Config.default, State.parserBusy,
    State.builderBusy, Port.idle]

/-- 43 R169, R170: an INIT_STATIC of `A` inside the GET_MESSAGE of `S` before PV does not change its answer. -/
theorem test_init_before_validate :
    goes (exec (.initStatic 4) (getting (ring 4 0 [1]) .validate 9 9 0)) (fun t =>
      goes (parserStep t) (fun u => responds u 0x000009 && u.olen == 9)) = true := by
  simp [goes, exec, execInitStatic, getting, ring, State.reset, Config.default, State.parserBusy, State.builderBusy,
    Port.idle, parserStep, liveOnly, State.validated, responds, State.answer, State.active, State.voidParser,
    State.voidFrame, State.initRing, State.voidTransients, zextByte]
  decide

/-- 20_memory R52: a command of `A` inside a race window of `S`. -/
theorem test_race :
    step { sHas (ring 4 0 [1]) 0x120000 with ie := true, turns := [.async], streamA := [cmd 0x120000] } = .fault .raced := by
  rfl

/-! ## Witnesses: a state and operands that meet the hypotheses of each obligation -/

theorem witness_DecodeOfEncodeIsTheOperation :
    (Instr.setOverwrite true).wellFormed 8 = true ∧ (Instr.peek 65535).wellFormed 16 = true := by decide

theorem witness_EncodeOfDecodeIsTheWord : decode (word16 0x1000FF) = .ok (.push 0xFF) := by decide

theorem witness_LegalWordsAreTheTableRows : 8 ≤ 8 ∧ decode (0x10FF : CommandWord 8) = .ok (.push 0xFF) := by decide

theorem witness_EveryResponseIsWellFormed :
    goes (step (sHas (ring 4 0 [7]) 0x120000)) (fun t => responds t 0x000007) = true := by decide

theorem witness_StepPerformsTheAcceptedCommand :
    ((sHas (ring 4 0 [7]) 0x120000).ActiveMoves ∧
      ((sHas (ring 4 0 [7]) 0x120000).port (sHas (ring 4 0 [7]) 0x120000).active).phase = .accepted ∧
      (sHas (ring 4 0 [7]) 0x120000).command.decoded 16 = .ok .pop) ∧
    ({ aHas (ring 4 0 [7]) 0x120000 with turns := [.async] }.ActiveMoves ∧
      (aHas (ring 4 0 [7]) 0x120000).command.decoded 16 = .ok .pop) ∧
    decode (word16 0x120000) = .ok .pop := by and_intros <;> decide

theorem witness_StepContinuesTheFramer :
    ((adding (ring 4 0 []) 3 0).ActiveMoves ∧
      ((adding (ring 4 0 []) 3 0).port (adding (ring 4 0 []) 3 0).active).phase = .building ∧
      (adding (ring 4 0 []) 3 0).cfg.framerAtomicPrims = true) ∧
    ((getting (split_ (ring 4 0 [])) .awaitLength 0 0 0).ActiveMoves ∧
      (getting (split_ (ring 4 0 [])) .awaitLength 0 0 0).portS.phase = .parsing ∧
      (getting (split_ (ring 4 0 [])) .awaitLength 0 0 0).portA.phase = .free ∧
      (getting (split_ (ring 4 0 [])) .awaitLength 0 0 0).cfg.framerAtomicPrims = false ∧
      (getting (split_ (ring 4 0 [])) .awaitLength 0 0 0).swin = false) := by and_intros <;> decide

theorem witness_IllegalWordIsAnsweredBadCommand :
    (sHas State.reset 0x1001AA).ActiveMoves ∧ (sHas State.reset 0x1001AA).portS.phase = .accepted ∧
    8 ≤ (sHas State.reset 0x1001AA).cfg.width ∧
    ¬ MatchesARow 16 ((sHas State.reset 0x1001AA).command.bits 16).toNat :=
  ⟨by decide, by decide, by decide, by
    change ¬ MatchesARow 16 0x1001AA
    simp [MatchesARow, opcodeRows]⟩

theorem witness_EveryStepKeepsTheInvariant :
    (sHas (ring 4 3 [1, 2]) 0x100005).Inv ∧ goes (step (sHas (ring 4 3 [1, 2]) 0x100005)) (fun _ => true) = true := by
  and_intros <;> decide

theorem witness_OnlyTheRaceFaults :
    { sHas (ring 4 0 [1]) 0x120000 with ie := true, turns := [.async], streamA := [cmd 0x120000] }.Inv ∧
    step { sHas (ring 4 0 [1]) 0x120000 with ie := true, turns := [.async], streamA := [cmd 0x120000] }
      = .fault .raced := ⟨by and_intros <;> decide, rfl⟩

theorem witness_HardwareResetForgetsTheBlock :
    { ring 4 0 [1] with turns := [.hwReset, .sync] }.turns = .hwReset :: [.sync] ∧
    { ring 9 2 [5] with turns := [.hwReset, .sync] }.cfg = (ring 4 0 [1]).cfg ∧
    { ring 9 2 [5] with turns := [.hwReset, .sync] }.turns = { ring 4 0 [1] with turns := [.hwReset, .sync] }.turns ∧
    (ring 9 2 [5]).ie = (ring 4 0 [1]).ie ∧ (ring 9 2 [5]).fresh = (ring 4 0 [1]).fresh := by and_intros <;> decide

theorem witness_IdleBlockDoesNothing :
    (State.reset.turns = [] ∧ State.reset.portA.phase = .free ∧ State.reset.portS.phase = .free ∧
      State.reset.streamS = [] ∧ State.reset.streamA = []) ∧
    ({ sHas (ring 4 0 [1]) 0x120000 with turns := [.async], streamA := [cmd 0x120000] }.turns = .async :: [] ∧
      (sHas (ring 4 0 [1]) 0x120000).portA.phase = .free ∧ (sHas (ring 4 0 [1]) 0x120000).ie = false) ∧
    ({ ring 4 0 [1] with turns := [.sync], streamA := [cmd 0x120000] }.turns = .sync :: [] ∧
      (ring 4 0 [1]).portA.phase = .free ∧ (ring 4 0 [1]).portS.phase = .free ∧ (ring 4 0 [1]).streamS = []) := by
  and_intros <;> decide

theorem witness_InitStaticEffect :
    (State.reset.life ≠ .dynamic ∧ 0 ≤ State.reset.cfg.storeBytes ∧
      65535 ≤ State.reset.cfg.storeBytes) ∧
    { ring 4 0 [1] with life := .dynamic }.life = .dynamic ∧
    ((small (ring 4 0 [])).life ≠ .dynamic ∧ (small (ring 4 0 [])).cfg.storeBytes < 5) := by and_intros <;> decide

theorem witness_InitDynamicEffect :
    (State.reset.life ≠ .dynamic ∧ 1 ≤ 1 ∧ 65535 ≤ State.reset.cfg.storeBytes ∧
      State.reset.command.grant = true) ∧
    (State.reset.acceptSync { cmd 0x020001 with grant := false }).command.grant = false ∧
    { ring 4 0 [1] with life := .dynamic }.life = .dynamic ∧ 0 = 0 ∧
    (small (ring 4 0 [])).cfg.storeBytes < 5 := by and_intros <;> decide

theorem witness_TeardownEffect :
    { ring 4 0 [1] with life := .dynamic }.life = .dynamic ∧ State.reset.life = .uninit ∧
    (ring 4 0 [1]).life = .static := by and_intros <;> decide

theorem witness_ResetCommandEffect : (ring 4 2 [1, 2, 3]).Live := by decide

theorem witness_UninitRefusesTheRing :
    State.reset.life = .uninit ∧ (∀ n, Instr.pop ≠ .initStatic n) ∧ (∀ n, Instr.pop ≠ .initDynamic n) ∧
    Instr.pop ≠ .teardown := by simp [State.reset]

theorem witness_PushEffect :
    ((ring 4 3 [1, 2, 3]).Live ∧ (ring 4 3 [1, 2, 3]).RingOk ∧ (ring 4 3 [1, 2, 3]).count ≠ (ring 4 3 [1, 2, 3]).size) ∧
    ((ring 2 1 [1, 2]).RingOk ∧ (ring 2 1 [1, 2]).count = (ring 2 1 [1, 2]).size ∧
      (ring 2 1 [1, 2]).overwriteEnabled = false) ∧
    ({ ring 1 0 [1] with overwriteEnabled := true }.RingOk ∧ (ring 1 0 [1]).count = (ring 1 0 [1]).size ∧
      (ring 1 0 [1]).size ≠ 0) ∧
    ({ ring 0 0 [] with overwriteEnabled := true }.RingOk ∧ (ring 0 0 []).size = 0) := by and_intros <;> decide

theorem witness_PushOvwEffect :
    ((ring 4 3 [1, 2, 3]).Live ∧ (ring 4 3 [1, 2, 3]).RingOk ∧ (ring 4 3 [1, 2, 3]).count ≠ (ring 4 3 [1, 2, 3]).size) ∧
    ((ring 2 1 [1, 2]).RingOk ∧ (ring 2 1 [1, 2]).count = (ring 2 1 [1, 2]).size ∧ (ring 2 1 [1, 2]).size ≠ 0) ∧
    ((ring 0 0 []).RingOk ∧ (ring 0 0 []).size = 0) := by and_intros <;> decide

theorem witness_PopEffect :
    ((ring 4 3 []).Live ∧ (ring 4 3 []).RingOk ∧ (ring 4 3 []).count = 0) ∧
    ((ring 4 3 [9]).RingOk ∧ (ring 4 3 [9]).count ≠ 0) := by and_intros <;> decide

theorem witness_PeekEffect :
    ((ring 4 3 [1, 2]).Live ∧ (ring 4 3 [1, 2]).RingOk ∧ (ring 4 3 [1, 2]).count ≤ 2) ∧
    1 < (ring 4 3 [1, 2]).count := by and_intros <;> decide

theorem witness_PredicatesAnswer : (ring 4 3 [1, 2]).Live ∧ (ring 4 0 []).count = 0 ∧
    (ring 2 0 [1, 2]).count = (ring 2 0 [1, 2]).size := by and_intros <;> decide

theorem witness_SafeFormsDoWhatThePlainFormsDo :
    goes (exec (.pushSafe 1) (ring 4 0 [])) (fun _ => true) = true ∧
    goes (exec .popSafe (ring 4 0 [1])) (fun _ => true) = true := by and_intros <;> decide

theorem witness_RingIsABoundedQueue :
    (ring 3 2 [1, 2]).Live ∧ (ring 3 2 [1, 2]).RingOk ∧ (ring 3 2 [1, 2]).contents = List.map some [1, 2] ∧
    queueStep (ring 3 2 [1, 2]).size false (.push 7) [1, 2] = some (.ok, 0, [1, 2, 7]) ∧
    queueStep (ring 3 2 [1, 2]).size false (.peek 1) [1, 2] = some (.ok, 2, [1, 2]) := by and_intros <;> decide

theorem witness_SetOverwriteEffect : (ring 2 0 [1, 2]).Live := by decide

theorem witness_SetThresholdEffect :
    (ring 4 0 [1]).Live ∧ 4 ≤ (ring 4 0 [1]).size ∧
    (ring 4 0 [1]).size < 5 := by and_intros <;> decide

theorem witness_CheckWatermarksAnswer :
    (ring 8 0 [1, 2]).Live ∧ (ring 4 0 [1, 2, 3]).highWatermark ≤ (ring 4 0 [1, 2, 3]).count ∧
    (ring 8 0 [1, 2]).count ≤ (ring 8 0 [1, 2]).lowWatermark := by and_intros <;> decide

theorem witness_DumpEffect : (ring 4 3 [0x10, 0x20]).Live ∧ (ring 4 3 [0x10, 0x20]).RingOk := by and_intros <;> decide

theorem witness_AddMessageCheckEffect :
    ((adding (ring 4 0 []) 3 0).Live ∧ (adding (ring 4 0 []) 3 0).builderBusy = true) ∧
    ((ring 4 0 []).builderBusy = false ∧ (2 : Byte).toNat < 3) ∧
    (3 ≤ (3 : Byte).toNat ∧
      ((ring 4 0 [1, 2]).size : Int) - ((ring 4 0 [1, 2]).count : Int) < ((3 : Byte).toNat : Int)) ∧
    (((3 : Byte).toNat : Int) ≤ ((ring 4 0 [1]).size : Int) - ((ring 4 0 [1]).count : Int)) := by and_intros <;> decide

theorem witness_AddMessageByteEffect :
    ((adding (ring 4 0 [1]) 3 2).Live ∧ (adding (ring 4 0 [1]) 3 2).RingOk ∧
      (adding (ring 4 0 [1]) 3 2).bidx.toNat < (adding (ring 4 0 [1]) 3 2).blen.toNat ∧
      (adding (ring 4 0 [1]) 3 2).count ≠ (adding (ring 4 0 [1]) 3 2).size ∧
      (adding (ring 4 0 [1]) 3 2).bidx + 1 = (adding (ring 4 0 [1]) 3 2).blen) ∧
    (adding (ring 4 0 [1]) 3 1).bidx + 1 ≠ (adding (ring 4 0 [1]) 3 1).blen ∧
    ((adding (ring 2 0 [1, 2]) 3 1).RingOk ∧
      (adding (ring 2 0 [1, 2]) 3 1).count = (adding (ring 2 0 [1, 2]) 3 1).size ∧
      (adding (ring 2 0 [1, 2]) 3 1).overwriteEnabled = false) ∧
    ({ adding (ring 2 0 [1, 2]) 3 1 with overwriteEnabled := true }.RingOk ∧
      (adding (ring 2 0 [1, 2]) 3 1).size ≠ 0) ∧
    ({ adding (ring 0 0 []) 3 1 with overwriteEnabled := true }.RingOk ∧ (adding (ring 0 0 []) 3 1).size = 0) := by and_intros <;> decide

theorem witness_AddMessageDeliversTheMessage :
    ((ring 4 2 [9]).acceptSync addCmd).Inv ∧ ((ring 4 2 [9]).acceptSync addCmd).Live ∧
    ((ring 4 2 [9]).acceptSync addCmd).turns = [] ∧ ((ring 4 2 [9]).acceptSync addCmd).portS.phase = .accepted ∧
    ((ring 4 2 [9]).acceptSync addCmd).command.decoded 16 = .ok (.addMessage 3) ∧
    ((ring 4 2 [9]).acceptSync addCmd).builderBusy = false ∧ 3 ≤ (3 : Byte).toNat ∧
    (ring 4 2 [9]).count + (3 : Byte).toNat ≤ (ring 4 2 [9]).size := by and_intros <;> decide

theorem witness_GetMessageStartStep :
    ((ring 4 2 []).Live ∧ (ring 4 2 []).RingOk ∧ (ring 4 2 []).parserBusy = false ∧
      (ring 4 2 []).count = 0) ∧
    ((ring 4 2 [0xAA]).RingOk ∧ (ring 4 2 [0xAA]).count ≠ 0 ∧
      (ring 4 2 [0xAA]).store.read 2 = some (ring 4 2 [0xAA]).cfg.startByte) ∧
    ((ring 4 2 [0x55]).RingOk ∧ (ring 4 2 [0x55]).store.read 2 = some 0x55 ∧
      (0x55 : Byte) ≠ (ring 4 2 [0x55]).cfg.startByte) := by and_intros <;> decide

theorem witness_OneOperationPerEngine :
    ((getting (ring 4 2 [1]) .awaitLength 0 0 0).Live ∧ (getting (ring 4 2 [1]) .awaitLength 0 0 0).parserBusy = true ∧
      (getting (ring 4 2 [1]) .awaitLength 0 0 0).builderBusy = false) ∧
    ((adding (ring 4 0 [1]) 3 1).RingOk ∧ (adding (ring 4 0 [1]) 3 1).builderBusy = true ∧
      (adding (ring 4 0 [1]) 3 1).parserBusy = false) := by and_intros <;> decide

theorem witness_GetMessageLengthStep :
    ((getting (ring 4 2 []) .awaitLength 0 0 0).Live ∧ (getting (ring 4 2 []) .awaitLength 0 0 0).RingOk ∧
      (getting (ring 4 2 []) .awaitLength 0 0 0).fstate = .awaitLength ∧
      (getting (ring 4 2 []) .awaitLength 0 0 0).count = 0) ∧
    ((getting (ring 4 2 [2]) .awaitLength 0 0 0).RingOk ∧ (ring 4 2 [2]).count ≠ 0 ∧ (2 : Byte).toNat < 3) ∧
    ((getting (ring 4 2 [3]) .awaitLength 0 0 0).RingOk ∧ (ring 4 2 [3]).store.read 2 = some 3) := by and_intros <;> decide

theorem witness_GetMessagePayloadStep :
    ((getting (ring 4 2 []) .consumePayload 255 254 0).Live ∧ (getting (ring 4 2 []) .consumePayload 255 254 0).RingOk ∧
      (ring 4 2 []).count = 0) ∧
    ((getting (ring 4 2 [9]) .consumePayload 3 2 0).RingOk ∧ (ring 4 2 [9]).count ≠ 0 ∧
      (getting (ring 4 2 [9]) .consumePayload 3 2 0).fidx.toNat <
        (getting (ring 4 2 [9]) .consumePayload 3 2 0).flen.toNat) := by and_intros <;> decide

theorem witness_GetMessageValidateStep :
    ((getting (ring 4 2 []) .validate 3 3 0).Live ∧ (getting (ring 4 2 []) .validate 3 3 0).fstate = .validate ∧
      (getting (ring 4 2 []) .validate 3 3 0).fxor = 0) ∧ (getting (ring 4 2 []) .validate 3 3 1).fxor ≠ 0 := by and_intros <;> decide

theorem witness_ParserMovesAlongItsTable :
    (getting (ring 4 2 [3]) .awaitLength 0 0 0).Inv ∧
    goes (step (getting (ring 4 2 [3]) .awaitLength 0 0 0)) (fun t => t.fstate == .consumePayload) = true ∧
    (getting (ring 4 2 [3]) .awaitLength 0 0 0).turns.head? ≠ some .hwReset := by and_intros <;> decide

theorem witness_GetMessageDeliversAValidFrame :
    (sHas (ring 4 2 [0xAA, 3, 0, 7]) 0x310000).Inv ∧ (sHas (ring 4 2 [0xAA, 3, 0, 7]) 0x310000).Live ∧
    (sHas (ring 4 2 [0xAA, 3, 0, 7]) 0x310000).turns = [] ∧
    (sHas (ring 4 2 [0xAA, 3, 0, 7]) 0x310000).portS.phase = .accepted ∧
    (sHas (ring 4 2 [0xAA, 3, 0, 7]) 0x310000).command.decoded 16 = .ok .getMessage ∧
    (sHas (ring 4 2 [0xAA, 3, 0, 7]) 0x310000).parserBusy = false ∧
    ValidFrame (ring 4 2 [0xAA, 3, 0, 7]).cfg.startByte 3 [0xAA, 3, 0] ∧
    (ring 4 2 [0xAA, 3, 0, 7]).contents = List.map some [0xAA, 3, 0] ++ [some 7] := by and_intros <;> decide

theorem witness_GetMessageRejectsABadChecksum :
    (sHas (ring 4 2 [0xAA, 3, 1, 7]) 0x310000).Inv ∧ [0xAA, 3, 1].length = (3 : Byte).toNat ∧
    ([0xAA, 3, 1] : List Byte)[0]? = some (ring 4 2 [0xAA, 3, 1, 7]).cfg.startByte ∧
    xorBytes ([0xAA, 3, 1].drop 2) ≠ 0 ∧
    (ring 4 2 [0xAA, 3, 1, 7]).contents = List.map some [0xAA, 3, 1] ++ [some 7] := by and_intros <;> decide

theorem witness_GetMessageDrainsAnIncompleteFrame :
    (sHas (ring 4 2 [0xAA, 3]) 0x310000).Inv ∧ 2 ≤ ([0xAA, 3] : List Byte).length ∧
    ([0xAA, 3] : List Byte).length < (3 : Byte).toNat ∧
    (ring 4 2 [0xAA, 3]).contents = List.map some [0xAA, 3] := by and_intros <;> decide

/-- `S` has accepted `ADD_MESSAGE 3, {AA 03 00}` on an empty ring and will issue GET_MESSAGE. -/
def addThenGet : State := { (ring 4 2 []).acceptSync addCmd with streamS := [.command (cmd 0x310000)] }

theorem witness_AddThenGetReturnsTheMessage :
    (ValidFrame 0xAA 3 [0xAA, 3, 0] ∧ ([0xAA, 3, 0] : List Byte)[2]? ≠ some 1) ∧
    (addThenGet.Inv ∧ addThenGet.Live ∧ addThenGet.turns = [] ∧ addThenGet.portA.phase = .free ∧
      addThenGet.portS.phase = .accepted ∧ addThenGet.portS.cmd.decoded 16 = .ok (.addMessage 3) ∧
      (cmd 0x310000).decoded 16 = .ok .getMessage ∧ addThenGet.count = 0 ∧
      (3 : Byte).toNat ≤ addThenGet.size ∧
      ValidFrame addThenGet.cfg.startByte 3 (addThenGet.portS.cmd.message 3)) := by and_intros <;> decide

theorem witness_AsyncRunsToItsEnd :
    (aHas (ring 4 0 [1]) 0x120000).portA.phase ≠ .free ∧ (aHas (ring 4 0 [1]) 0x120000).turns.head? ≠ some .hwReset ∧
    goes (step (aHas (ring 4 0 [1]) 0x120000)) (fun _ => true) = true := by and_intros <;> decide

theorem witness_AsyncWaitsWhileDisabled :
    { State.reset with streamA := [cmd 0x120000] }.ie = false ∧ State.reset.portA.phase = .free ∧
    goes (step { State.reset with streamA := [cmd 0x120000] }) (fun _ => true) = true := by and_intros <;> decide

theorem witness_RacedExactlyInsideAWindow :
    { sHas (ring 4 0 [1]) 0x120000 with ie := true, turns := [.async], streamA := [cmd 0x120000] }.Inv ∧
    (sHas (ring 4 0 [1]) 0x120000).swin = true ∧ (cmd 0x120000).decoded 16 = .ok .pop := by and_intros <;> decide

/-- `s` with a word of `S` still to be issued. -/
def sWill (s : State) (w : Nat) : State := { s with streamS := [.command (cmd w)] }

theorem witness_WindowOpensForPlainOperations :
    ((sWill (ring 4 0 [1]) 0x120000).portA.phase = .free ∧ (sWill (ring 4 0 [1]) 0x120000).portS.phase = .free ∧
      (sWill (ring 4 0 [1]) 0x120000).turns = [] ∧ (cmd 0x120000).decoded 16 = .ok .pop ∧
      goes (step (sWill (ring 4 0 [1]) 0x120000)) (fun t => t.swin) = true) ∧
    ((sWill (split_ (ring 4 0 [1])) 0x310000).portS.phase = .free ∧
      (sWill (split_ (ring 4 0 [1])) 0x310000).cfg.framerAtomicPrims = false ∧
      (cmd 0x310000).decoded 16 = .ok .getMessage ∧
      goes (step (sWill (split_ (ring 4 0 [1])) 0x310000)) (fun t => t.swin) = true) ∧
    ((cmd 0x1A0000).decoded 16 = .ok .popSafe ∧
      goes (step (sWill (ring 4 0 [1]) 0x1A0000)) (fun t => !t.swin) = true) ∧
    ((cmd 0x120001).decoded 16 = .error .reservedBitsSet ∧
      goes (step (sWill (ring 4 0 [1]) 0x120001)) (fun t => !t.swin) = true) := by
  and_intros <;> decide

theorem witness_OpenWindowShieldsTheRing :
    { sHas (ring 4 0 [1]) 0x120000 with turns := [.async], streamA := [cmd 0x120000] }.Inv ∧
    (sHas (ring 4 0 [1]) 0x120000).swin = true ∧
    goes (step { sHas (ring 4 0 [1]) 0x120000 with turns := [.async], streamA := [cmd 0x120000] })
      (fun _ => true) = true := by and_intros <;> decide

theorem witness_OnlyTheHostWritesIe :
    goes (step { State.reset with streamS := [.setIe true] }) (fun t => t.ie != State.reset.ie) = true := by decide

theorem witness_HostAndAgentMovesBegin :
    ({ State.reset with streamS := [.setIe true] }.portA.phase = .free ∧
      { State.reset with streamS := [.setIe true] }.portS.phase = .free) ∧
    ({ State.reset with ie := true, turns := [.async], streamA := [cmd 0x120000] }.turns.head? = some .async ∧
      { State.reset with ie := true, turns := [.async], streamA := [cmd 0x120000] }.swin = false) := by and_intros <;> decide

theorem witness_NoStepChangesTheParameters : goes (step State.reset) (fun _ => true) = true := by decide

theorem witness_RegistersChangeOnlyByTheirWriters :
    goes (exec (.setHighWm 1) (ring 4 0 [])) (fun t => t.highWatermark != (ring 4 0 []).highWatermark) = true := by decide

theorem witness_FailuresWriteOnlyWhatTheyMay :
    goes (exec .pop (ring 4 0 [])) (fun t => responds t 0x200000) = true ∧
    goes (exec (.initDynamic 1) (State.reset.acceptSync { cmd 0x020001 with grant := false })) (fun t =>
      responds t 0x400000) = true ∧
    goes (exec .getMessage (ring 4 0 [1])) (fun t => responds t 0x700000) = true := by and_intros <;> decide

theorem witness_EveryOperationEnds :
    (sHas (ring 4 2 [0xAA, 3]) 0x310000).Inv ∧ (sHas (ring 4 2 [0xAA, 3]) 0x310000).turns = [] ∧
    (sHas (ring 4 2 [0xAA, 3]) 0x310000).portS.phase ≠ .free ∧ (sHas (ring 4 2 [0xAA, 3]) 0x310000).OffsetsOk ∧
    ((getting (ring 4 2 [1]) .consumePayload 2 9 0).Inv ∧ ¬ (getting (ring 4 2 [1]) .consumePayload 2 9 0).OffsetsOk) := by
  and_intros <;> decide

theorem witness_TransientsAreForgotten :
    { ring 4 0 [1] with life := .dynamic }.life = .dynamic ∧
    { ring 4 0 [1] with life := .dynamic }.parserBusy = false ∧ { ring 4 0 [1] with life := .dynamic }.builderBusy = false ∧
    goes (exec .getMessage (ring 4 0 [1])) (fun t => decide (t.rsp ≠ none)) = true ∧
    goes (exec (.addMessage 3) (ring 4 0 [])) (fun t => t.blen == 3) = true ∧
    goes (parserStep (getting (ring 4 0 [2, 9]) .awaitLength 0 0 0)) (fun t => decide (t.rsp ≠ none)) = true ∧
    goes (parserStep (getting (ring 4 0 []) .consumePayload 9 4 0)) (fun t => decide (t.rsp ≠ none)) = true ∧
    goes (parserStep (getting (ring 4 0 []) .validate 9 9 0)) (fun t => decide (t.rsp ≠ none)) = true ∧
    goes (addMessageByte (adding (ring 4 0 [1]) 3 2)) (fun t => decide (t.rsp ≠ none)) = true ∧
    goes (addMessageByte (adding (ring 1 0 [1]) 3 1)) (fun t => responds t 0x100000) = true := by and_intros <;> decide

theorem witness_OffsetsStayInRange :
    ((adding (ring 4 0 []) 3 1).Inv ∧ (adding (ring 4 0 []) 3 1).OffsetsOk ∧
      goes (step (adding (ring 4 0 []) 3 1)) (fun t => t.bidx == 2) = true) ∧
    (getting (ring 4 2 [9]) .consumePayload 3 2 0).Inv ∧ (getting (ring 4 2 [9]) .consumePayload 3 2 0).OffsetsOk ∧
    goes (step (getting (ring 4 2 [9]) .consumePayload 3 2 0)) (fun t => t.fstate == .validate && t.fidx == 3) = true := by
  and_intros <;> decide

theorem witness_FramerMicroStepsAreBounded :
    goes (exec (.addMessage 3) (ring 4 0 [])) (fun t => t.rsp == none && t.blen == 3) = true ∧
    ((adding (ring 4 0 []) 3 1).OffsetsOk ∧ (adding (ring 4 0 []) 3 1).builderBusy = true ∧
      goes (addMessageByte (adding (ring 4 0 []) 3 1)) (fun t => t.rsp == none && t.bidx == 2) = true) ∧
    ((adding (ring 4 0 []) 3 2).OffsetsOk ∧
      goes (addMessageByte (adding (ring 4 0 []) 3 2)) (fun t => responds t 0x000000) = true) ∧
    goes (exec .getMessage (ring 4 0 [0xAA])) (fun t => t.rsp == none) = true ∧
    goes (parserStep (getting (ring 4 0 [3]) .awaitLength 0 0 0)) (fun t => t.rsp == none && t.flen == 3) = true ∧
    ((getting (ring 4 2 [9]) .consumePayload 3 2 0).OffsetsOk ∧
      goes (parserStep (getting (ring 4 2 [9]) .consumePayload 3 2 0)) (fun t => t.rsp == none && t.fidx == 3) = true) ∧
    ((getting (ring 4 2 [9]) .validate 3 3 0).OffsetsOk ∧
      goes (parserStep (getting (ring 4 2 [9]) .validate 3 3 0)) (fun t => responds t 0x000003) = true) := by and_intros <;> decide

theorem witness_TransientsInFlightAreKept :
    ({ aHas (getting (ring 4 0 [1]) .consumePayload 9 5 7) 0x010004 with turns := [.async] }.parserBusy = true ∧
      { aHas (getting (ring 4 0 [1]) .consumePayload 9 5 7) 0x010004 with turns := [.async] }.turns.head? ≠
        some .hwReset ∧
      goes (step { aHas (getting (ring 4 0 [1]) .consumePayload 9 5 7) 0x010004 with turns := [.async] })
        (fun t => t.size == 4 && t.count == 0 && t.fidx == 5) = true) ∧
    ((adding (ring 4 0 []) 3 1).builderBusy = true ∧
      goes (step (adding (ring 4 0 []) 3 1)) (fun t => t.bidx == 2) = true) := by and_intros <;> decide

theorem witness_DumpIsItsSequenceOfByteReads :
    (ring 4 3 [0x10, 0x20]).Live ∧ (ring 4 3 [0x10, 0x20]).RingOk ∧ (ring 4 3 [0x10, 0x20]).count = 2 := by
  and_intros <;> decide

theorem witness_EmptyAndFullExclude : (ring 4 2 [1]).RingOk ∧ (ring 0 0 []).RingOk := by and_intros <;> decide

end Sys2Proof.Tests
end

/-! The lifecycle operations INIT_STATIC, TEARDOWN and RESET (40_ring_lifecycle). -/

namespace Sys2Proof.Machine

/-! ## The command word of an operation without an operand -/

theorem encode_toNat_of_operand_eq_zero (W : Nat) {i : Instr} (h : i.operand = 0) :
    (encode W i).toNat = (opcodeOf i).toNat * 2 ^ W := by
  rw [Laws.encode_toNat (h ▸ Nat.two_pow_pos W), h, Nat.add_zero]

/-! ## The watermark condition, high before low (10_state R28) -/

theorem wm_eq_high_iff (s : State) : s.wm = .high ↔ s.highWatermark ≤ s.count := by
  unfold State.wm State.cmpHigh State.cmpLow
  split_ifs <;> simp_all

theorem wm_eq_low_iff (s : State) : s.wm = .low ↔ s.count < s.highWatermark ∧ s.count ≤ s.lowWatermark := by
  unfold State.wm State.cmpHigh State.cmpLow
  split_ifs <;> simp_all

/-! ## Frames -/

theorem sameControl_rfl (s : State) : s.SameControl s := ⟨rfl, rfl, rfl, rfl, rfl⟩

theorem sameIndices_rfl (s : State) : s.SameIndices s := ⟨rfl, rfl, rfl⟩

theorem sameOutside_rfl (s : State) : s.SameOutside s :=
  ⟨rfl, ⟨fun _ => rfl, rfl⟩, fun _ => rfl, rfl, rfl, rfl, rfl, rfl⟩

theorem sameRest_rfl (s : State) : s.SameRest s :=
  ⟨⟨rfl, rfl, rfl, rfl⟩, ⟨rfl, rfl⟩, sameOutside_rfl s |>.2⟩

theorem sameRest_answer {s u : State} (e : Status) (d : Nat) (h : s.SameRest u) : s.SameRest (u.answer e d) := h

theorem sameOutside_answer {s u : State} (e : Status) (d : Nat) (h : s.SameOutside u) :
    s.SameOutside (u.answer e d) := h

theorem sameOutside_initRing (s : State) (l : Life) (n h w : Nat) : s.SameOutside (s.initRing l n h w) :=
  sameOutside_rfl s

theorem sameOutside_voidRing (s : State) : s.SameOutside s.voidRing := sameOutside_rfl s

/-! ## What each operation answers, by `life` and the operand -/

theorem liveOnly_of_live {s : State} (h : s.Live) (k : Step) : liveOnly s k = k := if_neg h

theorem exec_initStatic_of_le {s : State} {n : Nat} (hl : s.life ≠ .dynamic) (hn : n ≤ s.cfg.storeBytes) :
    exec (.initStatic n) s = .next ((s.initRing .static n (staticHigh n) (staticLow n)).answer .ok 0) := by
  simp [exec, execInitStatic, hl, Nat.not_lt.mpr hn]

theorem exec_initStatic_of_dynamic {s : State} (n : Nat) (hl : s.life = .dynamic) :
    exec (.initStatic n) s = .refused .initOverDynamic := if_pos hl

theorem exec_initStatic_of_lt {s : State} {n : Nat} (hl : s.life ≠ .dynamic) (hn : s.cfg.storeBytes < n) :
    exec (.initStatic n) s = .refused .storeTooSmall := by
  simp [exec, execInitStatic, hl, hn]

theorem exec_teardown_of_dynamic {s : State} (hl : s.life = .dynamic) :
    exec .teardown s = .next (s.voidRing.answer .ok 0) := by
  simp [exec, execTeardown, hl]

theorem exec_teardown_of_uninit {s : State} (hl : s.life = .uninit) :
    exec .teardown s = .next (s.answer .ok 0) := by
  simp [exec, execTeardown, hl]

theorem exec_teardown_of_static {s : State} (hl : s.life = .static) :
    exec .teardown s = .refused .teardownStatic := by
  simp [exec, execTeardown, hl]

theorem exec_reset_of_live {s : State} (h : s.Live) :
    exec .reset s = .next ({ s with head := 0, tail := 0, count := 0 }.answer .ok 0) :=
  liveOnly_of_live h _

/-! ## The rings that INIT_STATIC and TEARDOWN leave -/

/-- R91's defaults on an empty ring: `wm` is High when the 75% threshold rounds down to 0, else Low. -/
theorem initRing_static_wm_high_iff (s : State) (n : Nat) :
    (s.initRing .static n (staticHigh n) (staticLow n)).wm = .high ↔ n ≤ 1 := by
  rw [wm_eq_high_iff, State.initRing_highWatermark, State.initRing_count, staticHigh]
  omega

theorem initRing_static_wm_low_iff (s : State) (n : Nat) :
    (s.initRing .static n (staticHigh n) (staticLow n)).wm = .low ↔ 2 ≤ n := by
  rw [wm_eq_low_iff, State.initRing_highWatermark, State.initRing_lowWatermark, State.initRing_count, staticHigh]
  omega

/-- R93: a TEARDOWN of a dynamic ring reads none of the ring's registers and no entry of `store`. -/
theorem exec_teardown_forgets_ring {s : State} (hl : s.life = .dynamic)
    (size head tail count high low : Nat) (overwrite : Bool) (store : Memory) :
    exec .teardown { s with
      size := size, head := head, tail := tail, count := count, highWatermark := high, lowWatermark := low,
      overwriteEnabled := overwrite, store := store } = exec .teardown s :=
  .trans (exec_teardown_of_dynamic hl) (exec_teardown_of_dynamic hl).symm

/-! ## The obligations -/

/-- Settles O14: R91's defaults are read off the ring that INIT_STATIC leaves. -/
theorem initStaticEffect : Obligations.InitStaticEffect := by
  intro s n
  refine ⟨fun hl hn => ⟨_, exec_initStatic_of_le hl hn, answered_answer .ok 0 rfl rfl rfl rfl, ?_⟩,
    exec_initStatic_of_dynamic n, exec_initStatic_of_lt, fun _ => Laws.encode_toNat (i := .initStatic n)⟩
  have hfull : ((s.initRing .static n (staticHigh n) (staticLow n)).answer .ok 0).full = true ↔ n = 0 :=
    (full_iff _).trans eq_comm
  exact ⟨rfl, rfl, rfl, rfl, rfl, rfl, rfl, rfl, memory_read_nil, rfl, hfull, initRing_static_wm_high_iff s n,
    initRing_static_wm_low_iff s n, sameOutside_answer .ok 0 (sameOutside_initRing s _ _ _ _)⟩

/-- Settles O16, by the three values of `life`. -/
theorem teardownEffect : Obligations.TeardownEffect := by
  intro s
  refine ⟨fun hl => ?dynamic, fun hl => ?uninit, exec_teardown_of_static,
    fun W => encode_toNat_of_operand_eq_zero W rfl⟩
  case dynamic =>
    exact ⟨exec_teardown_forgets_ring hl, _, exec_teardown_of_dynamic hl, answered_answer .ok 0 rfl rfl rfl rfl, rfl,
      memory_read_nil, sameOutside_answer .ok 0 (sameOutside_voidRing s)⟩
  case uninit =>
    exact ⟨_, exec_teardown_of_uninit hl, answered_answer .ok 0 rfl rfl rfl rfl, sameControl_rfl s, sameIndices_rfl s, rfl,
      sameRest_answer .ok 0 (sameRest_rfl s)⟩

/-- Settles O17: only the three indices and the response are written, `store` among what stays. -/
theorem resetCommandEffect : Obligations.ResetCommandEffect := by
  refine ⟨fun W => encode_toNat_of_operand_eq_zero W rfl, fun s hs => ⟨_, exec_reset_of_live hs,
    answered_answer .ok 0 rfl rfl rfl rfl, rfl, rfl, rfl, rfl, ?full, sameControl_rfl s, fun _ => rfl,
    sameRest_answer .ok 0 (sameRest_rfl s)⟩⟩
  case full => exact (full_iff _).trans eq_comm

end Sys2Proof.Machine

/-! The ring data operations (41_ring_data): the pushes, the pops, PEEK and the predicates. -/

namespace Sys2Proof.Machine

/-! ## The command word of an operation whose operand is no `W`-bit value -/

theorem encode_toNat_of_bounded {W : Nat} (hW : 8 ≤ W) {i : Instr} (h : i.format ≠ .V) :
    (encode W i).toNat = (opcodeOf i).toNat * 2 ^ W + i.operand :=
  Laws.encode_toNat (of_decide_eq_true (Laws.wellFormed_of_bounded hW h))

/-! ## The ring's registers under the invariant, and after a push or a pop -/

/-- On a full ring the next write slot is the oldest byte's. -/
theorem head_eq_tail_of_full {s : State} (h : s.RingOk) (hf : s.count = s.size) (hn : 0 < s.size) : s.head = s.tail := by
  have hpos := head_eq_physicalIndex h hn
  obtain ⟨-, hidx, -⟩ := h
  obtain ⟨-, ht, -⟩ := hidx hn
  rw [← hpos, State.physicalIndex, hf, Nat.add_mod_right, Nat.mod_eq_of_lt ht]

theorem pushed_empty (s : State) (b : Byte) : (s.pushed b).empty = false := rfl

theorem overwritten_full {s : State} (hf : s.count = s.size) (b : Byte) : (s.overwritten b).full = true :=
  (full_iff _).mpr hf

theorem popped_full {s : State} (h : s.RingOk) (hc : s.count ≠ 0) : s.popped.full = false := by
  have hle : s.count ≤ s.size := h.1
  have hne : s.count - 1 ≠ s.size := by omega
  exact beq_false_of_ne hne

/-! ## What the primitives answer on a ring that meets the invariant -/

theorem ringPush_of_full_overwrite {s : State} (h : s.RingOk) (hf : s.count = s.size) (h0 : s.size ≠ 0) (b : Byte) :
    ringPush true b s = .done () (s.overwritten b) := by
  obtain ⟨-, hidx, -⟩ := h
  obtain ⟨hh, -⟩ := hidx (Nat.pos_of_ne_zero h0)
  simp [ringPush, (full_iff s).mpr hf, h0, storeWrite, hh, Prim.andThen, State.overwritten]

theorem ringPush_of_full {s : State} (hf : s.count = s.size) (b : Byte) : ringPush false b s = .fail .full := by
  simp [ringPush, (full_iff s).mpr hf]

theorem ringPush_of_zero_size {s : State} (h : s.RingOk) (h0 : s.size = 0) (b : Byte) :
    ringPush true b s = .refused .zeroSize := by
  have hle : s.count ≤ s.size := h.1
  have hf : s.count = s.size := by omega
  simp [ringPush, (full_iff s).mpr hf, h0]

theorem ringPop_of_empty {s : State} (hc : s.count = 0) : ringPop s = .fail .empty :=
  if_pos ((empty_iff s).mpr hc)

theorem ringPeek_of_out_of_range {s : State} {n : Nat} (hn : s.count ≤ n) : ringPeek n s = .fail .outOfRange :=
  if_pos hn

/-- A PEEK at a valid position finds its byte. -/
theorem ringPeek_of_ringOk {s : State} (h : s.RingOk) {n : Nat} (hn : n < s.count) :
    ∃ b, s.store.read (s.physicalIndex n) = some b ∧ ringPeek n s = .done b s := by
  obtain ⟨hle, -, -, hread, -⟩ := h
  obtain ⟨b, hb⟩ := Option.isSome_iff_exists.mp (hread n hn)
  exact ⟨b, hb, (if_neg (Nat.not_le.mpr hn)).trans (storeRead_of_read (physicalIndex_lt s n (by omega)) hb)⟩

/-! ## The critical section (41 R119) -/

/-- A primitive's answer with `ie` set in its next state. -/
def Prim.withIe {α : Type} (v : Bool) (p : Prim α) : Prim α := p.andThen fun a t => .done a { t with ie := v }

theorem ringPush_withIe (o : Bool) (b : Byte) (v : Bool) (s : State) :
    ringPush o b { s with ie := v } = (ringPush o b s).withIe v := by
  unfold ringPush storeWrite
  simp only [State.full]
  split_ifs <;> rfl

theorem storeRead_withIe (i : Nat) (v : Bool) (s : State) :
    storeRead i { s with ie := v } = (storeRead i s).withIe v := by
  unfold storeRead
  by_cases hi : i < s.size
  · simp only [if_pos hi]
    cases s.store.read i <;> rfl
  · simp only [if_neg hi]
    rfl

theorem ringPop_withIe (v : Bool) (s : State) : ringPop { s with ie := v } = (ringPop s).withIe v := by
  by_cases hc : s.count = 0
  · rw [ringPop_of_empty hc]
    exact ringPop_of_empty hc
  · simp only [ringPop, State.empty, beq_iff_eq, if_neg hc, storeRead_withIe]
    cases storeRead s.tail s <;> rfl

/-- The critical section around a primitive that neither reads nor writes `ie` is that primitive alone. -/
theorem critical_answerPrim {α : Type} (p : State → Prim α) (data : α → Nat) (s : State)
    (hp : ∀ v, p { s with ie := v } = (p s).withIe v) :
    critical (fun c => answerPrim c (p c) data) s = answerPrim s (p s) data :=
  calc
    _ = answerPrim s ((p s).withIe s.ie) data := by
      simp only [critical, hp false]
      cases p s <;> rfl
    _ = _ := congrArg (answerPrim s · data) (hp s.ie).symm

theorem exec_pushSafe_eq_push (b : Byte) (s : State) : exec (.pushSafe b) s = exec (.push b) s :=
  congrArg (liveOnly s) (critical_answerPrim _ _ s fun v => ringPush_withIe s.overwriteEnabled b v s)

theorem exec_popSafe_eq_pop (s : State) : exec .popSafe s = exec .pop s :=
  congrArg (liveOnly s) (critical_answerPrim ringPop _ s fun v => ringPop_withIe v s)

/-! ## How a push and a pop end -/

theorem exec_push_next {b : Byte} {s t : State} (h : exec (.push b) s = .next t) :
    ∃ u e d, s.SamePorts u ∧ t = u.answer e d := by
  obtain ⟨-, h⟩ := liveOnly_next h
  obtain ⟨-, -, rfl⟩ | ⟨-, -, -, rfl⟩ | ⟨-, -, rfl⟩ := answerPush_next h
  · exact ⟨s.pushed b, _, _, samePorts_rfl s, rfl⟩
  · exact ⟨s.overwritten b, _, _, samePorts_rfl s, rfl⟩
  · exact ⟨s, _, _, samePorts_rfl s, rfl⟩

theorem exec_pop_next {s t : State} (h : exec .pop s = .next t) :
    ∃ u e d, s.SamePorts u ∧ t = u.answer e d := by
  obtain ⟨-, h⟩ := liveOnly_next h
  obtain ⟨-, rfl⟩ | ⟨b, -, -, rfl⟩ := answerPop_next h
  · exact ⟨s, _, _, samePorts_rfl s, rfl⟩
  · exact ⟨s.popped, _, _, samePorts_rfl s, rfl⟩

/-- After an answer the port of the agent that moved is free. -/
theorem answer_port_phase {s u : State} (hA : u.portA = s.portA) (e : Status) (d : Nat) :
    ((u.answer e d).port s.active).phase = .free := by
  rw [← State.active_congr hA]
  cases hu : u.active <;> simp [State.port, hu]

/-! ## What each answer leaves -/

/-- An answer that writes no register and no byte space of the block. -/
theorem answer_writes_nothing (s : State) (e : Status) (d : Nat) :
    s.Answered (s.answer e d) e.code.toNat d ∧ s.SameIndices (s.answer e d) ∧ s.SameStore (s.answer e d) ∧
      s.SameControl (s.answer e d) ∧ s.SameRest (s.answer e d) :=
  ⟨answered_answer e d rfl rfl rfl rfl, sameIndices_rfl s, fun _ => rfl, sameControl_rfl s,
    sameRest_answer e d (sameRest_rfl s)⟩

/-- `t` is `s` after a push onto a ring with room (41 R111). -/
abbrev State.StoredInto (s t : State) (b : Byte) : Prop :=
  s.Answered t 0x0 0 ∧ t.head = (s.head + 1) % s.size ∧ t.tail = s.tail ∧ t.count = s.count + 1 ∧
  t.store.read s.head = some b ∧ s.SameStoreBut t s.head ∧ t.empty = false ∧ s.SameControl t ∧ s.SameRest t

/-- `t` is `s` after a push that discards the oldest byte of a full ring (41 R111). -/
abbrev State.ReplacedInto (s t : State) (b : Byte) : Prop :=
  s.Answered t 0x0 0 ∧ t.head = (s.head + 1) % s.size ∧ t.tail = (s.tail + 1) % s.size ∧ t.count = s.count ∧
  t.head = t.tail ∧ t.store.read s.head = some b ∧ s.SameStoreBut t s.head ∧ t.full = true ∧ s.SameControl t ∧
  s.SameRest t

theorem storedInto_pushed (s : State) (b : Byte) : s.StoredInto ((s.pushed b).answer .ok 0) b :=
  ⟨answered_answer .ok 0 rfl rfl rfl rfl, rfl, rfl, rfl, memory_read_write_same s.store s.head b,
    fun _ => memory_read_write_of_ne s.store b, pushed_empty s b, sameControl_rfl s, sameRest_answer .ok 0 (sameRest_rfl s)⟩

theorem replacedInto_overwritten {s : State} (h : s.RingOk) (hf : s.count = s.size) (h0 : s.size ≠ 0) (b : Byte) :
    s.ReplacedInto ((s.overwritten b).answer .ok 0) b := by
  have hht : s.head = s.tail := head_eq_tail_of_full h hf (Nat.pos_of_ne_zero h0)
  exact ⟨answered_answer .ok 0 rfl rfl rfl rfl, rfl, rfl, rfl, congrArg (inc s.size) hht,
    memory_read_write_same s.store s.head b, fun _ => memory_read_write_of_ne s.store b, overwritten_full hf b,
    sameControl_rfl s, sameRest_answer .ok 0 (sameRest_rfl s)⟩

/-- A push onto a ring with room, whatever the policy. -/
theorem answerPush_stores {s : State} (h : s.RingOk) (hc : s.count ≠ s.size) (o : Bool) (b : Byte) :
    ∃ t, answerPrim s (ringPush o b s) (fun _ => 0) = .next t ∧ s.StoredInto t b := by
  rw [ringPush_of_room h (lt_of_le_of_ne h.1 hc)]
  exact ⟨_, rfl, storedInto_pushed s b⟩

/-- A push onto a full ring with the policy read as 1. -/
theorem answerPush_replaces {s : State} (h : s.RingOk) (hf : s.count = s.size) (h0 : s.size ≠ 0) (b : Byte) :
    ∃ t, answerPrim s (ringPush true b s) (fun _ => 0) = .next t ∧ s.ReplacedInto t b := by
  rw [ringPush_of_full_overwrite h hf h0]
  exact ⟨_, rfl, replacedInto_overwritten h hf h0 b⟩

/-! ## The operations on a live ring -/

theorem exec_push_of_live {s : State} (hl : s.Live) (b : Byte) :
    exec (.push b) s = answerPrim s (ringPush s.overwriteEnabled b s) fun _ => 0 := liveOnly_of_live hl _

theorem exec_pushOvw_of_live {s : State} (hl : s.Live) (b : Byte) :
    exec (.pushOvw b) s = answerPrim s (ringPush true b s) fun _ => 0 := liveOnly_of_live hl _

theorem exec_pop_of_live {s : State} (hl : s.Live) : exec .pop s = answerPrim s (ringPop s) zextByte :=
  liveOnly_of_live hl _

theorem exec_peek_of_live {s : State} (hl : s.Live) (n : Nat) :
    exec (.peek n) s = answerPrim s (ringPeek n s) zextByte := liveOnly_of_live hl _

theorem exec_isEmpty_of_live {s : State} (hl : s.Live) :
    exec .isEmpty s = .next (s.answer .ok (if s.count = 0 then 1 else 0)) := by
  simp [exec, execIsEmpty, liveOnly_of_live hl, boolCode, empty_iff]

theorem exec_isFull_of_live {s : State} (hl : s.Live) :
    exec .isFull s = .next (s.answer .ok (if s.count = s.size then 1 else 0)) := by
  simp [exec, execIsFull, liveOnly_of_live hl, boolCode, full_iff]

/-! ## The obligations -/

/-- Settles O19: PUSH_SAFE is PUSH, and the four clauses are the four answers of a push under the policy. -/
theorem pushEffect : Obligations.PushEffect := by
  intro s b i hi hl hr
  have hexec : exec i s = answerPrim s (ringPush s.overwriteEnabled b s) fun _ => 0 := by
    obtain rfl | rfl := hi
    · exact exec_push_of_live hl b
    · exact (exec_pushSafe_eq_push b s).trans (exec_push_of_live hl b)
  rw [hexec]
  refine ⟨fun hc => answerPush_stores hr hc _ b, fun hf ho => ?full, fun hf ho h0 => ?overwrite, fun h0 ho => ?zero,
    fun W hW => encode_toNat_of_bounded hW nofun, fun W hW => encode_toNat_of_bounded hW nofun, rfl⟩
  case full =>
    rw [ho, ringPush_of_full hf]
    exact ⟨_, rfl, answer_writes_nothing s .full 0⟩
  case overwrite =>
    rw [ho]
    exact answerPush_replaces hr hf h0 b
  case zero =>
    rw [ho, ringPush_of_zero_size hr h0]
    rfl

/-- Settles O20: the clauses of PUSH with the policy read as 1. -/
theorem pushOvwEffect : Obligations.PushOvwEffect := by
  intro s b hl hr
  rw [exec_pushOvw_of_live hl]
  refine ⟨fun hc => answerPush_stores hr hc true b, fun hf h0 => answerPush_replaces hr hf h0 b, fun h0 => ?zero,
    fun W hW => encode_toNat_of_bounded hW nofun⟩
  case zero =>
    rw [ringPush_of_zero_size hr h0]
    rfl

/-- Settles O21: POP_SAFE is POP, by whether the ring is empty. -/
theorem popEffect : Obligations.PopEffect := by
  refine ⟨fun W => encode_toNat_of_operand_eq_zero W rfl, fun W => encode_toNat_of_operand_eq_zero W rfl, fun _ => rfl,
    fun s i hi hl hr => ?_⟩
  have hexec : exec i s = answerPrim s (ringPop s) zextByte := by
    obtain rfl | rfl := hi
    · exact exec_pop_of_live hl
    · exact (exec_popSafe_eq_pop s).trans (exec_pop_of_live hl)
  rw [hexec]
  refine ⟨fun hc => ?empty, fun hc => ?popped⟩
  case empty =>
    rw [ringPop_of_empty hc]
    exact ⟨_, rfl, answer_writes_nothing s .empty 0⟩
  case popped =>
    obtain ⟨b, hb, -, hpop⟩ := ringPop_of_ringOk hr hc
    rw [hpop]
    exact ⟨_, b, hb, rfl, answered_answer .ok _ rfl rfl rfl rfl, rfl, Nat.sub_add_cancel (Nat.pos_of_ne_zero hc), rfl,
      fun _ => rfl, popped_full hr hc, sameControl_rfl s, sameRest_answer .ok _ (sameRest_rfl s)⟩

/-- Settles O22, by whether the position is below `count`. -/
theorem peekEffect : Obligations.PeekEffect := by
  intro s n hl hr
  rw [exec_peek_of_live hl]
  refine ⟨fun _ => Laws.encode_toNat (i := .peek n), fun hn => ?outOfRange, fun hn => ?valid⟩
  case outOfRange =>
    rw [ringPeek_of_out_of_range hn]
    exact ⟨_, rfl, answer_writes_nothing s .outOfRange 0⟩
  case valid =>
    obtain ⟨b, hb, hpeek⟩ := ringPeek_of_ringOk hr hn
    rw [hpeek]
    exact ⟨_, b, hb, rfl, answer_writes_nothing s .ok b.toNat⟩

/-- Settles O24: the critical section adds nothing to a primitive that leaves `ie` alone, and a push or a pop ends in
its one micro-step. -/
theorem safeFormsDoWhatThePlainFormsDo : Obligations.SafeFormsDoWhatThePlainFormsDo := by
  intro s b
  refine ⟨exec_pushSafe_eq_push b s, exec_popSafe_eq_pop s, fun i hi => ⟨?window, fun t ht => ?ends⟩⟩
  case window => obtain rfl | rfl := hi <;> rfl
  case ends =>
    have hend : ∃ u e d, s.SamePorts u ∧ t = u.answer e d := by
      obtain rfl | rfl := hi
      · exact exec_push_next (exec_pushSafe_eq_push b s ▸ ht)
      · exact exec_pop_next (exec_popSafe_eq_pop s ▸ ht)
    obtain ⟨u, e, d, ⟨hA, -, -, -, hie, -⟩, rfl⟩ := hend
    exact ⟨hie, answer_port_phase hA e d⟩

/-- Settles O23: each predicate is one answer that writes nothing. -/
theorem predicatesAnswer : Obligations.PredicatesAnswer :=
  ⟨fun W => encode_toNat_of_operand_eq_zero W rfl, fun W => encode_toNat_of_operand_eq_zero W rfl,
    fun _ => ⟨rfl, rfl⟩, fun s hl =>
      ⟨⟨_, exec_isEmpty_of_live hl, answer_writes_nothing s .ok _⟩,
        ⟨_, exec_isFull_of_live hl, answer_writes_nothing s .ok _⟩⟩⟩

end Sys2Proof.Machine

/-! The configuration operations and CHECK_WM (42_ring_config_watermarks). -/

namespace Sys2Proof.Machine

/-! ## The comparators and the watermark code (10_state R28, 30_encoding R72) -/

theorem cmpHigh_iff (s : State) : s.cmpHigh = true ↔ s.highWatermark ≤ s.count := decide_eq_true_iff

theorem cmpLow_iff (s : State) : s.cmpLow = true ↔ s.count ≤ s.lowWatermark := decide_eq_true_iff

theorem wm_code (s : State) :
    s.wm.code = if s.highWatermark ≤ s.count then 2 else if s.count ≤ s.lowWatermark then 1 else 0 := by
  simp only [State.wm, cmpHigh_iff, cmpLow_iff]
  split_ifs <;> rfl

/-! ## A threshold setter's range check -/

theorem checkThreshold_of_le {s : State} {v : Nat} (hv : v ≤ s.size) : checkThreshold v s = .done () s :=
  if_neg (Nat.not_lt.mpr hv)

theorem checkThreshold_of_lt {s : State} {v : Nat} (hv : s.size < v) : checkThreshold v s = .fail .outOfRange :=
  if_pos hv

/-! ## The operations on a live ring -/

theorem exec_setHighWm_of_le {s : State} {v : Nat} (hl : s.Live) (hv : v ≤ s.size) :
    exec (.setHighWm v) s = .next ({ s with highWatermark := v }.answer .ok 0) := by
  simp [exec, execSetHighWm, liveOnly_of_live hl, checkThreshold_of_le hv, Prim.finish]

theorem exec_setLowWm_of_le {s : State} {v : Nat} (hl : s.Live) (hv : v ≤ s.size) :
    exec (.setLowWm v) s = .next ({ s with lowWatermark := v }.answer .ok 0) := by
  simp [exec, execSetLowWm, liveOnly_of_live hl, checkThreshold_of_le hv, Prim.finish]

theorem exec_threshold_of_lt {s : State} {v : Nat} {i : Instr} (hi : i = .setHighWm v ∨ i = .setLowWm v)
    (hl : s.Live) (hv : s.size < v) : exec i s = .next (s.answer .outOfRange 0) := by
  obtain rfl | rfl := hi
  · simp [exec, execSetHighWm, liveOnly_of_live hl, checkThreshold_of_lt hv, Prim.finish]
  · simp [exec, execSetLowWm, liveOnly_of_live hl, checkThreshold_of_lt hv, Prim.finish]

theorem exec_checkWm_of_live {s : State} (hl : s.Live) : exec .checkWm s = .next (s.answer .ok s.wm.code) :=
  liveOnly_of_live hl _

theorem exec_setOverwrite_of_live {s : State} (hl : s.Live) (e : Bool) :
    exec (.setOverwrite e) s = .next ({ s with overwriteEnabled := e }.answer .ok 0) := liveOnly_of_live hl _

/-! ## The obligations -/

/-- Settles O27, by the setters' range check: in range each writes its one threshold, above `size` neither writes. -/
theorem setThresholdEffect : Obligations.SetThresholdEffect := by
  intro s v hl
  refine ⟨fun _ => Laws.encode_toNat (i := .setHighWm v), fun _ => Laws.encode_toNat (i := .setLowWm v), rfl, rfl,
    fun hv => ⟨?high, ?low⟩, fun hv i hi => ?outOfRange⟩
  case high =>
    exact ⟨_, exec_setHighWm_of_le hl hv, answered_answer .ok 0 rfl rfl rfl rfl, rfl, cmpHigh_iff _, rfl, rfl, rfl,
      rfl, sameIndices_rfl s, fun _ => rfl, sameRest_answer .ok 0 (sameRest_rfl s)⟩
  case low =>
    exact ⟨_, exec_setLowWm_of_le hl hv, answered_answer .ok 0 rfl rfl rfl rfl, rfl, cmpLow_iff _, rfl, rfl, rfl,
      rfl, sameIndices_rfl s, fun _ => rfl, sameRest_answer .ok 0 (sameRest_rfl s)⟩
  case outOfRange =>
    obtain ⟨hans, hidx, hstore, hctl, hrest⟩ := answer_writes_nothing s .outOfRange 0
    exact ⟨_, exec_threshold_of_lt hi hl hv, hans, hctl, hidx, hstore, hrest⟩

/-- Settles O28: CHECK_WM is one answer, with the code of `wm`, that writes nothing. -/
theorem checkWatermarksAnswer : Obligations.CheckWatermarksAnswer := by
  refine ⟨fun W => encode_toNat_of_operand_eq_zero W rfl, fun _ => rfl, fun s hl => ?_⟩
  obtain ⟨hans, hidx, hstore, hctl, hrest⟩ := answer_writes_nothing s .ok s.wm.code
  exact ⟨_, exec_checkWm_of_live hl, wm_code s ▸ hans, hctl, hidx, hstore, hrest⟩

/-- Settles O26: only the policy and the response are written. -/
theorem setOverwriteEffect : Obligations.SetOverwriteEffect := by
  refine ⟨fun W e hW => ?word, fun s e hl => ⟨rfl, _, exec_setOverwrite_of_live hl e,
    answered_answer .ok 0 rfl rfl rfl rfl, rfl, rfl, rfl, rfl, rfl, sameIndices_rfl s, fun _ => rfl,
    sameRest_answer .ok 0 (sameRest_rfl s)⟩⟩
  case word =>
    have hword := encode_toNat_of_bounded hW (i := .setOverwrite e) nofun
    cases e <;> exact hword

end Sys2Proof.Machine

/-! The message framer's first micro-steps and the two operations whole (43_framer). -/

namespace Sys2Proof.Machine

/-! ## The exclusive-or of a list of bytes (30_encoding R61) -/

theorem xorBytes_append_singleton (l : List Byte) (b : Byte) : xorBytes (l ++ [b]) = xorBytes l ^^^ b := by
  simp [xorBytes]

theorem xorBytes_cons (a : Byte) (l : List Byte) : xorBytes (a :: l) = a ^^^ xorBytes l := by
  rw [xorBytes, List.foldl_cons, BitVec.xor_comm, List.foldl_assoc, xorBytes]

/-- Replacing one byte changes the exclusive-or by the difference of the two bytes. -/
theorem xorBytes_set {l : List Byte} {k : Nat} {a : Byte} (h : l[k]? = some a) (b : Byte) :
    xorBytes (l.set k b) = a ^^^ b ^^^ xorBytes l := by
  induction l generalizing k with
  | nil => simp at h
  | cons c l ih =>
    cases k with
    | zero =>
      obtain rfl : c = a := by simpa using h
      simp only [List.set_cons_zero, xorBytes_cons]
      rw [BitVec.xor_comm c b, BitVec.xor_assoc, ← BitVec.xor_assoc c, BitVec.xor_self, BitVec.zero_xor]
    | succ k =>
      simp only [List.set_cons_succ, xorBytes_cons, ih (by simpa using h)]
      ac_rfl

/-- A frame's payload has exclusive-or zero, so with one byte of it changed it does not (43 R174). -/
theorem xorBytes_ne_zero_of_set {m : List Byte} {k : Nat} {b : Byte} (hx : xorBytes (m.drop 2) = 0) (hk : 2 ≤ k)
    (hm : k < m.length) (hb : m[k]? ≠ some b) : xorBytes ((m.set k b).drop 2) ≠ 0 := by
  obtain ⟨j, rfl⟩ := Nat.exists_eq_add_of_le hk
  have ha : (m.drop 2)[j]? = some m[2 + j] := by simp [hm]
  have hset : (m.set (2 + j) b).drop 2 = (m.drop 2).set j b := by
    rw [List.drop_set, if_neg (by omega), Nat.add_sub_cancel_left]
  intro h0
  have hab : m[2 + j] ^^^ b = 0 := by simpa [hset, xorBytes_set ha, hx] using h0
  exact hb (by rw [List.getElem?_eq_getElem hm, BitVec.xor_eq_zero_iff.mp hab])

/-! ## Frames -/

theorem sameBuilder_rfl (s : State) : s.SameBuilder s := ⟨rfl, rfl⟩

theorem sameOutput_rfl (s : State) : s.SameOutput s := ⟨fun _ => rfl, rfl⟩

theorem sameDiag_rfl (s : State) : s.SameDiag s := fun _ => rfl

theorem sameStore_rfl (s : State) : s.SameStore s := fun _ => rfl

theorem sameEnvironment_rfl (s : State) : s.SameEnvironment s := ⟨rfl, rfl, rfl, rfl, rfl⟩

/-! ## Bytes as numbers -/

theorem byte_lt_minLen_iff (b : Byte) : b < minLen ↔ b.toNat < 3 := by
  simp [minLen, BitVec.lt_def]

/-- An offset below a length does not wrap (10_state R22, R24). -/
theorem byte_succ_toNat {i n : Byte} (h : i.toNat < n.toNat) : (i + 1).toNat = i.toNat + 1 := by bv_omega

theorem byte_succ_eq_iff {i n : Byte} (h : i.toNat < n.toNat) : i + 1 = n ↔ i.toNat + 1 = n.toNat := by bv_omega

/-! ## The output buffer -/

/-- `new` holds `l` from entry 0 on, and is `old` above it. -/
def Memory.Holds (old new : Memory) (l : List Byte) : Prop :=
  (∀ k, k < l.length → new.read k = l[k]?) ∧ ∀ k, l.length ≤ k → new.read k = old.read k

theorem memory_holds_nil (m : Memory) : Memory.Holds m m [] := ⟨nofun, fun _ _ => rfl⟩

theorem memory_holds_write {old new : Memory} {l : List Byte} (h : Memory.Holds old new l) (b : Byte) :
    Memory.Holds old (new.write l.length b) (l ++ [b]) := by
  obtain ⟨hlow, hhigh⟩ := h
  refine ⟨fun k hk => ?below, fun k hk => ?above⟩
  case below =>
    rw [memory_read_write]
    split_ifs with hkl
    · simp [hkl]
    · have hk' : k < l.length := by simp at hk; omega
      rw [hlow k hk', List.getElem?_append_left hk']
  case above =>
    have hk' : l.length < k := by simpa using hk
    rw [memory_read_write_of_ne new b (by omega), hhigh k hk'.le]

/-- What P1 writes to `obuf` (43 R167). -/
theorem memory_holds_header (m : Memory) (start len : Byte) :
    Memory.Holds m ((m.write 0 start).write 1 len) [start, len] :=
  memory_holds_write (memory_holds_write (memory_holds_nil m) start) len

/-! ## The parser's micro-steps, one equation for each answer -/

/-- A GET_MESSAGE while the parser is in use (43 R175). -/
theorem exec_getMessage_of_busy {s : State} (hl : s.Live) (hp : s.parserBusy = true) :
    exec .getMessage s = .refused .engineBusy := by
  simp only [exec, execGetMessage, liveOnly_of_live hl, hp, if_true]

/-- Micro-step P0 on an empty ring. -/
theorem exec_getMessage_of_empty {s : State} (hl : s.Live) (hp : s.parserBusy = false) (hc : s.count = 0) :
    exec .getMessage s = .next (s.voidParser.answer .empty 0) := by
  have hpop : ringPop { s with fstate := .awaitStart } = .fail .empty := ringPop_of_empty hc
  simp only [exec, execGetMessage, liveOnly_of_live hl, hp, hpop]
  rfl

/-- Micro-step P0 when a byte is popped; that `fstate` is AwaitStart meanwhile is seen by nobody (43 R166). -/
theorem exec_getMessage_of_pop {s : State} {b : Byte} (hl : s.Live) (hp : s.parserBusy = false)
    (hpop : ringPop { s with fstate := .awaitStart } = .done b { s with fstate := .awaitStart }.popped) :
    exec .getMessage s = .next (s.popped.startPopped b) := by
  simp only [exec, execGetMessage, liveOnly_of_live hl, hp, hpop]
  rfl

theorem startPopped_of_start {s : State} {b : Byte} (h : b = s.cfg.startByte) :
    s.startPopped b = { s with fstate := .awaitLength }.pause .parsing := if_pos h

/-- Micro-step P0 when the byte popped is START. -/
theorem exec_getMessage_of_start {s : State} {b : Byte} (hl : s.Live) (hp : s.parserBusy = false)
    (hb : b = s.cfg.startByte)
    (hpop : ringPop { s with fstate := .awaitStart } = .done b { s with fstate := .awaitStart }.popped) :
    exec .getMessage s = .next ({ s.popped with fstate := .awaitLength }.pause .parsing) :=
  (exec_getMessage_of_pop hl hp hpop).trans (congrArg _ (startPopped_of_start hb))

theorem startPopped_of_other {s : State} {b : Byte} (h : b ≠ s.cfg.startByte) :
    s.startPopped b = s.voidParser.answer .invalidStart 0 := if_neg h

/-- Micro-steps P1 and on when the ring has run dry. -/
theorem parserStep_of_dry {s : State} (hl : s.Live) (hf : s.fstate = .awaitLength ∨ s.fstate = .consumePayload)
    (hc : s.count = 0) : parserStep s = .next (s.voidParser.answer .incomplete 0) := by
  obtain hf | hf := hf <;> simp only [parserStep, liveOnly_of_live hl, hf, ringPop_of_empty hc] <;> rfl

theorem parserStep_of_awaitLength {s : State} {b : Byte} (hl : s.Live) (hf : s.fstate = .awaitLength)
    (hpop : ringPop s = .done b s.popped) : parserStep s = .next (s.popped.lengthPopped b) := by
  simp only [parserStep, liveOnly_of_live hl, hf, hpop, Prim.finish]

theorem parserStep_of_consumePayload {s : State} {b : Byte} (hl : s.Live) (hf : s.fstate = .consumePayload)
    (hpop : ringPop s = .done b s.popped) : parserStep s = .next (s.popped.payloadPopped b) := by
  simp only [parserStep, liveOnly_of_live hl, hf, hpop, Prim.finish]

theorem parserStep_of_validate {s : State} (hl : s.Live) (hf : s.fstate = .validate) :
    parserStep s = .next s.validated := by
  simp only [parserStep, liveOnly_of_live hl, hf]

theorem lengthPopped_of_short {s : State} {b : Byte} (h : b.toNat < 3) :
    s.lengthPopped b = s.voidParser.answer .invalidLength 0 := if_pos ((byte_lt_minLen_iff b).mpr h)

theorem lengthPopped_of_valid {s : State} {b : Byte} (h : 3 ≤ b.toNat) :
    s.lengthPopped b =
      { s with
        flen := b
        obuf := (s.obuf.write 0 s.cfg.startByte).write 1 b
        fidx := 2
        fxor := 0
        fstate := .consumePayload }.pause .parsing :=
  if_neg ((byte_lt_minLen_iff b).not.mpr (Nat.not_lt.mpr h))

theorem validated_of_zero {s : State} (h : s.fxor = 0) :
    s.validated = { s with olen := s.flen }.voidParser.answer .ok s.flen.toNat := if_pos h

theorem validated_of_ne_zero {s : State} (h : s.fxor ≠ 0) :
    s.validated = s.voidParser.answer .checksumMismatch 0 := if_neg h

/-! ## Runs of the machine -/

/-- A run that goes on is a step and the run after it. -/
theorem core_run_succ_iff {M : Host.Core} {n : Nat} {s u : M.State} :
    M.run (n + 1) s = .next u ↔ ∃ t, M.step s = .next t ∧ M.run n t = .next u := by
  cases hs : M.step s <;> simp [Host.Core.run, hs]

/-- `n` steps of the machine lead from `s` to `t`. -/
def State.Reaches (s : State) (n : Nat) (t : State) : Prop := Host.Core.run Sys2Proof.core n s = .next t

theorem reaches_zero (s : State) : s.Reaches 0 s := rfl

theorem reaches_succ_iff {s u : State} {n : Nat} : s.Reaches (n + 1) u ↔ ∃ t, step s = .next t ∧ t.Reaches n u :=
  core_run_succ_iff (M := Sys2Proof.core)

theorem reaches_one_of_step {s t : State} (h : step s = .next t) : s.Reaches 1 t :=
  reaches_succ_iff.mpr ⟨t, h, reaches_zero t⟩

theorem reaches_trans {s t u : State} {m n : Nat} (h : s.Reaches m t) (h' : t.Reaches n u) : s.Reaches (m + n) u := by
  induction m generalizing s with
  | zero =>
    cases h
    rwa [Nat.zero_add]
  | succ m ih =>
    obtain ⟨v, hv, hvt⟩ := reaches_succ_iff.mp h
    rw [Nat.succ_add]
    exact reaches_succ_iff.mpr ⟨v, hv, ih hvt⟩

/-- A passage of `c` steps that takes `P j` to `P (j + 1)` for every `j < n`, gone through `n` times. -/
theorem reaches_iterate {P : Nat → State → Prop} {c n : Nat}
    (hstep : ∀ j t, j < n → P j t → ∃ u, t.Reaches c u ∧ P (j + 1) u) {s : State} (h : P 0 s) :
    ∃ u, s.Reaches (c * n) u ∧ P n u := by
  induction n with
  | zero => exact ⟨s, reaches_zero s, h⟩
  | succ n ih =>
    obtain ⟨t, ht, hPt⟩ := ih fun j t hj => hstep j t (by omega)
    obtain ⟨u, hu, hPu⟩ := hstep n t (by omega) hPt
    exact ⟨u, Nat.mul_succ c n ▸ reaches_trans ht hu, hPu⟩

/-! ## A later micro-step of the framer, with the race window it may have (20_memory R53, log 10) -/

/-- How many steps a later micro-step of the framer takes when nothing intervenes. -/
def State.microSteps (s : State) : Nat := if s.portA.phase = .free ∧ s.cfg.framerAtomicPrims = false then 2 else 1

theorem framerSteps_eq (s : State) (n : Nat) : s.framerSteps n = 1 + s.microSteps * n := by
  unfold State.framerSteps State.microSteps
  split_ifs <;> omega

/-- The state in which that micro-step is performed: its race window is open if it has one. -/
def State.windowed (s : State) : State :=
  { s with
    rsp := none
    swin := if s.portA.phase = .free ∧ s.cfg.framerAtomicPrims = false then true else s.swin }

theorem windowed_command (s : State) : s.windowed.command = s.command := rfl

theorem taken_of_no_turns {s : State} (h : s.turns = []) : s.taken = { s with rsp := none } := by
  simp [State.taken, h]

/-- With no turn given, a command accepted from the agent that moves is performed. -/
theorem step_of_accepted {s : State} {i : Instr} (ht : s.turns = []) (hp : (s.port s.active).phase = .accepted)
    (hd : s.command.decoded s.cfg.width = .ok i) : step s = exec i { s with rsp := none } := by
  rw [step_of_activeMoves (.inl ht) (by simp [hp]), taken_of_no_turns ht]
  have hp' : ({ s with rsp := none }.port { s with rsp := none }.active).phase = .accepted := hp
  have hd' : { s with rsp := none }.command.decoded s.cfg.width = .ok i := hd
  simp only [advance, hp', runCommand, hd']

/-- With no turn given, the operation in progress goes on with its next micro-step `k`. -/
theorem step_of_framer_phase {s : State} {k : State → Step} (ht : s.turns = [])
    (hk : (s.port s.active).phase = .building ∧ k = addMessageByte ∨
      (s.port s.active).phase = .parsing ∧ k = parserStep) : step s = framerStep k { s with rsp := none } := by
  have hb : (s.port s.active).phase ≠ .free := by obtain ⟨hp, -⟩ | ⟨hp, -⟩ := hk <;> simp [hp]
  rw [step_of_activeMoves (.inl ht) hb, taken_of_no_turns ht]
  have hport : { s with rsp := none }.port { s with rsp := none }.active = s.port s.active := rfl
  obtain ⟨hp, rfl⟩ | ⟨hp, rfl⟩ := hk <;> simp only [advance, hport, hp]

/-- That micro-step, with its race window if it has one, is performed in the steps counted. -/
theorem reaches_microSteps {s t : State} {k : State → Step} (ht : s.turns = [])
    (hk : (s.port s.active).phase = .building ∧ k = addMessageByte ∨
      (s.port s.active).phase = .parsing ∧ k = parserStep)
    (hw : s.portA.phase = .free → s.swin = false) (h : k s.windowed = .next t) : s.Reaches s.microSteps t := by
  have hstep := step_of_framer_phase ht hk
  by_cases hc : s.portA.phase = .free ∧ s.cfg.framerAtomicPrims = false
  · obtain ⟨hA, hprims⟩ := hc
    have hopen : step s = .next s.windowed := by
      rw [hstep]
      simp [framerStep, State.windowed, State.active, hA, hprims, hw hA]
    have hperform : step s.windowed = .next t := by
      rw [step_of_framer_phase (s := s.windowed) ht hk, ← h]
      simp [framerStep, State.windowed, hA, hprims]
    rw [State.microSteps, if_pos ⟨hA, hprims⟩]
    exact reaches_succ_iff.mpr ⟨_, hopen, reaches_one_of_step hperform⟩
  · have hwin : s.windowed = { s with rsp := none } := by simp only [State.windowed, if_neg hc]
    rw [State.microSteps, if_neg hc]
    obtain ⟨hact, hprims, -, -⟩ | ⟨-, hperform⟩ := framerStep_cases k { s with rsp := none }
    · exact absurd ⟨State.active_eq_sync.mp hact, hprims⟩ hc
    · exact reaches_one_of_step (by rw [hstep, hperform, ← hwin, h])

/-! ## The agent that moves, over several micro-steps -/

theorem active_of_moved {s t : State} {p : Phase} (h : s.Moved t p) (hp : p ≠ .free) : t.active = s.active := by
  obtain ⟨hasync, hsync⟩ := h
  by_cases hA : s.portA.phase = .free
  · obtain ⟨-, hA', -⟩ := hsync hA
    exact State.active_congr hA'
  · obtain ⟨hA', -⟩ := hasync hA
    simp [State.active, hA', hp, hA]

theorem port_of_moved {s t : State} {p : Phase} (h : s.Moved t p) (hp : p ≠ .free) :
    t.port t.active = { phase := p, cmd := s.command } := by
  rw [active_of_moved h hp]
  obtain ⟨hasync, hsync⟩ := h
  obtain ⟨hA, hact, -⟩ | ⟨hA, hact, -⟩ := active_cases s
  · simp [State.command, hact, State.port, hsync hA]
  · simp [State.command, hact, State.port, hasync hA]

theorem phase_of_moved {s t : State} {p : Phase} (h : s.Moved t p) (hp : p ≠ .free) :
    (t.port t.active).phase = p := by rw [port_of_moved h hp]

theorem command_of_moved {s t : State} {p : Phase} (h : s.Moved t p) (hp : p ≠ .free) : t.command = s.command := by
  rw [State.command, port_of_moved h hp]

theorem swin_of_moved {s t : State} {p : Phase} (h : s.Moved t p) (hp : p ≠ .free) (hA : t.portA.phase = .free) :
    t.swin = false := by
  obtain ⟨hasync, hsync⟩ := h
  by_cases hs : s.portA.phase = .free
  · exact (hsync hs).2.2
  · simp [(hasync hs).1, hp] at hA

theorem moved_trans {s t u : State} {p q : Phase} (h : s.Moved t p) (hp : p ≠ .free) (h' : t.windowed.Moved u q) :
    s.Moved u q := by
  obtain ⟨hasync, hsync⟩ := h
  obtain ⟨hasync', hsync'⟩ := h'
  refine ⟨fun hs => ?async, fun hs => ?sync⟩
  case async =>
    obtain ⟨hA, hS, hw⟩ := hasync hs
    have ht : t.portA.phase ≠ .free := by rwa [hA]
    obtain ⟨hA', hS', hw'⟩ := hasync' ht
    have hcmd : t.portA.cmd = s.portA.cmd := by rw [hA]
    have hwin : t.windowed.swin = t.swin := if_neg fun hc => ht hc.1
    exact ⟨hA'.trans (congrArg (Port.mk q) hcmd), hS'.trans hS, hw'.trans (hwin.trans hw)⟩
  case sync =>
    obtain ⟨hS, hA, -⟩ := hsync hs
    have hcmd : t.portS.cmd = s.portS.cmd := by rw [hS]
    obtain ⟨hS', hA', hw'⟩ := hsync' (show t.portA.phase = .free from hA ▸ hs)
    exact ⟨hS'.trans (congrArg (Port.mk q) hcmd), hA'.trans hA, hw'⟩

theorem answered_trans {s t u : State} {p : Phase} {e d : Nat} (h : s.Moved t p) (hp : p ≠ .free)
    (hcfg : t.cfg = s.cfg) (h' : t.windowed.Answered u e d) : s.Answered u e d := by
  obtain ⟨hrsp, hmoved⟩ := h'
  refine ⟨?_, moved_trans h hp hmoved⟩
  rw [← hcfg, ← active_of_moved h hp]
  exact hrsp

theorem microSteps_of_moved {s t : State} {p : Phase} (h : s.Moved t p) (hp : p ≠ .free) (hcfg : t.cfg = s.cfg) :
    t.microSteps = s.microSteps := by
  have hA : t.portA.phase = .free ↔ s.portA.phase = .free := by
    rw [← State.active_eq_sync, ← State.active_eq_sync, active_of_moved h hp]
  simp only [State.microSteps, hA, hcfg]

/-! ## ADD_MESSAGE whole (43 R161, R162) -/

/-- `t` is `s` with `bytes` pushed after what the ring held, and nothing else of the block written but the builder's
transients. -/
abbrev State.Received (s t : State) (bytes : List Byte) : Prop :=
  t.RingOk ∧ t.contents = s.contents ++ bytes.map some ∧ t.tail = s.tail ∧ s.SameControl t ∧ s.SameParser t ∧
  s.SameOutput t ∧ s.SameDiag t ∧ s.SameEnvironment t

/-- `t` is between two micro-steps of the ADD_MESSAGE of length `n` that `s` began, with `j` bytes pushed. -/
abbrev State.BuildingAt (s : State) (n : Byte) (j : Nat) (t : State) : Prop :=
  s.Received t (s.command.message j) ∧ s.Moved t .building ∧ t.blen = n ∧ t.bidx.toNat = j

theorem message_length (c : Command) {j : Nat} (hj : j ≤ 256) : (c.message j).length = j := by
  simpa [Command.message] using hj

theorem message_succ (c : Command) (i : Byte) :
    c.message (i.toNat + 1) = c.message i.toNat ++ [c.messageByte i] := by
  simp [Command.message, Command.messageByte, List.take_add_one]

theorem received_pushed {s t : State} {bytes : List Byte} (h : s.Received t bytes) (hc : t.count < t.size) (b : Byte) :
    s.Received (t.pushed b) (bytes ++ [b]) := by
  obtain ⟨hring, hcont, htail, hrest⟩ := h
  refine ⟨ringOk_pushed hring hc b, ?_, htail, hrest⟩
  rw [contents_pushed hring hc b, hcont, List.map_append, List.append_assoc]
  rfl

theorem count_of_received {s t : State} {bytes : List Byte} (h : s.Received t bytes) :
    t.count = s.count + bytes.length := by
  obtain ⟨-, hcont, -⟩ := h
  simpa using congrArg List.length hcont

theorem addMessageByte_of_room {s : State} (hl : s.Live) (hr : s.RingOk) (hc : s.count < s.size) :
    addMessageByte s = .next (s.pushed (s.command.messageByte s.bidx)).byteAdded := by
  rw [addMessageByte, liveOnly_of_live hl, ringPush_of_room hr hc]
  rfl

theorem byteAdded_of_last {s : State} (h : s.bidx + 1 = s.blen) :
    s.byteAdded = { s with bidx := s.bidx + 1 }.voidBuilder.answer .ok 0 := if_pos h

theorem byteAdded_of_more {s : State} (h : s.bidx + 1 ≠ s.blen) :
    s.byteAdded = { s with bidx := s.bidx + 1 }.pause .building := if_neg h

/-- An ADD_MESSAGE while the builder is in use (43 R175). -/
theorem exec_addMessage_of_busy {s : State} (hl : s.Live) (hb : s.builderBusy = true) (n : Byte) :
    exec (.addMessage n) s = .refused .engineBusy := by
  simp only [exec, execAddMessage, liveOnly_of_live hl, hb, if_true]

/-- Micro-step B0 when both checks pass. -/
theorem exec_addMessage_of_room {s : State} {n : Byte} (hl : s.Live) (hb : s.builderBusy = false) (hn : 3 ≤ n.toNat)
    (hroom : s.count + n.toNat ≤ s.size) :
    exec (.addMessage n) s = .next ({ s with blen := n, bidx := 0 }.pause .building) := by
  have hlen : ¬ n < minLen := by rw [byte_lt_minLen_iff]; omega
  have hfree : ¬ s.freeSpace < n.toNat := by rw [State.freeSpace]; omega
  simp only [exec, execAddMessage, liveOnly_of_live hl, hb, if_neg hlen, if_neg hfree]
  rfl

section
variable {s : State} {n : Byte} (hl : s.Live) (ht : s.turns = []) (hroom : s.count + n.toNat ≤ s.size)
include hl ht hroom

/-- One byte pushed, in the steps that a micro-step takes. -/
theorem buildingAt_reaches {j : Nat} {t : State} (hj : j < n.toNat) (h : s.BuildingAt n j t) :
    t.Reaches s.microSteps (t.windowed.pushed (s.command.messageByte t.bidx)).byteAdded ∧
      s.Received (t.windowed.pushed (s.command.messageByte t.bidx)) (s.command.message (j + 1)) := by
  obtain ⟨hrec, hmoved, -, rfl⟩ := h
  have hcount : t.count = s.count + t.bidx.toNat := by
    rw [count_of_received hrec, message_length _ t.bidx.isLt.le]
  have ⟨hring, _, _, ⟨hlife, hsize, _⟩, _, _, _, ⟨hcfg, _, _, _, hturns⟩⟩ := hrec
  have hlive : t.windowed.Live := hlife.trans_ne hl
  have hc : t.count < t.size := by omega
  have hpush := addMessageByte_of_room hlive hring hc
  rw [windowed_command, command_of_moved hmoved nofun] at hpush
  rw [← microSteps_of_moved hmoved nofun hcfg, message_succ]
  exact ⟨reaches_microSteps (hturns.trans ht) (.inl ⟨phase_of_moved hmoved nofun, rfl⟩) (swin_of_moved hmoved nofun)
    hpush, received_pushed (t := t.windowed) hrec hc _⟩

theorem buildingAt_succ {j : Nat} {t : State} (hj : j + 1 < n.toNat) (h : s.BuildingAt n j t) :
    ∃ u, t.Reaches s.microSteps u ∧ s.BuildingAt n (j + 1) u := by
  obtain ⟨hreach, hrec⟩ := buildingAt_reaches hl ht hroom (by omega) h
  obtain ⟨-, hmoved, hblen, hbidx⟩ := h
  have hlt : t.bidx.toNat < n.toNat := by omega
  have hne : t.bidx + 1 ≠ t.blen := by
    rw [hblen, Ne, byte_succ_eq_iff hlt]
    omega
  rw [byteAdded_of_more (s := t.windowed.pushed _) hne] at hreach
  exact ⟨_, hreach, hrec, moved_trans hmoved nofun (paused_pause .building rfl rfl rfl).2, hblen,
    (byte_succ_toNat hlt).trans (by rw [hbidx])⟩

theorem buildingAt_last {j : Nat} {t : State} (hj : j + 1 = n.toNat) (h : s.BuildingAt n j t) :
    ∃ u, t.Reaches s.microSteps u ∧ s.Answered u 0x0 0 ∧ s.Received u (s.command.message n.toNat) := by
  obtain ⟨hreach, hrec⟩ := buildingAt_reaches hl ht hroom (by omega) h
  obtain ⟨⟨-, -, -, -, -, -, -, hcfg, -⟩, hmoved, hblen, hbidx⟩ := h
  have heq : t.bidx + 1 = t.blen := by
    rw [hblen, byte_succ_eq_iff (by omega)]
    omega
  rw [byteAdded_of_last (s := t.windowed.pushed _) heq] at hreach
  exact ⟨_, hreach, answered_trans hmoved nofun hcfg (answered_answer .ok 0 rfl rfl rfl rfl), hj ▸ hrec⟩

/-- ADD_MESSAGE with room for the message and nothing intervening: all its bytes are in the ring (43 R163 (a), (d)). -/
theorem addMessage_reaches (hr : s.RingOk) (hp : (s.port s.active).phase = .accepted)
    (hd : s.command.decoded s.cfg.width = .ok (.addMessage n)) (hb : s.builderBusy = false) (hn : 3 ≤ n.toNat) :
    ∃ t, s.Reaches (s.framerSteps n.toNat) t ∧ s.Answered t 0x0 0 ∧ s.Received t (s.command.message n.toNat) := by
  obtain ⟨m, hm⟩ := Nat.exists_eq_succ_of_ne_zero (show n.toNat ≠ 0 by omega)
  have hfirst : s.Reaches 1 ({ s with rsp := none, blen := n, bidx := 0 }.pause .building) := by
    refine reaches_one_of_step ?_
    rw [step_of_accepted ht hp hd]
    exact exec_addMessage_of_room hl hb hn hroom
  have hbegun : s.BuildingAt n 0 ({ s with rsp := none, blen := n, bidx := 0 }.pause .building) :=
    ⟨⟨hr, (List.append_nil _).symm, rfl, sameControl_rfl s, ⟨rfl, rfl, rfl, rfl⟩, sameOutput_rfl s, sameDiag_rfl s,
        sameEnvironment_rfl s⟩,
      (paused_pause .building rfl rfl rfl).2, rfl, rfl⟩
  obtain ⟨t, hmid, hmore⟩ := reaches_iterate (n := m)
    (fun j t hj h => buildingAt_succ hl ht hroom (by omega) h) hbegun
  obtain ⟨u, hend, hans⟩ := buildingAt_last hl ht hroom hm.symm hmore
  refine ⟨u, ?_, hans⟩
  rw [framerSteps_eq, hm, Nat.mul_succ]
  exact reaches_trans hfirst (reaches_trans hmid hend)

end

/-! ## GET_MESSAGE whole, a valid frame at the tail (43 R164, R170) -/

/-- `t` is `s` with bytes popped so that `q` is left, and nothing else of the block written but the parser's transients
and the output buffer. -/
abbrev State.Drained (s t : State) (q : List (Option Byte)) : Prop :=
  t.RingOk ∧ t.contents = q ∧ t.head = s.head ∧ s.SameStore t ∧ s.SameControl t ∧ s.SameBuilder t ∧ s.SameDiag t ∧
  s.SameEnvironment t

/-- `t` is between two micro-steps of the GET_MESSAGE that `s` began, START and LENGTH popped and after them the bytes
`read` of the payload, with `q` left in the ring. -/
abbrev State.ParsingAt (s : State) (len : Byte) (read : List Byte) (q : List (Option Byte)) (t : State) : Prop :=
  s.Drained t q ∧ s.Moved t .parsing ∧ Memory.Holds s.obuf t.obuf (s.cfg.startByte :: len :: read) ∧ t.olen = s.olen ∧
  t.flen = len ∧ t.fidx.toNat = read.length + 2 ∧ t.fxor = xorBytes read ∧
  t.fstate = if read.length + 2 = len.toNat then .validate else .consumePayload

theorem exists_payload_of_validFrame {start len : Byte} {m : List Byte} (h : ValidFrame start len m) :
    ∃ payload, m = start :: len :: payload ∧ 3 ≤ len.toNat ∧ payload.length + 2 = len.toNat ∧
      xorBytes payload = 0 := by
  obtain ⟨hmin, hlen, hstart, hlength, hx⟩ := h
  match m with
  | [] => simp at hstart
  | [_] => simp at hlength
  | _ :: _ :: payload =>
    cases hstart
    cases hlength
    exact ⟨payload, rfl, hmin, hlen, hx⟩

theorem drained_popped {s t : State} {b : Byte} {q : List (Option Byte)} (h : s.Drained t (some b :: q)) :
    ringPop t = .done b t.popped ∧ s.Drained t.popped q := by
  obtain ⟨hring, hcont, hrest⟩ := h
  have hc : t.count ≠ 0 := by
    rw [← contents_length, hcont]
    simp
  obtain ⟨a, -, hhead, hpop⟩ := ringPop_of_ringOk hring hc
  obtain rfl : b = a := by simpa [hcont] using hhead
  exact ⟨hpop, ringOk_popped hring hc, by rw [contents_popped hc, hcont, List.tail_cons], hrest⟩

theorem live_of_drained {s t : State} {q : List (Option Byte)} (hl : s.Live) (h : s.Drained t q) : t.Live := by
  obtain ⟨-, -, -, -, ⟨hlife, -⟩, -⟩ := h
  exact hlife.trans_ne hl

theorem cfg_of_drained {s t : State} {q : List (Option Byte)} (h : s.Drained t q) : t.cfg = s.cfg := by
  obtain ⟨-, -, -, -, -, -, -, ⟨hcfg, -⟩⟩ := h
  exact hcfg

/-- A later micro-step of the parser, in the steps that it takes. -/
theorem parserStep_reaches {s t u : State} {q : List (Option Byte)} (ht : s.turns = []) (hd : s.Drained t q)
    (hm : s.Moved t .parsing) (h : parserStep t.windowed = .next u) : t.Reaches s.microSteps u := by
  obtain ⟨-, -, -, -, -, -, -, ⟨hcfg, -, -, -, hturns⟩⟩ := hd
  rw [← microSteps_of_moved hm nofun hcfg]
  exact reaches_microSteps (hturns.trans ht) (.inr ⟨phase_of_moved hm nofun, rfl⟩) (swin_of_moved hm nofun) h

theorem drained_answer {s t : State} {q : List (Option Byte)} (e : Status) (d : Nat) (h : s.Drained t q) :
    s.Drained (t.answer e d) q := h

theorem drained_voidParser {s t : State} {q : List (Option Byte)} (h : s.Drained t q) : s.Drained t.voidParser q := h

section
variable {s : State} {len : Byte} (hl : s.Live) (ht : s.turns = [])
include hl ht

/-- P0 of a frame that begins with START. -/
theorem awaitLength_reached {q : List (Option Byte)} (hr : s.RingOk) (hp : (s.port s.active).phase = .accepted)
    (hd : s.command.decoded s.cfg.width = .ok .getMessage) (hb : s.parserBusy = false)
    (hq : s.contents = some s.cfg.startByte :: q) :
    ∃ t, s.Reaches 1 t ∧ s.Drained t q ∧ s.Moved t .parsing ∧ t.fstate = .awaitLength ∧ t.obuf = s.obuf ∧
      t.olen = s.olen := by
  have hzero : s.Drained { s with rsp := none, fstate := .awaitStart } s.contents :=
    ⟨hr, rfl, rfl, sameStore_rfl s, sameControl_rfl s, sameBuilder_rfl s, sameDiag_rfl s, sameEnvironment_rfl s⟩
  obtain ⟨hpop, hone⟩ := drained_popped (hq ▸ hzero)
  have hstart := exec_getMessage_of_start (s := { s with rsp := none }) hl hb rfl hpop
  exact ⟨_, reaches_one_of_step ((step_of_accepted ht hp hd).trans hstart), hone, (paused_pause .parsing rfl rfl rfl).2,
    rfl, rfl, rfl⟩

/-- P1 of a frame with a valid length. -/
theorem parsingAt_begun {t : State} {q : List (Option Byte)} (hlen : 3 ≤ len.toNat) (hd : s.Drained t (some len :: q))
    (hm : s.Moved t .parsing) (hf : t.fstate = .awaitLength) (hobuf : t.obuf = s.obuf) (holen : t.olen = s.olen) :
    ∃ u, t.Reaches s.microSteps u ∧ s.ParsingAt len [] q u := by
  obtain ⟨hpop, hd'⟩ := drained_popped (t := t.windowed) hd
  have hlength := parserStep_of_awaitLength (s := t.windowed) (live_of_drained hl hd) hf hpop
  rw [lengthPopped_of_valid hlen] at hlength
  refine ⟨_, parserStep_reaches ht hd hm hlength, hd', moved_trans hm nofun (paused_pause .parsing rfl rfl rfl).2, ?_,
    holen, rfl, rfl, rfl, (if_neg (show ¬ 0 + 2 = len.toNat by omega)).symm⟩
  rw [← hobuf, ← cfg_of_drained hd]
  exact memory_holds_header _ _ _

theorem parsingAt_payload {read : List Byte} {b : Byte} {q : List (Option Byte)} {t : State}
    (hlt : read.length + 2 < len.toNat) (h : s.ParsingAt len read (some b :: q) t) :
    ∃ u, t.Reaches s.microSteps u ∧ s.ParsingAt len (read ++ [b]) q u := by
  obtain ⟨hd, hm, hobuf, holen, hflen, hfidx, hfxor, hfstate⟩ := h
  obtain ⟨hpop, hd'⟩ := drained_popped (t := t.windowed) hd
  rw [if_neg hlt.ne] at hfstate
  have hpayload := parserStep_of_consumePayload (s := t.windowed) (live_of_drained hl hd) hfstate hpop
  have hidx : t.fidx.toNat < len.toNat := by omega
  refine ⟨_, parserStep_reaches ht hd hm hpayload, hd', moved_trans hm nofun (paused_pause .parsing rfl rfl rfl).2,
    ?obuf, holen, hflen, ?fidx, ?fxor, ?fstate⟩
  case obuf =>
    have hwritten := memory_holds_write hobuf b
    rwa [show (s.cfg.startByte :: len :: read).length = t.fidx.toNat from hfidx.symm] at hwritten
  case fidx =>
    rw [List.length_append]
    exact (byte_succ_toNat hidx).trans (by rw [hfidx]; rfl)
  case fxor => rw [xorBytes_append_singleton, ← hfxor]; rfl
  case fstate =>
    have hcond : t.fidx + 1 = t.flen ↔ (read ++ [b]).length + 2 = len.toNat := by
      rw [hflen, byte_succ_eq_iff hidx, hfidx, List.length_append]
      rfl
    exact if_congr hcond rfl rfl

/-- The payload read to its last byte, or as far as the ring holds it. -/
theorem parsingAt_payloads {left read : List Byte} {q : List (Option Byte)} {t : State}
    (hle : read.length + left.length + 2 ≤ len.toNat) (h : s.ParsingAt len read (left.map some ++ q) t) :
    ∃ u, t.Reaches (s.microSteps * left.length) u ∧ s.ParsingAt len (read ++ left) q u := by
  induction left generalizing read t with
  | nil => exact ⟨t, reaches_zero t, by simpa using h⟩
  | cons b left ih =>
    rw [List.length_cons] at hle
    obtain ⟨u, hu, hpu⟩ := parsingAt_payload hl ht (by omega) h
    obtain ⟨v, hv, hpv⟩ := ih (by simp; omega) hpu
    refine ⟨v, ?_, by simpa using hpv⟩
    rw [List.length_cons, Nat.mul_succ, Nat.add_comm]
    exact reaches_trans hu hv

/-- PV of a frame whose exclusive-or is zero. -/
theorem parsingAt_delivered {payload : List Byte} {q : List (Option Byte)} {t : State}
    (hlen : payload.length + 2 = len.toNat) (hx : xorBytes payload = 0) (h : s.ParsingAt len payload q t) :
    ∃ u, t.Reaches s.microSteps u ∧ s.Answered u 0x0 len.toNat ∧ u.olen = len ∧
      Memory.Holds s.obuf u.obuf (s.cfg.startByte :: len :: payload) ∧ s.Drained u q := by
  obtain ⟨hd, hm, hobuf, -, hflen, -, hfxor, hfstate⟩ := h
  rw [if_pos hlen] at hfstate
  have hvalid := parserStep_of_validate (s := t.windowed) (live_of_drained hl hd) hfstate
  rw [validated_of_zero (s := t.windowed) (hfxor.trans hx)] at hvalid
  have hans := answered_trans hm nofun (cfg_of_drained hd) (answered_answer (s := t.windowed)
    (u := { t.windowed with olen := t.windowed.flen }.voidParser) .ok t.windowed.flen.toNat rfl rfl rfl rfl)
  have hdone : s.Drained { t.windowed with olen := t.windowed.flen } q := hd
  exact ⟨_, parserStep_reaches ht hd hm hvalid, hflen ▸ hans, hflen, hobuf,
    drained_answer _ _ (drained_voidParser hdone)⟩

/-- GET_MESSAGE with nothing intervening delivers the valid frame at the tail. -/
theorem getMessage_reaches {m : List Byte} {q : List (Option Byte)} (hr : s.RingOk)
    (hp : (s.port s.active).phase = .accepted) (hd : s.command.decoded s.cfg.width = .ok .getMessage)
    (hb : s.parserBusy = false) (hm : ValidFrame s.cfg.startByte len m) (hq : s.contents = m.map some ++ q) :
    ∃ t, s.Reaches (s.framerSteps len.toNat) t ∧ s.Answered t 0x0 len.toNat ∧ t.olen = len ∧
      Memory.Holds s.obuf t.obuf m ∧ s.Drained t q := by
  obtain ⟨payload, rfl, hmin, hlen, hx⟩ := exists_payload_of_validFrame hm
  obtain ⟨a, ha, hdr, hmoved, hf, hobuf, holen⟩ := awaitLength_reached hl ht hr hp hd hb hq
  obtain ⟨t, ht1, hbegun⟩ := parsingAt_begun hl ht hmin hdr hmoved hf hobuf holen
  obtain ⟨u, hu, hread⟩ := parsingAt_payloads hl ht (by simp; omega) hbegun
  obtain ⟨v, hv, hdone⟩ := parsingAt_delivered hl ht (by simpa using hlen) hx hread
  refine ⟨v, ?_, hdone⟩
  have hsteps : s.framerSteps len.toNat = 1 + (s.microSteps + (s.microSteps * payload.length + s.microSteps)) := by
    rw [framerSteps_eq, ← hlen]
    ring
  rw [hsteps]
  exact reaches_trans ha (reaches_trans ht1 (reaches_trans hu hv))

end

/-! ## ADD_MESSAGE and then GET_MESSAGE, by `S` (43 R174) -/

/-- With no turn given and nothing in progress, the next command of `S` is accepted. -/
theorem step_accepts_command {s : State} {c : Command} {rest : List Line} (ht : s.turns = [])
    (hA : s.portA.phase = .free) (hS : s.portS.phase = .free) (hs : s.streamS = .command c :: rest) :
    step s = .next ({ s with rsp := none, streamS := rest }.acceptSync c) := by
  simp [step, schedule, ht, hA, State.syncReady, hs, syncTurn, hS, beginSync]

theorem acceptSync_port {s : State} (c : Command) (hA : s.portA.phase = .free) :
    (s.acceptSync c).port (s.acceptSync c).active = { phase := .accepted, cmd := c } := port_sync hA

/-- GET_MESSAGE accepted from `S` on a ring that holds one valid frame and nothing else. -/
theorem acceptSync_getMessage_reaches {s : State} {len : Byte} {g : Command} {m : List Byte} (hl : s.Live)
    (ht : s.turns = []) (hr : s.RingOk) (hA : s.portA.phase = .free) (hg : g.decoded s.cfg.width = .ok .getMessage)
    (hm : ValidFrame s.cfg.startByte len m) (hq : s.contents = m.map some) :
    ∃ v, (s.acceptSync g).Reaches ((s.acceptSync g).framerSteps len.toNat) v ∧
      v.rsp = some { agent := .sync, word := rspWord s.cfg.width 0x0 len.toNat } ∧ v.olen = len ∧
      (∀ k, k < len.toNat → v.obuf.read k = m[k]?) ∧ v.count = 0 := by
  have hport := acceptSync_port g hA
  have hact : (s.acceptSync g).active = .sync := State.active_eq_sync.mpr hA
  have ⟨_, hlen, _⟩ := hm
  obtain ⟨v, hrun, ⟨hrsp, -⟩, holen, ⟨hobuf, -⟩, ⟨-, hempty, -⟩⟩ :=
    getMessage_reaches (s := s.acceptSync g) (q := []) hl ht hr (congrArg Port.phase hport)
      ((congrArg (fun p => p.cmd.decoded s.cfg.width) hport).trans hg) (by simp [State.parserBusy, hA]) hm
      (hq.trans (List.append_nil _).symm)
  refine ⟨v, hrun, hact ▸ hrsp, holen, fun k hk => hobuf k (hlen ▸ hk), ?_⟩
  rw [← contents_length, hempty, List.length_nil]

/-! ## The obligations -/

/-- Settles O42: changing one byte changes the exclusive-or, and GET_MESSAGE finds at the tail of the ring the frame
that ADD_MESSAGE left there. -/
theorem addThenGetReturnsTheMessage : Obligations.AddThenGetReturnsTheMessage := by
  refine ⟨fun start len m k b hm hk hlt hb => ?flipped,
    fun s len g more hinv hl ht hA hS hd hs hg hc hroom hm => ?roundTrip⟩
  case flipped =>
    obtain ⟨-, hlen, -, -, hx⟩ := hm
    exact xorBytes_ne_zero_of_set hx hk (hlen ▸ hlt) hb
  case roundTrip =>
    obtain ⟨-, hring, -⟩ := hinv
    have hact : s.active = .sync := State.active_eq_sync.mpr hA
    have hport : s.port s.active = s.portS := port_sync hA
    have hcmd : s.command = s.portS.cmd := congrArg Port.cmd hport
    have hempty : s.contents = [] := List.eq_nil_of_length_eq_zero ((contents_length s).trans hc)
    have ⟨hmin, _⟩ := hm
    obtain ⟨t, hadd, ⟨hrsp, -, hsync⟩, hrt, hcont, -, ⟨hlife, -⟩, -, -, -, ⟨hcfg, -, -, hstream, hturns⟩⟩ :=
      addMessage_reaches hl ht (by omega) (hring hl) (hport ▸ hS) (hcmd ▸ hd) (by simp [State.builderBusy, hA, hS]) hmin
    obtain ⟨hSt, hAt, -⟩ := hsync hA
    have hnext := step_accepts_command (hturns.trans ht) (hAt ▸ hA) (congrArg Port.phase hSt) (hstream.trans hs)
    rw [hempty, List.nil_append, hcmd] at hcont
    rw [← hcfg] at hg hm
    obtain ⟨v, hget, hrsp', hdelivered⟩ := acceptSync_getMessage_reaches (s := { t with rsp := none, streamS := more })
      (hlife.trans_ne hl) (hturns.trans ht) hrt (hAt ▸ hA) hg hm hcont
    exact ⟨t, _, v, hadd, hact ▸ hrsp, hnext, hget, hcfg ▸ hrsp', hdelivered⟩

/-- Settles O33, by whether the ring is empty and, if it is not, by its oldest byte. -/
theorem getMessageStartStep : Obligations.GetMessageStartStep := by
  intro s hl hr hp
  refine ⟨fun hc => ?empty, fun hc => ?popped⟩
  case empty =>
    exact ⟨_, exec_getMessage_of_empty hl hp hc, answered_answer .empty 0 rfl rfl rfl rfl, rfl, sameControl_rfl s,
      sameIndices_rfl s, sameStore_rfl s, sameBuilder_rfl s, sameOutput_rfl s, sameDiag_rfl s, sameEnvironment_rfl s⟩
  case popped =>
    obtain ⟨b, hb, -, hpop⟩ := ringPop_of_ringOk (s := { s with fstate := .awaitStart }) hr hc
    have hcount : s.count - 1 + 1 = s.count := Nat.sub_add_cancel (Nat.pos_of_ne_zero hc)
    by_cases hs : b = s.cfg.startByte
    · exact ⟨_, b, hb, exec_getMessage_of_start hl hp hs hpop, fun hne => absurd hs hne,
        fun _ => ⟨paused_pause .parsing rfl rfl rfl, rfl, rfl, rfl, rfl⟩, rfl, hcount, rfl, sameStore_rfl s,
        sameControl_rfl s, sameBuilder_rfl s, sameOutput_rfl s, sameDiag_rfl s, sameEnvironment_rfl s⟩
    · have hwrong := exec_getMessage_of_pop hl hp hpop
      rw [startPopped_of_other (s := s.popped) hs] at hwrong
      exact ⟨_, b, hb, hwrong, fun _ => ⟨answered_answer .invalidStart 0 rfl rfl rfl rfl, rfl⟩,
        fun heq => absurd heq hs, rfl, hcount, rfl, sameStore_rfl s, sameControl_rfl s, sameBuilder_rfl s,
        sameOutput_rfl s, sameDiag_rfl s, sameEnvironment_rfl s⟩

/-- Settles O35, by whether the ring is empty and, if it is not, by the length popped. -/
theorem getMessageLengthStep : Obligations.GetMessageLengthStep := by
  intro s hl hr hf
  refine ⟨fun hc => ?dry, fun hc => ?popped⟩
  case dry =>
    exact ⟨_, parserStep_of_dry hl (.inl hf) hc, answered_answer .incomplete 0 rfl rfl rfl rfl, rfl, sameControl_rfl s,
      sameIndices_rfl s, sameStore_rfl s, sameBuilder_rfl s, sameOutput_rfl s, sameDiag_rfl s, sameEnvironment_rfl s⟩
  case popped =>
    obtain ⟨b, hb, -, hpop⟩ := ringPop_of_ringOk hr hc
    have hstep := parserStep_of_awaitLength hl hf hpop
    have hcount : s.count - 1 + 1 = s.count := Nat.sub_add_cancel (Nat.pos_of_ne_zero hc)
    by_cases hs : b.toNat < 3
    · rw [lengthPopped_of_short hs] at hstep
      exact ⟨_, b, hb, hstep,
        fun _ => ⟨answered_answer .invalidLength 0 rfl rfl rfl rfl, rfl, sameOutput_rfl s⟩,
        fun hge => absurd hs (Nat.not_lt.mpr hge), rfl, hcount, rfl, sameStore_rfl s, sameControl_rfl s,
        sameBuilder_rfl s, sameDiag_rfl s, sameEnvironment_rfl s⟩
    · rw [lengthPopped_of_valid (Nat.not_lt.mp hs)] at hstep
      obtain ⟨hheader, hrest⟩ := memory_holds_header s.obuf s.cfg.startByte b
      exact ⟨_, b, hb, hstep, fun hlt => absurd hlt hs,
        fun _ => ⟨paused_pause .parsing rfl rfl rfl, rfl, rfl, rfl, rfl, hheader 0 Nat.zero_lt_two,
          hheader 1 Nat.one_lt_two,
          hrest, rfl⟩,
        rfl, hcount, rfl, sameStore_rfl s, sameControl_rfl s, sameBuilder_rfl s, sameDiag_rfl s, sameEnvironment_rfl s⟩

/-- Settles O37, by the exclusive-or; both answers leave the ring alone. -/
theorem getMessageValidateStep : Obligations.GetMessageValidateStep := by
  intro s hl hf
  have hstep := parserStep_of_validate hl hf
  by_cases hx : s.fxor = 0
  · rw [validated_of_zero hx] at hstep
    exact ⟨_, hstep, rfl, fun hne => absurd hx hne, fun _ => ⟨answered_answer .ok _ rfl rfl rfl rfl, rfl⟩,
      fun _ => rfl, sameControl_rfl s, sameIndices_rfl s, sameStore_rfl s, sameBuilder_rfl s, sameDiag_rfl s,
      sameEnvironment_rfl s⟩
  · rw [validated_of_ne_zero hx] at hstep
    exact ⟨_, hstep, rfl, fun _ => ⟨answered_answer .checksumMismatch 0 rfl rfl rfl rfl, rfl⟩,
      fun heq => absurd heq hx, fun _ => rfl, sameControl_rfl s, sameIndices_rfl s, sameStore_rfl s, sameBuilder_rfl s,
      sameDiag_rfl s, sameEnvironment_rfl s⟩

/-- Settles O34: the busy test comes first, and past it P0 answers on any ring that meets its invariant, B0 on any. -/
theorem oneOperationPerEngine : Obligations.OneOperationPerEngine := by
  intro s hl
  refine ⟨exec_getMessage_of_busy hl, fun hb n => exec_addMessage_of_busy hl hb n, fun hr _ hp => ?get,
    fun _ hb n => ?add⟩
  case get =>
    obtain ⟨hempty, hpopped⟩ := getMessageStartStep s hl hr hp
    by_cases hc : s.count = 0
    · obtain ⟨t, ht, -⟩ := hempty hc
      exact ⟨t, ht⟩
    · obtain ⟨t, -, -, ht, -⟩ := hpopped hc
      exact ⟨t, ht⟩
  case add =>
    simp only [exec, execAddMessage, liveOnly_of_live hl, hb, Bool.false_eq_true, if_false]
    split_ifs
    · exact ⟨_, rfl⟩
    · exact ⟨_, rfl⟩
    · exact ⟨_, rfl⟩

end Sys2Proof.Machine

/-! The answer to an illegal command word (60_exceptions). -/

namespace Sys2Proof.Machine

/-! ## Legal words and the opcode map (30_encoding R65, R66, R69) -/

/-- An opcode of the map has a row, which leaves free the operand bits of the opcode's format. -/
theorem mem_opcodeRows_of_formatOfOpcode (W : Nat) {op : Byte} {f : Format} (h : formatOfOpcode op = some f) :
    (op.toNat, Laws.freeBits W f) ∈ opcodeRows W := by
  unfold formatOfOpcode at h
  split at h <;> cases h
  all_goals simp [opcodeRows, Laws.freeBits, *]

/-- A word is legal by the format of its opcode. -/
theorem legalWord_iff {W : Nat} (w : CommandWord W) :
    legalWord w = true ↔ ∃ f, formatOfOpcode (opField w) = some f ∧ f.reservedClear (argField w) = true := by
  unfold legalWord
  cases formatOfOpcode (opField w) <;> simp

/-- The operation a word decodes to is one of the rows of the opcode map. -/
theorem matchesARow_of_decode {W : Nat} (hW : 8 ≤ W) {w : CommandWord W} {i : Instr} (h : decode w = .ok i) :
    MatchesARow W w.toNat := by
  obtain ⟨f, hf, hclear⟩ := (legalWord_iff w).mp ((Laws.exists_decode_iff_legalWord w).mp ⟨i, h⟩)
  obtain ⟨hop, harg⟩ := Laws.toNat_eq_fields w
  exact ⟨_, mem_opcodeRows_of_formatOfOpcode W hf, hop.symm, harg ▸ (Laws.reservedClear_iff hW f _).mp hclear⟩

/-! ## The step of an illegal word -/

/-- An accepted command that does not decode is answered BadCommand, whatever `life` is (R213). -/
theorem advance_of_illegal {s : State} (hp : (s.port s.active).phase = .accepted)
    (hd : ∀ i, s.command.decoded s.cfg.width ≠ .ok i) : advance s = .next (s.answer .badCommand 0) := by
  cases h : s.command.decoded s.cfg.width with
  | ok i => exact absurd h (hd i)
  | error e => simp only [advance, hp, runCommand, h, State.failWith]

/-- Settles O8: a word that matches no row does not decode, and BadCommand is an answer that writes nothing. -/
theorem illegalWordIsAnsweredBadCommand : Obligations.IllegalWordIsAnsweredBadCommand := by
  intro s hm hp hW hno
  have hillegal : ∀ i, s.command.decoded s.cfg.width ≠ .ok i := fun _ hi => hno (matchesARow_of_decode hW hi)
  have hstep : step s = .next (s.taken.answer .badCommand 0) :=
    (step_of_activeMoves hm (by simp [hp])).trans (advance_of_illegal hp hillegal)
  obtain ⟨hans, hidx, -, hctl, hrest⟩ := answer_writes_nothing s.taken .badCommand 0
  exact ⟨_, hstep, hans, hctl, hidx, rfl, hrest, rfl, rfl, rfl⟩

end Sys2Proof.Machine

/-! The hardware reset (70_reset_and_hazards R230). -/

namespace Sys2Proof.Machine

/-- A turn given to the host is used up by the reset, whatever is in progress; the last response leaves its port. -/
theorem step_of_hwReset {s : State} {rest : List Turn} (h : s.turns = .hwReset :: rest) :
    step s = .next { s with rsp := none, turns := rest }.hardwareReset := by
  simp only [step, schedule, h]

/-- The reset reads only what is not the block's: the parameters, `ie`, the environment and the counter (log 21). -/
theorem hardwareReset_congr {s s' : State} (hcfg : s'.cfg = s.cfg) (hie : s'.ie = s.ie)
    (hA : s'.streamA = s.streamA) (hS : s'.streamS = s.streamS) (hturns : s'.turns = s.turns)
    (hfresh : s'.fresh = s.fresh) : s'.hardwareReset = s.hardwareReset := by
  simp only [State.hardwareReset, hcfg, hie, hA, hS, hturns, hfresh]

/-- Settles O12: the step is the reset, whose values are read off `State.reset` and which reads nothing of the block. -/
theorem hardwareResetForgetsTheBlock : Obligations.HardwareResetForgetsTheBlock := by
  intro s rest ht
  refine ⟨?values, ?forgets⟩
  case values =>
    exact ⟨_, step_of_hwReset ht, rfl, rfl, rfl, memory_read_nil, memory_read_nil, rfl, rfl, rfl, rfl, rfl⟩
  case forgets =>
    intro s' hcfg hie hA hS hturns hfresh
    rw [step_of_hwReset ht, step_of_hwReset (hturns.trans ht)]
    exact congrArg _ (hardwareReset_congr hcfg hie hA hS rfl hfresh)

end Sys2Proof.Machine

/-! The command word (30_encoding): decoding, encoding, and the rows of the opcode table. -/

namespace Sys2Proof.Machine

/-! ## The operand field of each format (30_encoding R65, R67) -/

theorem noOperand_eq_ok_iff {W : Nat} (hW : 8 ≤ W) {arg : BitVec W} {i j : Instr} :
    noOperand arg i = .ok j ↔ arg.toNat = 0 ∧ i = j := by
  have hclear := Laws.reservedClear_iff hW .N arg
  simp only [Laws.freeBits, pow_zero, Nat.lt_one_iff] at hclear
  simp only [noOperand, hclear]
  split_ifs with h0 <;> simp [h0]

theorem byteOperand_eq_ok_iff {W : Nat} (hW : 8 ≤ W) {arg : BitVec W} {f : Byte → Instr} {j : Instr} :
    byteOperand arg f = .ok j ↔ ∃ b : Byte, arg.toNat = b.toNat ∧ f b = j := by
  have hclear := Laws.reservedClear_iff hW .B arg
  have hlow : (arg.extractLsb' 0 8).toNat = arg.toNat % 2 ^ 8 := by simp [BitVec.extractLsb'_toNat]
  simp only [Laws.freeBits] at hclear
  simp only [byteOperand, hclear]
  constructor
  · intro h
    split at h <;> cases h
    next hlt => exact ⟨_, by rw [hlow, Nat.mod_eq_of_lt hlt], rfl⟩
  · rintro ⟨b, hb, rfl⟩
    have hlt : arg.toNat < 2 ^ 8 := hb ▸ b.isLt
    have heq : arg.extractLsb' 0 8 = b := BitVec.eq_of_toNat_eq (by rw [hlow, Nat.mod_eq_of_lt hlt, hb])
    rw [if_pos hlt, heq]

theorem flagOperand_eq_ok_iff {W : Nat} (hW : 8 ≤ W) {arg : BitVec W} {f : Bool → Instr} {j : Instr} :
    flagOperand arg f = .ok j ↔ ∃ e : Bool, arg.toNat = e.toNat ∧ f e = j := by
  have hclear := Laws.reservedClear_iff hW .F arg
  have hbit : arg.getLsbD 0 = decide (arg.toNat % 2 = 1) := by simp [BitVec.getLsbD]
  simp only [Laws.freeBits, pow_one] at hclear
  simp only [flagOperand, hclear, hbit]
  constructor
  · intro h
    split at h <;> cases h
    next hlt => exact ⟨_, by interval_cases arg.toNat <;> rfl, rfl⟩
  · rintro ⟨e, he, rfl⟩
    cases e <;> simp [he]

/-! ## The decoder reads the opcode and the operand -/

/-- A word decodes to the operation whose opcode and operand it holds. -/
theorem decode_eq_ok_iff {W : Nat} (hW : 8 ≤ W) {w : CommandWord W} {i : Instr} :
    decode w = .ok i ↔ opField w = opcodeOf i ∧ (argField w).toNat = i.operand := by
  constructor
  · intro h
    unfold decode at h
    split at h
    all_goals rename_i hop
    case h_1 | h_2 | h_8 | h_14 | h_15 => cases h; exact ⟨BitVec.eq_of_toNat_eq hop, rfl⟩
    case h_5 | h_6 | h_11 | h_17 =>
      obtain ⟨b, harg, rfl⟩ := (byteOperand_eq_ok_iff hW).mp h
      exact ⟨BitVec.eq_of_toNat_eq hop, harg⟩
    case h_13 =>
      obtain ⟨e, harg, rfl⟩ := (flagOperand_eq_ok_iff hW).mp h
      exact ⟨BitVec.eq_of_toNat_eq hop, harg⟩
    case h_20 => cases h
    all_goals
      obtain ⟨harg, rfl⟩ := (noOperand_eq_ok_iff hW).mp h
      exact ⟨BitVec.eq_of_toNat_eq hop, harg⟩
  · rintro ⟨hop, harg⟩
    cases i
    all_goals
      simp [decode, hop, opcodeOf, noOperand_eq_ok_iff hW, byteOperand_eq_ok_iff hW, flagOperand_eq_ok_iff hW, harg,
        Instr.operand]

/-! ## The rows of the opcode table, at `W = 16` -/

/-- Clearing the low `k` of 16 bits leaves a multiple of `2 ^ 16` exactly when the bits above them are zero. -/
theorem div_mul_pow_eq_iff {x a k : Nat} (hk : k ≤ 16) :
    x / 2 ^ k * 2 ^ k = a * 2 ^ 16 ↔ x / 2 ^ 16 = a ∧ x % 2 ^ 16 < 2 ^ k := by
  obtain ⟨j, hj⟩ := Nat.exists_eq_add_of_le hk
  have hpk : 0 < 2 ^ k := Nat.two_pow_pos k
  have hpj : 0 < 2 ^ j := Nat.two_pow_pos j
  have hlow : x % (2 ^ k * 2 ^ j) < 2 ^ k ↔ x / 2 ^ k % 2 ^ j = 0 := by
    rw [← Nat.mod_mul_right_div_self, Nat.div_eq_zero_iff_lt hpk]
  rw [hj, pow_add, mul_comm (2 ^ k), ← mul_assoc, Nat.mul_left_inj hpk.ne', mul_comm (2 ^ j), hlow,
    ← Nat.div_div_eq_div_mul]
  constructor
  · intro h
    rw [h]
    exact ⟨Nat.mul_div_cancel a hpj, Nat.mul_mod_left a _⟩
  · rintro ⟨rfl, hmod⟩
    exact (Nat.div_mul_cancel (Nat.dvd_of_mod_eq_zero hmod)).symm

/-- A word under the mask of a row: opcode `op`, and `k` operand bits free. -/
theorem and_mask_eq_iff (w : CommandWord 16) {op k : Nat} (hop : op < 256) (hk : k ≤ 16) :
    w &&& BitVec.allOnes 24 <<< k = BitVec.ofNat 24 (op * 2 ^ 16) ↔
      w.toNat / 2 ^ 16 = op ∧ w.toNat % 2 ^ 16 < 2 ^ k := by
  have hle : w.toNat / 2 ^ k * 2 ^ k < 2 ^ 24 := (Nat.div_mul_le_self _ _).trans_lt w.isLt
  rw [← div_mul_pow_eq_iff hk, ← BitVec.shiftLeft_ushiftRight, ← BitVec.toNat_inj, BitVec.toNat_shiftLeft,
    BitVec.toNat_ushiftRight, BitVec.toNat_ofNat, Nat.shiftRight_eq_div_pow, Nat.shiftLeft_eq, Nat.mod_eq_of_lt hle,
    Nat.mod_eq_of_lt (show op * 2 ^ 16 < 2 ^ 24 by omega)]

/-- The masks and matches of the opcode table are those of the opcode map at `W = 16`: a mask clears the operand bits
that the row's format leaves free. -/
theorem tableRows_eq :
    tableRows = (opcodeRows 16).map fun r => (BitVec.allOnes 24 <<< r.2, BitVec.ofNat 24 (r.1 * 2 ^ 16)) := by
  decide

theorem opcodeRows_bounded : ∀ r ∈ opcodeRows 16, r.1 < 256 ∧ r.2 ≤ 16 := by decide

theorem matchesARow_iff_tableRows (w : CommandWord 16) :
    MatchesARow 16 w.toNat ↔ ∃ r ∈ tableRows, w &&& r.1 = r.2 := by
  simp only [tableRows_eq, List.mem_map, exists_exists_and_eq_and]
  refine exists_congr fun r => and_congr_right fun hr => ?_
  obtain ⟨hop, hk⟩ := opcodeRows_bounded r hr
  exact (and_mask_eq_iff w hop hk).symm

/-! ## Words that decode are the words that match a row -/

/-- A row of the opcode map gives its opcode a format, with the row's free bits. -/
theorem formatOfOpcode_of_mem_opcodeRows {W : Nat} :
    ∀ r ∈ opcodeRows W, ∀ op : Byte, op.toNat = r.1 → ∃ f, formatOfOpcode op = some f ∧ Laws.freeBits W f = r.2 := by
  simp only [opcodeRows, List.forall_mem_cons, List.not_mem_nil, IsEmpty.forall_iff, implies_true, and_true]
  and_intros
  all_goals
    intro op hop
    simp [formatOfOpcode, hop, Laws.freeBits]

theorem exists_decode_iff_matchesARow {W : Nat} (hW : 8 ≤ W) (w : CommandWord W) :
    (∃ i, decode w = .ok i) ↔ MatchesARow W w.toNat := by
  refine ⟨fun ⟨i, hi⟩ => matchesARow_of_decode hW hi, fun ⟨⟨op, k⟩, hr, hop, hlow⟩ => ?_⟩
  obtain ⟨hopField, hargField⟩ := Laws.toNat_eq_fields w
  obtain ⟨f, hf, rfl⟩ := formatOfOpcode_of_mem_opcodeRows _ hr (opField w) (hopField.trans hop)
  refine (Laws.exists_decode_iff_legalWord w).mpr ((legalWord_iff w).mpr ⟨f, hf, ?_⟩)
  exact (Laws.reservedClear_iff hW f _).mpr (hargField ▸ hlow)

/-! ## The obligations -/

/-- Settles O2: the encoded word holds the opcode and the operand, which is what the decoder reads. -/
theorem decodeOfEncodeIsTheOperation : Obligations.DecodeOfEncodeIsTheOperation := by
  intro W i hW hi
  obtain ⟨-, hop, harg⟩ := Laws.EncodedWord.of_instr i W hW hi
  exact (decode_eq_ok_iff hW).mpr ⟨hop, harg⟩

/-- Settles O3: a word is its two fields, and these are the operation's opcode and operand. -/
theorem encodeOfDecodeIsTheWord : Obligations.EncodeOfDecodeIsTheWord := by
  intro W w i hW h
  obtain ⟨hop, harg⟩ := (decode_eq_ok_iff hW).mp h
  refine ⟨?word, decide_eq_true (harg ▸ (argField w).isLt)⟩
  case word => rw [encode, ← harg, BitVec.ofNat_toNat, BitVec.setWidth_eq, ← hop, Laws.opField_append_argField]

/-- Settles O4, by the rows of the opcode map, which at `W = 16` are the masks of the opcode table. -/
theorem legalWordsAreTheTableRows : Obligations.LegalWordsAreTheTableRows :=
  ⟨fun _ w hW => exists_decode_iff_matchesARow hW w,
    fun w => (exists_decode_iff_matchesARow (by decide) w).trans (matchesARow_iff_tableRows w)⟩

/-- Settles O1, by running the decoder on each word. -/
theorem decodesWrittenWords : Obligations.DecodesWrittenWords := by
  unfold Obligations.DecodesWrittenWords
  decide

end Sys2Proof.Machine

/-! What one step of the machine can be, said once for the statements about every step; the agents, the race window and
the response port (20_memory sections 3 and 4, 30_encoding section 4). -/

namespace Sys2Proof.Machine

/-! ## Which step is performed -/

/-- A turn of `A` with nothing of `A` in progress, or no turn and nothing for `S` to do. -/
theorem step_of_async_idle {s : State} (hA : s.portA.phase = .free)
    (ht : s.turns = [] ∧ s.syncReady = false ∨ s.turns.head? = some .async) : step s = beginAsync s.taken := by
  obtain ⟨ht, hr⟩ | ht := ht
  · obtain ⟨hS, hs⟩ : s.portS.phase = .free ∧ s.streamS = [] := by simpa [State.syncReady] using hr
    simp [step, schedule, ht, hA, State.syncReady, hS, hs, asyncTurn, State.taken]
  · obtain ⟨rest, ht⟩ := List.head?_eq_some_iff.mp ht
    simp [step, schedule, ht, hA, asyncTurn, State.taken]

/-- A turn of `S`, or no turn and a line of `S` waiting, with nothing in progress. -/
theorem step_of_sync_idle {s : State} (hA : s.portA.phase = .free) (hS : s.portS.phase = .free)
    (ht : s.turns = [] ∧ s.streamS ≠ [] ∨ s.turns.head? = some .sync) : step s = beginSync s.taken := by
  obtain ⟨ht, hs⟩ | ht := ht
  · simp [step, schedule, ht, hA, State.syncReady, hS, hs, syncTurn, State.taken]
  · obtain ⟨rest, ht⟩ := List.head?_eq_some_iff.mp ht
    simp [step, schedule, ht, hA, hS, syncTurn, State.taken]

/-- The command accepted from the agent that moves is performed. -/
theorem step_of_accepted_active {s : State} {i : Instr} (hm : s.ActiveMoves)
    (hp : (s.port s.active).phase = .accepted) (hd : s.command.decoded s.cfg.width = .ok i) :
    step s = exec i s.taken := by
  have hp' : (s.taken.port s.taken.active).phase = .accepted := hp
  have hd' : s.taken.command.decoded s.taken.cfg.width = .ok i := hd
  rw [step_of_activeMoves hm (by simp [hp])]
  simp only [advance, hp', runCommand, hd']

/-- The framer's operation in progress goes on with its next micro-step `k`. -/
theorem step_of_framer_active {s : State} {k : State → Step} (hm : s.ActiveMoves)
    (hk : (s.port s.active).phase = .building ∧ k = addMessageByte ∨
      (s.port s.active).phase = .parsing ∧ k = parserStep) : step s = framerStep k s.taken := by
  have hport : s.taken.port s.taken.active = s.port s.active := rfl
  obtain ⟨hp, rfl⟩ | ⟨hp, rfl⟩ := hk <;>
    rw [step_of_activeMoves hm (by simp [hp])] <;> simp only [advance, hport, hp]

/-! ## Everything a step that gives a next state can be -/

/-- A micro-step of the operation that moves. -/
inductive MicroStep (s t : State) : Prop where
  | perform {i : Instr} (hp : (s.port s.active).phase = .accepted) (hd : s.command.decoded s.cfg.width = .ok i)
      (h : exec i s = .next t)
  | illegal {e : DecodeError} (hp : (s.port s.active).phase = .accepted)
      (hd : s.command.decoded s.cfg.width = .error e) (h : t = s.answer .badCommand 0)
  | build (hp : (s.port s.active).phase = .building) (h : addMessageByte s = .next t)
  | parse (hp : (s.port s.active).phase = .parsing) (h : parserStep s = .next t)

/-- What a step that gives a next state does. -/
inductive StepEffect (s t : State) : Prop where
  | hwReset {rest : List Turn} (ht : s.turns = .hwReset :: rest)
      (h : t = { s with rsp := none, turns := rest }.hardwareReset)
  | micro (hm : s.ActiveMoves) (h : MicroStep s.taken t)
  | window (hm : s.ActiveMoves) (hp : (s.port s.active).phase = .building ∨ (s.port s.active).phase = .parsing)
      (hA : s.portA.phase = .free) (hprims : s.cfg.framerAtomicPrims = false) (hw : s.swin = false)
      (h : t = { s.taken with swin := true })
  | idle (hA : s.portA.phase = .free) (h : t = s.taken)
  | asyncBegins {c : Command} {rest : List Command} (hA : s.portA.phase = .free) (hs : s.streamA = c :: rest)
      (hie : s.ie = true) (hw : s.swin = false ∨ legalWord (c.bits s.cfg.width) = false)
      (h : t = { s.taken with streamA := rest, portA := { phase := .accepted, cmd := c } })
  | syncBegins {c : Command} {rest : List Line} (hA : s.portA.phase = .free) (hS : s.portS.phase = .free)
      (hs : s.streamS = .command c :: rest) (h : t = { s.taken with streamS := rest }.acceptSync c)
  | setIe {v : Bool} {rest : List Line} (hA : s.portA.phase = .free) (hS : s.portS.phase = .free)
      (hs : s.streamS = .setIe v :: rest) (h : t = { s.taken with streamS := rest, ie := v })

theorem advance_next {s t : State} (hb : (s.port s.active).phase ≠ .free) (h : advance s = .next t) :
    MicroStep s t ∨
      ((s.port s.active).phase = .building ∨ (s.port s.active).phase = .parsing) ∧ s.portA.phase = .free ∧
        s.cfg.framerAtomicPrims = false ∧ s.swin = false ∧ t = { s with swin := true } := by
  rcases advance_cases s with ⟨hp, -⟩ | ⟨hp, i, hd, ha⟩ | ⟨hp, e, hd, ha⟩ | ⟨hp, hS, hprims, hw, ha⟩ | ⟨hp, -, ha⟩ |
    ⟨hp, -, ha⟩
  · exact absurd hp hb
  · exact .inl (.perform hp hd (ha ▸ h))
  · rw [ha] at h; cases h
    exact .inl (.illegal hp hd rfl)
  · rw [ha] at h; cases h
    exact .inr ⟨hp, State.active_eq_sync.mp hS, hprims, hw, rfl⟩
  · exact .inl (.build hp (ha ▸ h))
  · exact .inl (.parse hp (ha ▸ h))

theorem step_next {s t : State} (h : step s = .next t) : StepEffect s t := by
  rcases step_cases s with ⟨rest, ht, hs⟩ | ⟨hm, hb, hs⟩ | ⟨hA, -, -, hs⟩ | ⟨hA, hS, -, hs⟩ <;> rw [hs] at h
  · cases h
    exact .hwReset ht rfl
  · rcases advance_next (s := s.taken) hb h with hmicro | ⟨hp, hA, hprims, hw, rfl⟩
    · exact .micro hm hmicro
    · exact .window hm hp hA hprims hw rfl
  · rcases beginAsync_cases s.taken with ⟨-, hbeg⟩ | ⟨c, rest, -, -, -, -, hbeg⟩ | ⟨c, rest, hs, hie, hw, hbeg⟩ <;>
      rw [hbeg] at h <;> cases h
    · exact .idle hA rfl
    · exact .asyncBegins hA hs hie hw rfl
  · rcases beginSync_cases s.taken with ⟨-, hbeg⟩ | ⟨c, rest, hs, hbeg⟩ | ⟨v, rest, hs, hbeg⟩ <;>
      rw [hbeg] at h <;> cases h
    · exact .idle hA rfl
    · exact .syncBegins hA hS hs rfl
    · exact .setIe hA hS hs rfl

/-! ## How a micro-step ends -/

theorem microStep_endsIn {s t : State} (h : MicroStep s t) : s.EndsIn t := by
  cases h with
  | perform _ _ h => exact exec_endsIn h
  | illegal _ _ h => exact h ▸ endsIn_answer (samePorts_rfl s) fun _ => rfl
  | build _ h => exact addMessageByte_endsIn h
  | parse _ h => exact parserStep_endsIn h

/-- What a micro-step leaves alone of the parameters and the environment. -/
theorem sameEnvironment_of_endsIn {s t : State} (h : s.EndsIn t) : s.SameEnvironment t := by
  obtain ⟨u, ⟨-, -, -, hcfg, hie, hsA, hsS, hturns⟩, ⟨e, d, -, rfl⟩ | rfl | rfl⟩ := h
  all_goals exact ⟨hcfg, hie, hsA, hsS, hturns⟩

/-- What a micro-step does to the ports. -/
theorem moved_of_endsIn {s t : State} (h : s.EndsIn t) : ∃ p, p ≠ .accepted ∧ s.Moved t p := by
  obtain ⟨u, ⟨hA, hS, hw, hcfg, -⟩, ⟨e, d, -, rfl⟩ | rfl | rfl⟩ := h
  · exact ⟨.free, nofun, (answered_answer e d hA hS hw hcfg).2⟩
  · exact ⟨.building, nofun, (paused_pause .building hA hS hw).2⟩
  · exact ⟨.parsing, nofun, (paused_pause .parsing hA hS hw).2⟩

/-- The response that a micro-step gives. -/
theorem rsp_of_endsIn {s t : State} {r : Response} (h : s.EndsIn t) (hr : t.rsp = some r) :
    ∃ (e : Status) (d : Nat), (e ≠ .ok → d = 0) ∧ r.word = rspWord s.cfg.width e.code.toNat d := by
  obtain ⟨u, ⟨-, -, -, hcfg, -⟩, ⟨e, d, hd, rfl⟩ | rfl | rfl⟩ := h
  · cases hr
    exact ⟨e, d, hd, by rw [hcfg, responseWord_toNat]⟩
  · cases hr
  · cases hr

/-- The response that a step gives. -/
theorem rsp_of_step {s t : State} {r : Response} (h : step s = .next t) (hr : t.rsp = some r) :
    ∃ (e : Status) (d : Nat), (e ≠ .ok → d = 0) ∧ r.word = rspWord s.cfg.width e.code.toNat d := by
  cases step_next h
  case micro hm hmicro => exact rsp_of_endsIn (s := s.taken) (microStep_endsIn hmicro) hr
  all_goals subst_vars; cases hr

/-! ## The obligations -/

theorem statusCode_le (e : Status) : e.code.toNat ≤ 9 ∨ e.code.toNat = 15 := by cases e <;> decide

theorem statusCode_eq_zero_iff (e : Status) : e.code.toNat = 0 ↔ e = .ok := by cases e <;> decide

/-- Settles O5: a response is an answer's word, whose fields are the status and the data. -/
theorem everyResponseIsWellFormed : Obligations.EveryResponseIsWellFormed := by
  intro s t r h hr
  obtain ⟨e, d, hd, hword⟩ := rsp_of_step h hr
  obtain ⟨hlt, hstatus, hzero, hdata⟩ := rspWord_fields s.cfg.width d e.code.isLt
  rw [hword, hstatus, hdata]
  refine ⟨hlt, hzero, statusCode_le e, fun hne => ?_⟩
  rw [hd ((statusCode_eq_zero_iff e).not.mp hne), Nat.zero_mod]

/-- Settles O6; a word placed by `withFetchWord` is a command accepted from `S`, with no turn given. -/
theorem stepPerformsTheAcceptedCommand : Obligations.StepPerformsTheAcceptedCommand := by
  refine ⟨fun s i hm hp hd => step_of_accepted_active hm hp hd, fun s w i hd => ?placed⟩
  case placed =>
    have hport := port_sync (s := s.withFetchWord (8 + s.cfg.width) w.toNat) rfl
    have hbits : (s.withFetchWord (8 + s.cfg.width) w.toNat).command.bits s.cfg.width = w := by
      rw [State.command, hport]
      exact BitVec.eq_of_toNat_eq (by simp [State.withFetchWord, State.acceptSync, Command.bits])
    exact step_of_accepted_active (.inl rfl) (congrArg Port.phase hport) ((congrArg decode hbits).trans hd)

/-- Settles O7, by whether the micro-step has a race window still to open. -/
theorem stepContinuesTheFramer : Obligations.StepContinuesTheFramer := by
  intro s k hm hk
  have hstep := step_of_framer_active hm hk
  refine ⟨fun hno => ?performed, fun ⟨hA, hprims, hw⟩ => ?opened⟩
  case performed =>
    rcases framerStep_cases k s.taken with ⟨hS, hprims, hw, -⟩ | ⟨-, hperform⟩
    · have hA : s.portA.phase = .free := State.active_eq_sync.mp hS
      simp [hA, show s.cfg.framerAtomicPrims = false from hprims, show s.swin = false from hw] at hno
    · rw [hstep, hperform]
  case opened =>
    rw [hstep]
    simp [framerStep, State.active_eq_sync.mpr hA, hprims, hw]

/-- Settles O13: nothing in progress and nothing to issue, so the step is a beginning that begins nothing. -/
theorem idleBlockDoesNothing : Obligations.IdleBlockDoesNothing := by
  have hwait : ∀ s : State, s.streamA = [] ∨ s.ie = false → beginAsync s.taken = .next s.taken := by
    intro s hs
    rcases beginAsync_cases s.taken with ⟨-, hbeg⟩ | ⟨c, rest, hcons, hie, -⟩ | ⟨c, rest, hcons, hie, -⟩
    · exact hbeg
    all_goals simp [show s.streamA = c :: rest from hcons, show s.ie = true from hie] at hs
  refine ⟨fun s ht hA hS hs hwaits => ?noTurn, fun s rest ht hA hwaits => ?async, fun s rest ht hA hS hs => ?sync⟩
  case noTurn =>
    rw [step_of_async_idle hA (.inl ⟨ht, by simp [State.syncReady, hS, hs]⟩), hwait s hwaits, taken_of_no_turns ht]
  case async =>
    rw [step_of_async_idle hA (.inr (by simp [ht])), hwait s hwaits]
    simp [State.taken, ht]
  case sync =>
    rw [step_of_sync_idle hA hS (.inr (by simp [ht]))]
    simp [beginSync, State.taken, hs, ht, hA]

/-- Settles O43: an operation of `A` in progress has the step to itself, and its micro-steps leave `S` alone. -/
theorem asyncRunsToItsEnd : Obligations.AsyncRunsToItsEnd := by
  intro s t hA hno h
  cases step_next h
  case hwReset ht _ => simp [ht] at hno
  case micro hm hmicro =>
    have hend := microStep_endsIn hmicro
    obtain ⟨p, -, hasync, -⟩ := moved_of_endsIn hend
    obtain ⟨-, hS, hw⟩ := hasync hA
    obtain ⟨-, -, hsA, hsS, -⟩ := sameEnvironment_of_endsIn hend
    exact ⟨hS, hsS, hw, hsA⟩
  all_goals exact absurd ‹s.portA.phase = .free› hA

/-- Settles O44: of the steps with nothing of `A` in progress only `A`'s own beginning takes a command of `A`, and it
needs `ie = 1`. -/
theorem asyncWaitsWhileDisabled : Obligations.AsyncWaitsWhileDisabled := by
  intro s t hie hA h
  cases step_next h
  case micro hm hmicro =>
    have hend := microStep_endsIn hmicro
    obtain ⟨p, -, -, hsync⟩ := moved_of_endsIn hend
    obtain ⟨-, hA', -⟩ := hsync hA
    obtain ⟨-, -, hsA, -⟩ := sameEnvironment_of_endsIn hend
    exact ⟨hA' ▸ hA, hsA⟩
  case asyncBegins hie' _ _ => simp [hie] at hie'
  case hwReset h => exact h ▸ ⟨rfl, rfl⟩
  all_goals subst_vars; exact ⟨hA, rfl⟩

/-- Settles O48: a micro-step keeps `ie`, and of the other steps only the host's move writes it. -/
theorem onlyTheHostWritesIe : Obligations.OnlyTheHostWritesIe := by
  intro s t h hne
  cases step_next h
  case micro hm hmicro =>
    obtain ⟨-, hie, -⟩ := sameEnvironment_of_endsIn (microStep_endsIn hmicro)
    exact absurd hie hne
  case setIe v rest hA hS hs h => exact ⟨v, rest, hs, h ▸ rfl, hA, hS⟩
  all_goals subst_vars; exact absurd rfl hne

/-- Settles O50: no step writes the parameters, the hardware reset included. -/
theorem noStepChangesTheParameters : Obligations.NoStepChangesTheParameters := by
  intro s t h
  cases step_next h
  case micro hm hmicro => exact (sameEnvironment_of_endsIn (microStep_endsIn hmicro)).1
  all_goals subst_vars; rfl

/-- An operation has a race window exactly when 20_memory R52 or R53 says so. -/
theorem opensWindow_iff (cfg : Config) (i : Instr) :
    opensWindow cfg i = true ↔
      (∃ n, i = .initStatic n) ∨ (∃ n, i = .initDynamic n) ∨ i = .teardown ∨ i = .reset ∨ (∃ b, i = .push b) ∨
        (∃ b, i = .pushOvw b) ∨ i = .pop ∨ (∃ n, i = .peek n) ∨ i = .dump ∨
        (((∃ n, i = .addMessage n) ∨ i = .getMessage) ∧ cfg.framerAtomicPrims = false) := by
  cases i <;> simp [opensWindow, plainOp, framerOp]

/-- Settles O46: the step is the acceptance, which writes the port, the window and the stream of `S`. -/
theorem windowOpensForPlainOperations : Obligations.WindowOpensForPlainOperations := by
  intro s c rest hA hS ht hs
  have hstep : step s = .next ({ s.taken with streamS := rest }.acceptSync c) := by
    rw [step_of_sync_idle hA hS (ht.imp_left fun h => ⟨h, by simp [hs]⟩)]
    simp [beginSync, State.taken, hs]
  refine ⟨_, hstep, rfl, rfl, rfl, rfl, fun e he => ?illegal, fun i hi => ?legal, sameControl_rfl s, sameIndices_rfl s,
    sameStore_rfl s, ⟨rfl, rfl, rfl, rfl⟩, sameBuilder_rfl s, sameOutput_rfl s, sameDiag_rfl s, rfl⟩
  case illegal => simp [commandOpensWindow, he]
  case legal => simp [commandOpensWindow, hi, opensWindow_iff]

/-- Settles O49: the two beginnings that accept no command of `S`. -/
theorem hostAndAgentMovesBegin : Obligations.HostAndAgentMovesBegin := by
  refine ⟨fun s v rest hA hS ht hs => ⟨{ s.taken with streamS := rest, ie := v }, ?setIe, ?_⟩,
    fun s c rest hA ht hie hw hs =>
      ⟨{ s.taken with streamA := rest, portA := { phase := .accepted, cmd := c } }, ?begins, ?_⟩⟩
  case setIe =>
    rw [step_of_sync_idle hA hS (ht.imp_left fun h => ⟨h, by simp [hs]⟩)]
    simp [beginSync, State.taken, hs]
  case begins =>
    rw [step_of_async_idle hA (.inr ht)]
    simp [beginAsync, State.taken, hs, hie, hw]
  all_goals
    exact ⟨rfl, rfl, rfl, rfl, rfl, rfl, rfl, rfl, sameControl_rfl s, sameIndices_rfl s, rfl, ⟨rfl, rfl, rfl, rfl⟩,
      sameBuilder_rfl s, rfl, rfl, rfl⟩

end Sys2Proof.Machine

/-! The operations: INIT_DYNAMIC (40_ring_lifecycle), the ring as a bounded queue (20_memory section 5), DUMP
(42_ring_config_watermarks), and the builder and the parser (43_framer). -/

namespace Sys2Proof.Machine

/-! ## INIT_DYNAMIC, by `life`, the operand and the draw (40 R92) -/

theorem exec_initDynamic_of_granted {s : State} {n : Nat} (hl : s.life ≠ .dynamic) (h1 : 1 ≤ n)
    (hn : n ≤ s.cfg.storeBytes) (hg : s.command.grant = true) :
    exec (.initDynamic n) s = .next ((s.initRing .dynamic n (n - 1) 1).answer .ok 0) := by
  simp [exec, execInitDynamic, hl, Nat.pos_iff_ne_zero.mp h1, Nat.not_lt.mpr hn, hg]

theorem exec_initDynamic_of_failed {s : State} {n : Nat} (hl : s.life ≠ .dynamic) (h1 : 1 ≤ n)
    (hn : n ≤ s.cfg.storeBytes) (hg : s.command.grant = false) :
    exec (.initDynamic n) s = .next (s.voidRing.answer .allocationError 0) := by
  simp [exec, execInitDynamic, hl, Nat.pos_iff_ne_zero.mp h1, Nat.not_lt.mpr hn, hg]

theorem exec_initDynamic_of_dynamic {s : State} (n : Nat) (hl : s.life = .dynamic) :
    exec (.initDynamic n) s = .refused .initOverDynamic := if_pos hl

theorem exec_initDynamic_of_zero {s : State} {n : Nat} (hl : s.life ≠ .dynamic) (h0 : n = 0) :
    exec (.initDynamic n) s = .refused .zeroSize := by
  simp [exec, execInitDynamic, hl, h0]

theorem exec_initDynamic_of_lt {s : State} {n : Nat} (hl : s.life ≠ .dynamic) (h1 : 1 ≤ n)
    (hn : s.cfg.storeBytes < n) : exec (.initDynamic n) s = .refused .storeTooSmall := by
  simp [exec, execInitDynamic, hl, Nat.pos_iff_ne_zero.mp h1, hn]

/-- Settles O15: the defaults are read off the ring that a granted INIT_DYNAMIC leaves, and one that is not granted
reads none of the ring's registers. -/
theorem initDynamicEffect : Obligations.InitDynamicEffect := by
  intro s n
  refine ⟨fun hl h1 hn hg => ⟨_, exec_initDynamic_of_granted hl h1 hn hg, answered_answer .ok 0 rfl rfl rfl rfl, ?_⟩,
    fun hl h1 hn hg => ⟨fun _ _ _ _ _ _ _ _ => ?forgets, ?failed⟩, exec_initDynamic_of_dynamic n,
    exec_initDynamic_of_zero, exec_initDynamic_of_lt, fun _ => Laws.encode_toNat (i := .initDynamic n)⟩
  case forgets => exact .trans (exec_initDynamic_of_failed hl h1 hn hg) (exec_initDynamic_of_failed hl h1 hn hg).symm
  case failed =>
    exact ⟨_, exec_initDynamic_of_failed hl h1 hn hg, answered_answer .allocationError 0 rfl rfl rfl rfl, rfl,
      memory_read_nil, sameOutside_answer .allocationError 0 (sameOutside_voidRing s)⟩
  have hfull : (s.initRing .dynamic n (n - 1) 1).full = false := beq_false_of_ne (by simp; omega)
  have hhigh : (s.initRing .dynamic n (n - 1) 1).wm = .high ↔ n = 1 := by
    rw [wm_eq_high_iff, State.initRing_highWatermark, State.initRing_count]
    omega
  have hlow : (s.initRing .dynamic n (n - 1) 1).wm = .low ↔ 2 ≤ n := by
    rw [wm_eq_low_iff, State.initRing_highWatermark, State.initRing_lowWatermark, State.initRing_count]
    omega
  exact ⟨rfl, rfl, rfl, rfl, rfl, Nat.sub_add_cancel h1, rfl, rfl, memory_read_nil, rfl, hfull, hhigh, hlow,
    sameOutside_answer .ok 0 (sameOutside_initRing s _ _ _ _)⟩

/-- Settles O18: every meaning but those of the inits and TEARDOWN tests `life` first. -/
theorem uninitRefusesTheRing : Obligations.UninitRefusesTheRing := by
  intro s hl
  refine ⟨fun i hstatic hdynamic hteardown => ?_, if_pos hl, if_pos hl⟩
  cases i
  case initStatic n => exact absurd rfl (hstatic n)
  case initDynamic n => exact absurd rfl (hdynamic n)
  case teardown => exact absurd rfl hteardown
  all_goals exact if_pos hl

/-- Settles O54: both flags hold when `count` is 0 and `size` at once. -/
theorem emptyAndFullExclude : Obligations.EmptyAndFullExclude := by
  intro s hr
  have hle : s.count ≤ s.size := hr.1
  rw [empty_iff, full_iff]
  omega

/-! ## DUMP (42 R145) -/

theorem exec_dump_of_snapshot {s t : State} (hl : s.Live) (h : snapshot s.count s = .done () t) :
    exec .dump s = .next (t.answer .ok s.count) := by
  simp only [exec, execDump, liveOnly_of_live hl, answerPrim, h, Prim.finish]

/-- Settles O29: the snapshot of all `count` positions writes DIAG alone. -/
theorem dumpEffect : Obligations.DumpEffect := by
  refine ⟨fun W => encode_toNat_of_operand_eq_zero W rfl, fun _ => rfl, fun s hl hr => ?_⟩
  obtain ⟨d, hsnap, hlow, hhigh, -⟩ := snapshot_of_ringOk hr le_rfl
  have ⟨_, _, _, hread, _⟩ := hr
  exact ⟨_, exec_dump_of_snapshot hl hsnap, answered_answer .ok _ rfl rfl rfl rfl,
    fun i hi => ⟨hlow i hi, (congrArg Option.isSome (hlow i hi)).trans (hread i hi)⟩, hhigh, sameControl_rfl s,
    sameIndices_rfl s, sameStore_rfl s, ⟨rfl, rfl, rfl, rfl⟩, sameBuilder_rfl s, sameOutput_rfl s,
    sameEnvironment_rfl s⟩

/-- The state that the first `n` micro-steps of a DUMP leave. -/
def State.afterReads (s : State) (n : Nat) : State :=
  match snapshot n s with
  | .done _ t => t
  | .fail _ => s
  | .fault _ => s
  | .refused _ => s

theorem afterReads_of_snapshot {s t : State} {n : Nat} (h : snapshot n s = .done () t) : s.afterReads n = t := by
  simp only [State.afterReads, h]

theorem snapshot_afterReads {s : State} (hr : s.RingOk) {n : Nat} (hn : n ≤ s.count) :
    snapshot n s = .done () (s.afterReads n) := by
  obtain ⟨d, h, -⟩ := snapshot_of_ringOk hr hn
  rw [h, afterReads_of_snapshot h]

/-- One byte micro-step of DUMP at a valid position. -/
theorem snapshotByte_afterReads {s : State} (hr : s.RingOk) {i : Nat} (hi : i < s.count) :
    ∃ b, s.store.read (s.physicalIndex i) = some b ∧
      s.afterReads (i + 1) = { s.afterReads i with diag := (s.afterReads i).diag.write i b } ∧
      snapshotByte i (s.afterReads i) = .done () (s.afterReads (i + 1)) := by
  have ⟨hle, _, _, hread, _⟩ := hr
  obtain ⟨b, hb⟩ := Option.isSome_iff_exists.mp (hread i hi)
  have hsnap := snapshot_afterReads hr hi.le
  obtain ⟨d, hd⟩ := snapshot_done_eq hsnap
  have hget : storeRead ((s.afterReads i).physicalIndex i) (s.afterReads i) = .done b (s.afterReads i) := by
    rw [hd]
    exact storeRead_of_read (physicalIndex_lt s i (by omega)) hb
  have hbyte : snapshotByte i (s.afterReads i) =
      .done () { s.afterReads i with diag := (s.afterReads i).diag.write i b } := by
    rw [snapshotByte, hget]
    rfl
  have hnext : s.afterReads (i + 1) = { s.afterReads i with diag := (s.afterReads i).diag.write i b } :=
    afterReads_of_snapshot (by rw [snapshot, hsnap, Prim.andThen, hbyte])
  exact ⟨b, hb, hnext, hnext ▸ hbyte⟩

/-- Settles O59: the states in between are those that the shorter snapshots leave. -/
theorem dumpIsItsSequenceOfByteReads : Obligations.DumpIsItsSequenceOfByteReads := by
  intro s hl hr
  refine ⟨s.afterReads, rfl, fun i hi => ?_, exec_dump_of_snapshot hl (snapshot_afterReads hr le_rfl)⟩
  obtain ⟨b, hb, hnext, hbyte⟩ := snapshotByte_afterReads hr hi
  exact ⟨hbyte, b, hb, hnext⟩

/-! ## The ring as a queue (20_memory section 5, 41 R120) -/

/-- `t` is an answer to the agent that moves in `s`, on a ring that meets its invariant and holds `q`. -/
abbrev State.AnsweredWith (s t : State) (e : Status) (d : Nat) (q : List Byte) : Prop :=
  t.contents = q.map some ∧ t.rsp = some { agent := s.active, word := rspWord s.cfg.width e.code.toNat d } ∧ t.RingOk

theorem answeredWith_answer {s u : State} (e : Status) (d : Nat) {q : List Byte} (hA : u.portA = s.portA)
    (hcfg : u.cfg = s.cfg) (hq : u.contents = q.map some) (hr : u.RingOk) : s.AnsweredWith (u.answer e d) e d q :=
  ⟨hq, by rw [State.answer_rsp, State.active_congr hA, hcfg, responseWord_toNat], hr⟩

theorem ringOk_emptied {s : State} (h : s.RingOk) : { s with head := 0, tail := 0, count := 0 }.RingOk := by
  obtain ⟨-, -, -, -, hwm⟩ := h
  exact ⟨Nat.zero_le _, fun hn => ⟨hn, hn, rfl⟩, fun _ => ⟨rfl, rfl⟩, nofun, hwm⟩

theorem queue_length {s : State} {q : List Byte} (hq : s.contents = q.map some) : q.length = s.count := by
  simpa using (congrArg List.length hq).symm

section
variable {s : State} {q q' : List Byte} {e : Status} {d : Nat} (hr : s.RingOk) (hq : s.contents = q.map some)
include hr hq

theorem answerPush_is_queuePush {o : Bool} {b : Byte} (h : queuePush s.size o b q = some (e, d, q')) :
    ∃ t, answerPrim s (ringPush o b s) (fun _ => 0) = .next t ∧ s.AnsweredWith t e d q' := by
  have hlen := queue_length hq
  have hle : s.count ≤ s.size := hr.1
  unfold queuePush at h
  split_ifs at h with hroom ho h0 <;> cases h
  · rw [hlen] at hroom
    rw [ringPush_of_room hr hroom]
    exact ⟨_, rfl, answeredWith_answer .ok 0 rfl rfl (by simp [contents_pushed hr hroom, hq])
      (ringOk_pushed hr hroom b)⟩
  · have hf : s.count = s.size := by omega
    have hn : 0 < s.size := Nat.pos_of_ne_zero h0
    rw [ho, ringPush_of_full_overwrite hr hf h0]
    exact ⟨_, rfl, answeredWith_answer .ok 0 rfl rfl (by simp [contents_overwritten hr hf hn, hq])
      (ringOk_overwritten hr hf hn b)⟩
  · have hf : s.count = s.size := by omega
    rw [Bool.eq_false_iff.mpr ho, ringPush_of_full hf]
    exact ⟨_, rfl, answeredWith_answer .full 0 rfl rfl hq hr⟩

theorem answerPop_is_queuePop (h : queuePop q = (e, d, q')) :
    ∃ t, answerPrim s (ringPop s) zextByte = .next t ∧ s.AnsweredWith t e d q' := by
  have hlen := queue_length hq
  cases q with
  | nil =>
    cases h
    rw [ringPop_of_empty hlen.symm]
    exact ⟨_, rfl, answeredWith_answer .empty 0 rfl rfl hq hr⟩
  | cons b rest =>
    cases h
    have hc : s.count ≠ 0 := by simp [← hlen]
    obtain ⟨a, -, hhead, hpop⟩ := ringPop_of_ringOk hr hc
    obtain rfl : b = a := by simpa [hq] using hhead
    rw [hpop]
    exact ⟨_, rfl, answeredWith_answer .ok _ rfl rfl (by simp [contents_popped hc, hq]) (ringOk_popped hr hc)⟩

theorem answerPeek_is_queuePeek {n : Nat} (h : queuePeek n q = (e, d, q')) :
    ∃ t, answerPrim s (ringPeek n s) zextByte = .next t ∧ s.AnsweredWith t e d q' := by
  have hlen := queue_length hq
  by_cases hn : n < s.count
  · obtain ⟨b, hb, hpeek⟩ := ringPeek_of_ringOk hr hn
    have hget : q[n]? = some b := by simpa [hq, hb] using contents_get s hn
    rw [queuePeek, hget] at h
    cases h
    rw [hpeek]
    exact ⟨_, rfl, answeredWith_answer .ok _ rfl rfl hq hr⟩
  · have hge : s.count ≤ n := Nat.not_lt.mp hn
    rw [queuePeek, List.getElem?_eq_none (hlen.trans_le hge)] at h
    cases h
    rw [ringPeek_of_out_of_range hge]
    exact ⟨_, rfl, answeredWith_answer .outOfRange 0 rfl rfl hq hr⟩

end

/-- Settles O25, operation by operation. -/
theorem ringIsABoundedQueue : Obligations.RingIsABoundedQueue := by
  intro s i q q' e d hl hr hq h
  have hlen := queue_length hq
  cases i
  case push b =>
    rw [exec_push_of_live hl]
    exact answerPush_is_queuePush hr hq h
  case pushSafe b =>
    rw [exec_pushSafe_eq_push, exec_push_of_live hl]
    exact answerPush_is_queuePush hr hq h
  case pushOvw b =>
    rw [exec_pushOvw_of_live hl]
    exact answerPush_is_queuePush hr hq h
  case pop =>
    rw [exec_pop_of_live hl]
    exact answerPop_is_queuePop hr hq (Option.some.inj h)
  case popSafe =>
    rw [exec_popSafe_eq_pop, exec_pop_of_live hl]
    exact answerPop_is_queuePop hr hq (Option.some.inj h)
  case peek n =>
    rw [exec_peek_of_live hl]
    exact answerPeek_is_queuePeek hr hq (Option.some.inj h)
  case isEmpty =>
    cases h
    have hempty : q = [] ↔ s.count = 0 := by rw [← hlen, List.length_eq_zero_iff]
    rw [exec_isEmpty_of_live hl, ← if_congr hempty rfl rfl]
    exact ⟨_, rfl, answeredWith_answer .ok _ rfl rfl hq hr⟩
  case isFull =>
    cases h
    rw [exec_isFull_of_live hl, hlen]
    exact ⟨_, rfl, answeredWith_answer .ok _ rfl rfl hq hr⟩
  case reset =>
    cases h
    exact ⟨_, exec_reset_of_live hl, answeredWith_answer .ok 0 rfl rfl rfl (ringOk_emptied hr)⟩
  case dump =>
    cases h
    obtain ⟨m, hsnap, -⟩ := snapshot_of_ringOk hr le_rfl
    rw [hlen]
    exact ⟨_, exec_dump_of_snapshot hl hsnap, answeredWith_answer .ok _ rfl rfl hq hr⟩
  all_goals cases h

/-! ## The builder's micro-steps (43 R162) -/

/-- Micro-step B0 of a length below 3, whatever the free space. -/
theorem exec_addMessage_of_short {s : State} {n : Byte} (hl : s.Live) (hb : s.builderBusy = false) (hn : n.toNat < 3) :
    exec (.addMessage n) s = .next ({ s with blen := n }.voidBuilder.answer .invalidLength 0) := by
  simp only [exec, execAddMessage, liveOnly_of_live hl, hb, if_pos ((byte_lt_minLen_iff n).mpr hn)]
  rfl

/-- Micro-step B0 of a valid length without room for it. -/
theorem exec_addMessage_of_no_room {s : State} {n : Byte} (hl : s.Live) (hb : s.builderBusy = false)
    (hn : 3 ≤ n.toNat) (hroom : s.freeSpace < n.toNat) :
    exec (.addMessage n) s = .next ({ s with blen := n }.voidBuilder.answer .insufficientSpace 0) := by
  have hlen : ¬ n < minLen := by rw [byte_lt_minLen_iff]; omega
  simp only [exec, execAddMessage, liveOnly_of_live hl, hb, if_neg hlen, if_pos hroom]
  rfl

/-- Settles O30, by the three tests in their order. -/
theorem addMessageCheckEffect : Obligations.AddMessageCheckEffect := by
  intro s n hl
  refine ⟨fun hb => exec_addMessage_of_busy hl hb n, fun hb hn => ?short, fun hb hn hroom => ?noRoom,
    fun hb hn hroom => ?begun⟩
  case short =>
    exact ⟨_, exec_addMessage_of_short hl hb hn, answered_answer .invalidLength 0 rfl rfl rfl rfl, sameControl_rfl s,
      sameIndices_rfl s, sameStore_rfl s, ⟨rfl, rfl, rfl, rfl⟩, sameOutput_rfl s, sameDiag_rfl s, sameEnvironment_rfl s⟩
  case noRoom =>
    exact ⟨_, exec_addMessage_of_no_room hl hb hn hroom, answered_answer .insufficientSpace 0 rfl rfl rfl rfl,
      sameControl_rfl s, sameIndices_rfl s, sameStore_rfl s, ⟨rfl, rfl, rfl, rfl⟩, sameOutput_rfl s, sameDiag_rfl s,
      sameEnvironment_rfl s⟩
  case begun =>
    exact ⟨_, exec_addMessage_of_room hl hb hn (by omega), paused_pause .building rfl rfl rfl, rfl, rfl,
      sameControl_rfl s, sameIndices_rfl s, sameStore_rfl s, ⟨rfl, rfl, rfl, rfl⟩, sameOutput_rfl s, sameDiag_rfl s,
      sameEnvironment_rfl s⟩

theorem addMessageByte_of_push {s u : State} (hl : s.Live)
    (h : ringPush s.overwriteEnabled (s.command.messageByte s.bidx) s = .done () u) :
    addMessageByte s = .next u.byteAdded := by
  rw [addMessageByte, liveOnly_of_live hl, h]
  rfl

/-- The byte added: whether it is the last one, and the offset after it. -/
abbrev State.ByteEnds (s t : State) : Prop :=
  (s.bidx + 1 = s.blen → s.Answered t 0x0 0) ∧
  (s.bidx + 1 ≠ s.blen → s.Paused t .building ∧ t.bidx = s.bidx + 1 ∧ t.blen = s.blen ∧
    (s.bidx.toNat < s.blen.toNat → t.bidx.toNat = s.bidx.toNat + 1 ∧ t.bidx.toNat < t.blen.toNat))

theorem byteEnds_byteAdded {s u : State} (hu : s.SamePorts u) (hb : s.SameBuilder u) : s.ByteEnds u.byteAdded := by
  obtain ⟨hA, hS, hw, hcfg, -⟩ := hu
  obtain ⟨hblen, hbidx⟩ := hb
  refine ⟨fun he => ?last, fun hne => ?more⟩
  case last =>
    rw [byteAdded_of_last (by rw [hbidx, hblen, he])]
    exact answered_answer .ok 0 hA hS hw hcfg
  case more =>
    rw [byteAdded_of_more (by rwa [hbidx, hblen])]
    refine ⟨paused_pause .building hA hS hw, congrArg (· + 1) hbidx, hblen, fun hlt => ?_⟩
    have hsucc := byte_succ_toNat hlt
    rw [Ne, byte_succ_eq_iff hlt] at hne
    change (u.bidx + 1).toNat = _ ∧ (u.bidx + 1).toNat < u.blen.toNat
    rw [hbidx, hblen]
    exact ⟨hsucc, by omega⟩

/-- What the end of a byte micro-step leaves alone. -/
theorem byteAdded_keeps (u : State) :
    u.byteAdded.contents = u.contents ∧ u.SameIndices u.byteAdded ∧ u.byteAdded.store = u.store ∧
      u.SameControl u.byteAdded ∧ u.SameParser u.byteAdded ∧ u.SameOutput u.byteAdded ∧ u.SameDiag u.byteAdded ∧
      u.SameEnvironment u.byteAdded := by
  unfold State.byteAdded
  split
  all_goals
    exact ⟨rfl, sameIndices_rfl u, rfl, sameControl_rfl u, ⟨rfl, rfl, rfl, rfl⟩, sameOutput_rfl u, sameDiag_rfl u,
      sameEnvironment_rfl u⟩

theorem msgIn_getElem? (c : Command) (i : Byte) : c.msgIn[i.toNat]? = some (c.messageByte i) :=
  Vector.getElem?_eq_getElem i.isLt

/-- Settles O31, by the answers of the canonical push. -/
theorem addMessageByteEffect : Obligations.AddMessageByteEffect := by
  intro s hl hr
  refine ⟨fun hc => ?room, fun hf ho => ?full, fun hf ho h0 => ?overwrite, fun h0 ho => ?zero⟩
  case room =>
    have hlt : s.count < s.size := lt_of_le_of_ne hr.1 hc
    obtain ⟨hends, hmore⟩ := byteEnds_byteAdded (s := s) (u := s.pushed (s.command.messageByte s.bidx))
      (samePorts_rfl s) (sameBuilder_rfl s)
    obtain ⟨hcont, ⟨hhead, htail, hcount⟩, hstore, hrest⟩ := byteAdded_keeps (s.pushed (s.command.messageByte s.bidx))
    exact ⟨_, _, msgIn_getElem? _ _, addMessageByte_of_room hl hr hlt, hends, hmore,
      hcont.trans (contents_pushed hr hlt _), hhead, htail, hcount,
      fun a ha => by rw [hstore]; exact memory_read_write_of_ne s.store _ ha, hrest⟩
  case full =>
    have hbyte : addMessageByte s = .next (s.voidBuilder.answer .full 0) := by
      rw [addMessageByte, liveOnly_of_live hl, ho, ringPush_of_full hf]
      rfl
    exact ⟨_, hbyte, answered_answer .full 0 rfl rfl rfl rfl, sameIndices_rfl s, sameStore_rfl s, sameControl_rfl s,
      ⟨rfl, rfl, rfl, rfl⟩, sameOutput_rfl s, sameDiag_rfl s, sameEnvironment_rfl s⟩
  case overwrite =>
    have hn : 0 < s.size := Nat.pos_of_ne_zero h0
    have hpush := ringPush_of_full_overwrite hr hf h0 (s.command.messageByte s.bidx)
    rw [← ho] at hpush
    obtain ⟨hends, hmore⟩ := byteEnds_byteAdded (s := s) (u := s.overwritten (s.command.messageByte s.bidx))
      (samePorts_rfl s) (sameBuilder_rfl s)
    obtain ⟨hcont, ⟨hhead, htail, hcount⟩, hstore, hrest⟩ :=
      byteAdded_keeps (s.overwritten (s.command.messageByte s.bidx))
    have hmeet : inc s.size s.tail = inc s.size s.head := by rw [head_eq_tail_of_full hr hf hn]
    exact ⟨_, _, msgIn_getElem? _ _, addMessageByte_of_push hl hpush, hends, hmore,
      hcont.trans (contents_overwritten hr hf hn _), hhead, htail.trans (hmeet.trans hhead.symm), hcount,
      fun a ha => by rw [hstore]; exact memory_read_write_of_ne s.store _ ha, hrest⟩
  case zero =>
    rw [addMessageByte, liveOnly_of_live hl, ho, ringPush_of_zero_size hr h0]
    rfl

/-- Settles O32: the run of the whole operation, counted in bytes. -/
theorem addMessageDeliversTheMessage : Obligations.AddMessageDeliversTheMessage := by
  intro s n hinv hl ht hp hd hb hn hroom
  obtain ⟨-, hring, -⟩ := hinv
  obtain ⟨t, hrun, hans, hrec⟩ := addMessage_reaches hl ht hroom (hring hl) hp hd hb hn
  have hcount := count_of_received hrec
  rw [message_length _ n.isLt.le] at hcount
  obtain ⟨-, hcont, htail, hrest⟩ := hrec
  exact ⟨t, hrun, hans, hcont, hcount, htail, hrest⟩

/-! ## The parser's micro-steps (43 R168), and GET_MESSAGE whole on a frame that is not delivered -/

/-- Settles O36, by whether the ring is empty. -/
theorem getMessagePayloadStep : Obligations.GetMessagePayloadStep := by
  intro s hl hr hf
  refine ⟨fun hc => ?dry, fun hc => ?popped⟩
  case dry =>
    exact ⟨_, parserStep_of_dry hl (.inr hf) hc, answered_answer .incomplete 0 rfl rfl rfl rfl, rfl, sameControl_rfl s,
      sameIndices_rfl s, sameStore_rfl s, sameBuilder_rfl s, sameOutput_rfl s, sameDiag_rfl s, sameEnvironment_rfl s⟩
  case popped =>
    obtain ⟨b, hb, -, hpop⟩ := ringPop_of_ringOk hr hc
    exact ⟨_, b, hb, parserStep_of_consumePayload hl hf hpop, paused_pause .parsing rfl rfl rfl,
      memory_read_write_same _ _ b, fun _ => memory_read_write_of_ne _ b, rfl, rfl, rfl, rfl, byte_succ_toNat, rfl, rfl,
      Nat.sub_add_cancel (Nat.pos_of_ne_zero hc), rfl, sameStore_rfl s, sameControl_rfl s, sameBuilder_rfl s,
      sameDiag_rfl s, sameEnvironment_rfl s⟩

theorem exists_payload_of_header {start len : Byte} {m : List Byte} (hstart : m[0]? = some start)
    (hlen : m[1]? = some len) : ∃ payload, m = start :: len :: payload := by
  match m with
  | [] => simp at hstart
  | [_] => simp at hlen
  | _ :: _ :: payload =>
    cases hstart
    cases hlen
    exact ⟨payload, rfl⟩

/-- GET_MESSAGE between micro-steps, START, a valid length and as many bytes of the payload read as the ring gave. -/
theorem parsingAt_reached {s : State} {len : Byte} {payload : List Byte} {q : List (Option Byte)} (hl : s.Live)
    (ht : s.turns = []) (hr : s.RingOk) (hp : (s.port s.active).phase = .accepted)
    (hd : s.command.decoded s.cfg.width = .ok .getMessage) (hb : s.parserBusy = false) (hmin : 3 ≤ len.toNat)
    (hlen : payload.length + 2 ≤ len.toNat)
    (hq : s.contents = (s.cfg.startByte :: len :: payload).map some ++ q) :
    ∃ t, s.Reaches (1 + (s.microSteps + s.microSteps * payload.length)) t ∧ s.ParsingAt len payload q t := by
  obtain ⟨a, ha, hdr, hmoved, hf, hobuf, holen⟩ := awaitLength_reached hl ht hr hp hd hb hq
  obtain ⟨t, ht1, hbegun⟩ := parsingAt_begun hl ht hmin hdr hmoved hf hobuf holen
  obtain ⟨u, hu, hread⟩ := parsingAt_payloads hl ht (by simpa using hlen) hbegun
  exact ⟨u, reaches_trans ha (reaches_trans ht1 hu), hread⟩

/-- The end of a GET_MESSAGE that delivers nothing, in a later micro-step. -/
theorem parsingAt_failed {s t : State} {len : Byte} {read : List Byte} {q : List (Option Byte)} {e : Status}
    (ht : s.turns = []) (h : s.ParsingAt len read q t)
    (hstep : parserStep t.windowed = .next (t.windowed.voidParser.answer e 0)) :
    ∃ u, t.Reaches s.microSteps u ∧ s.Answered u e.code.toNat 0 ∧ u.olen = s.olen ∧
      Memory.Holds s.obuf u.obuf (s.cfg.startByte :: len :: read) ∧ s.Drained u q := by
  obtain ⟨hd, hm, hobuf, holen, -⟩ := h
  have hans := answered_trans hm nofun (cfg_of_drained hd) (answered_answer (s := t.windowed)
    (u := t.windowed.voidParser) e 0 rfl rfl rfl rfl)
  have hkept : s.Drained t.windowed q := hd
  exact ⟨_, parserStep_reaches ht hd hm hstep, hans, holen, hobuf, drained_answer e 0 (drained_voidParser hkept)⟩

/-- Settles O39: the run of the whole operation. -/
theorem getMessageDeliversAValidFrame : Obligations.GetMessageDeliversAValidFrame := by
  intro s len m rest hinv hl ht hp hd hb hm hq
  obtain ⟨-, hring, -⟩ := hinv
  obtain ⟨t, hrun, hans, holen, ⟨hlow, hhigh⟩, -, hcont, hhead, hstore, hctl, hbuild, hdiag, henv⟩ :=
    getMessage_reaches hl ht (hring hl) hp hd hb hm hq
  obtain ⟨-, hlen, -⟩ := hm
  rw [hlen] at hlow hhigh
  exact ⟨t, hrun, hans, holen, hlow, hhigh, hcont, hhead, hstore, hctl, hbuild, hdiag, henv⟩

/-- Settles O40: after the last byte the running exclusive-or is not zero, so PV answers ChecksumMismatch. -/
theorem getMessageRejectsABadChecksum : Obligations.GetMessageRejectsABadChecksum := by
  intro s len m rest hinv hl ht hp hd hb hmin hlen hstart hlength hx hq
  obtain ⟨-, hring, -⟩ := hinv
  obtain ⟨payload, rfl⟩ := exists_payload_of_header hstart hlength
  have hplen : payload.length + 2 = len.toNat := hlen
  obtain ⟨t, hreach, hat⟩ := parsingAt_reached hl ht (hring hl) hp hd hb hmin hplen.le hq
  have ⟨hdr, _, _, _, _, _, hfxor, hfstate⟩ := hat
  rw [if_pos hplen] at hfstate
  have hpv := parserStep_of_validate (s := t.windowed) (live_of_drained hl hdr) hfstate
  rw [validated_of_ne_zero (s := t.windowed) (hfxor.trans_ne hx)] at hpv
  obtain ⟨u, hlast, hans, holen, ⟨hlow, -⟩, -, hcont, -, hstore, hctl, -⟩ := parsingAt_failed ht hat hpv
  have hsteps : s.framerSteps len.toNat = 1 + (s.microSteps + s.microSteps * payload.length) + s.microSteps := by
    rw [framerSteps_eq, ← hplen]
    ring
  exact ⟨u, hsteps ▸ reaches_trans hreach hlast, hans, holen, hlen ▸ hlow, hcont, hctl, hstore⟩

/-- Settles O41: after the bytes that the ring holds the next micro-step finds it dry. -/
theorem getMessageDrainsAnIncompleteFrame : Obligations.GetMessageDrainsAnIncompleteFrame := by
  intro s len m hinv hl ht hp hd hb hmin _ hshort hstart hlength hq
  obtain ⟨-, hring, -⟩ := hinv
  obtain ⟨payload, rfl⟩ := exists_payload_of_header hstart hlength
  have hplen : payload.length + 2 < len.toNat := hshort
  obtain ⟨t, hreach, hat⟩ := parsingAt_reached hl ht (hring hl) hp hd hb hmin hplen.le (q := [])
    (hq.trans (List.append_nil _).symm)
  have ⟨hdr, _, _, _, _, _, _, hfstate⟩ := hat
  have ⟨_, hempty, _⟩ := hdr
  rw [if_neg hplen.ne] at hfstate
  have hcount : t.count = 0 := by rw [← contents_length, hempty, List.length_nil]
  have hdry := parserStep_of_dry (s := t.windowed) (live_of_drained hl hdr) (.inr hfstate) hcount
  obtain ⟨u, hlast, hans, holen, ⟨hlow, hhigh⟩, -, hcont, -, hstore, hctl, -⟩ := parsingAt_failed ht hat hdry
  have hsteps : s.framerSteps (payload.length + 2) =
      1 + (s.microSteps + s.microSteps * payload.length) + s.microSteps := by
    rw [framerSteps_eq]
    ring
  refine ⟨u, ?_, hans, ?_, holen, hlow, hhigh, hctl, hstore⟩
  · exact hsteps ▸ reaches_trans hreach hlast
  · rw [← contents_length, hcont, List.length_nil]

end Sys2Proof.Machine

/-! What every step keeps: the invariant of the block (10_state R30), by the parts of it that speak of the registers and
the byte spaces, of the two engines and of the race window. -/

namespace Sys2Proof.Machine

/-! ## The invariant of the registers and the byte spaces -/

/-- The part of the invariant that speaks of registers and byte spaces alone, not of the ports. -/
abbrev State.BlockOk (s : State) : Prop := s.WidthsOk ∧ (s.life ≠ .uninit → s.RingOk) ∧ s.SpacesOk

theorem blockOk_answer {u : State} (e : Status) (d : Nat) (h : u.BlockOk) : (u.answer e d).BlockOk := h

theorem blockOk_pause {u : State} (p : Phase) (h : u.BlockOk) : (u.pause p).BlockOk := h

theorem blockOk_initRing {s : State} {l : Life} {n high low : Nat} (h : s.BlockOk) (hl : l ≠ .uninit)
    (hw : n < 2 ^ s.cfg.width) (hn : n ≤ s.cfg.storeBytes) (hhigh : high ≤ n) (hlow : low ≤ n) :
    (s.initRing l n high low).BlockOk := by
  obtain ⟨⟨hW, -⟩, -, -, hobuf, hdiag, hobuf', hdiag', -⟩ := h
  have hpos : 0 < 2 ^ s.cfg.width := Nat.two_pow_pos _
  exact ⟨⟨hW, hw, hpos, hpos, hpos, hhigh.trans_lt hw, hlow.trans_lt hw⟩, fun _ => ringOk_initRing hn hhigh hlow,
    rfl, hobuf, hdiag, hobuf', hdiag', fun _ => rfl, fun hu => absurd hu hl⟩

theorem blockOk_voidRing {s : State} (h : s.BlockOk) : s.voidRing.BlockOk := by
  obtain ⟨⟨hW, -⟩, -, -, hobuf, hdiag, hobuf', hdiag', -⟩ := h
  exact ⟨⟨hW, BitVec.isLt _, BitVec.isLt _, BitVec.isLt _, BitVec.isLt _, BitVec.isLt _, BitVec.isLt _⟩,
    fun hl => absurd rfl hl, rfl, hobuf, hdiag, hobuf', hdiag', fun hl => absurd rfl hl, fun _ => rfl⟩

section
variable {s : State} (h : s.BlockOk) (hl : s.Live)
include h hl

theorem blockOk_pushed (hc : s.count ≠ s.size) (b : Byte) : (s.pushed b).BlockOk := by
  obtain ⟨⟨hW, hsize, hhead, htail, hcount, hwm⟩, hring, hspaces⟩ := h
  have hlt : s.count < s.size := lt_of_le_of_ne (hring hl).1 hc
  obtain ⟨-, hidx, -⟩ := hring hl
  obtain ⟨hh, -⟩ := hidx (by omega)
  have hnext : inc s.size s.head < s.size := inc_lt _ (by omega)
  exact ⟨⟨hW, hsize, hnext.trans hsize, htail, (Nat.succ_le_of_lt hlt).trans_lt hsize, hwm⟩,
    fun _ => ringOk_pushed (hring hl) hlt b, spacesOk_pushed hspaces hl hh⟩

theorem blockOk_overwritten (hf : s.count = s.size) (h0 : s.size ≠ 0) (b : Byte) : (s.overwritten b).BlockOk := by
  obtain ⟨⟨hW, hsize, hhead, htail, hcount, hwm⟩, hring, hspaces⟩ := h
  have hn : 0 < s.size := Nat.pos_of_ne_zero h0
  obtain ⟨-, hidx, -⟩ := hring hl
  obtain ⟨hh, -⟩ := hidx hn
  exact ⟨⟨hW, hsize, (inc_lt _ hn).trans hsize, (inc_lt _ hn).trans hsize, hcount, hwm⟩,
    fun _ => ringOk_overwritten (hring hl) hf hn b, spacesOk_overwritten hspaces hl hh⟩

theorem blockOk_popped (hc : s.count ≠ 0) : s.popped.BlockOk := by
  obtain ⟨⟨hW, hsize, hhead, htail, hcount, hwm⟩, hring, hspaces⟩ := h
  have hle : s.count ≤ s.size := (hring hl).1
  have hnext : inc s.size s.tail < s.size := inc_lt _ (by omega)
  exact ⟨⟨hW, hsize, hhead, hnext.trans hsize, (Nat.sub_le _ _).trans_lt hcount, hwm⟩,
    fun _ => ringOk_popped (hring hl) hc, hspaces⟩

theorem blockOk_emptied : { s with head := 0, tail := 0, count := 0 }.BlockOk := by
  obtain ⟨⟨hW, hsize, -, -, -, hwm⟩, hring, hspaces⟩ := h
  have hpos : 0 < 2 ^ s.cfg.width := Nat.two_pow_pos _
  exact ⟨⟨hW, hsize, hpos, hpos, hpos, hwm⟩, fun _ => ringOk_emptied (hring hl), hspaces⟩

theorem blockOk_highWatermark {v : Nat} (hv : v ≤ s.size) : { s with highWatermark := v }.BlockOk := by
  obtain ⟨⟨hW, hsize, hhead, htail, hcount, -, hlow⟩, hring, hspaces⟩ := h
  obtain ⟨hle, hidx, hzero, hread, -, hwm⟩ := hring hl
  exact ⟨⟨hW, hsize, hhead, htail, hcount, hv.trans_lt hsize, hlow⟩,
    fun _ => ⟨hle, hidx, hzero, hread, hv, hwm⟩, hspaces⟩

theorem blockOk_lowWatermark {v : Nat} (hv : v ≤ s.size) : { s with lowWatermark := v }.BlockOk := by
  obtain ⟨⟨hW, hsize, hhead, htail, hcount, hhigh, -⟩, hring, hspaces⟩ := h
  obtain ⟨hle, hidx, hzero, hread, hwm, -, hstore⟩ := hring hl
  exact ⟨⟨hW, hsize, hhead, htail, hcount, hhigh, hv.trans_lt hsize⟩,
    fun _ => ⟨hle, hidx, hzero, hread, hwm, hv, hstore⟩, hspaces⟩

theorem blockOk_dumped {d : Memory} (hd : snapshot s.count s = .done () { s with diag := d }) :
    { s with diag := d }.BlockOk := by
  obtain ⟨hwidths, hring, hstore, hobuf, hdiag, hobuf', hdiag', hlive, huninit⟩ := h
  obtain ⟨d', hd', -, -, hwf, hin⟩ := snapshot_of_ringOk (hring hl) le_rfl
  have ⟨_, _, _, _, hcount, _⟩ := hwidths
  obtain rfl : d' = d := by
    have hsame := (afterReads_of_snapshot hd').symm.trans (afterReads_of_snapshot hd)
    exact congrArg State.diag hsame
  exact ⟨hwidths, hring, hstore, hobuf, hwf hdiag, hobuf', hin _ hcount.le hdiag', hlive, huninit⟩

end

theorem blockOk_obuf {s : State} {m : Memory} (h : s.BlockOk) (hwf : m.wf = true) (hin : m.within 256 = true) :
    { s with obuf := m }.BlockOk := by
  obtain ⟨hwidths, hring, hstore, -, hdiag, -, hdiag', hlife⟩ := h
  exact ⟨hwidths, hring, hstore, hwf, hdiag, hin, hdiag', hlife⟩

/-- An operation whose operand fits the operand field keeps the registers and the byte spaces in order. -/
theorem blockOk_of_exec {i : Instr} {s t : State} (h : s.BlockOk) (hi : i.operand < 2 ^ s.cfg.width)
    (ht : exec i s = .next t) : t.BlockOk := by
  cases exec_next ht
  case initStatic n hl hn =>
    exact blockOk_answer _ _ (blockOk_initRing h nofun hi hn (staticHigh_le n) (staticLow_le n))
  case initDynamic n hl h0 hn => exact blockOk_answer _ _ (blockOk_initRing h nofun hi hn (by omega) (by omega))
  case initFailed => exact blockOk_answer _ _ (blockOk_voidRing h)
  case teardown => exact blockOk_answer _ _ (blockOk_voidRing h)
  case reset hl => exact blockOk_answer _ _ (blockOk_emptied h hl)
  case pushed _ hl hc _ => exact blockOk_answer _ _ (blockOk_pushed h hl hc _)
  case overwritten _ hl hc h0 _ => exact blockOk_answer _ _ (blockOk_overwritten h hl hc h0 _)
  case popped _ hl hc _ => exact blockOk_answer _ _ (blockOk_popped h hl hc)
  case setHigh hl hv => exact blockOk_answer _ _ (blockOk_highWatermark h hl hv)
  case setLow hl hv => exact blockOk_answer _ _ (blockOk_lowWatermark h hl hv)
  case dump hl hd => exact blockOk_answer _ _ (blockOk_dumped h hl hd)
  case getWrong hl _ hc _ _ => exact blockOk_answer _ _ (blockOk_popped h hl hc)
  case getBegun hl _ hc _ => exact blockOk_pause _ (blockOk_popped h hl hc)
  all_goals exact h

/-- `u` is `s` after a push that goes through, as the rules of a byte micro-step name it (43 R162). -/
abbrev State.PushGives (s u : State) (b : Byte) : Prop :=
  (s.count ≠ s.size ∧ s.head < s.size ∧ u = s.pushed b) ∨
  (s.count = s.size ∧ s.size ≠ 0 ∧ s.head < s.size ∧ u = s.overwritten b)

theorem blockOk_of_pushGives {s u : State} {b : Byte} (h : s.BlockOk) (hl : s.Live) (hu : s.PushGives u b) :
    u.BlockOk := by
  obtain ⟨hc, -, rfl⟩ | ⟨hf, h0, -, rfl⟩ := hu
  · exact blockOk_pushed h hl hc b
  · exact blockOk_overwritten h hl hf h0 b

theorem blockOk_of_addMessageByte {s t : State} (h : s.BlockOk) (ht : addMessageByte s = .next t) : t.BlockOk := by
  cases addMessageByte_next ht
  case last hl hu _ _ =>
    have hblock := blockOk_of_pushGives h hl hu
    exact hblock
  case more hl hu _ _ =>
    have hblock := blockOk_of_pushGives h hl hu
    exact hblock
  case full => exact h

theorem blockOk_of_parserStep {s t : State} (h : s.BlockOk) (ht : parserStep s = .next t) : t.BlockOk := by
  have ⟨_, _, _, hwf, _, hin, _⟩ := h
  cases parserStep_next ht
  case dry => exact h
  case short b hl _ hc _ _ => exact blockOk_answer _ _ (blockOk_popped h hl hc)
  case length b hl _ hc _ _ =>
    exact blockOk_pause _ (blockOk_obuf (blockOk_popped h hl hc) (memory_write_wf _ _ _ (memory_write_wf _ _ _ hwf))
      (memory_write_within _ _ (by omega) (memory_write_within _ _ (by omega) hin)))
  case payload b hl _ hc _ =>
    exact blockOk_pause _ (blockOk_obuf (blockOk_popped h hl hc) (memory_write_wf _ _ _ hwf)
      (memory_write_within _ _ s.fidx.isLt hin))
  case delivered => exact h
  case mismatch => exact h

theorem operand_lt_of_decoded {W : Nat} (hW : 8 ≤ W) {c : Command} {i : Instr} (h : c.decoded W = .ok i) :
    i.operand < 2 ^ W := by
  obtain ⟨-, harg⟩ := (decode_eq_ok_iff hW).mp h
  exact harg ▸ BitVec.isLt _

theorem blockOk_of_microStep {s t : State} (h : s.BlockOk) (ht : MicroStep s t) : t.BlockOk := by
  have ⟨⟨hW, _⟩, _⟩ := h
  cases ht with
  | perform _ hd ht => exact blockOk_of_exec h (operand_lt_of_decoded hW hd) ht
  | illegal _ _ ht => exact ht ▸ blockOk_answer _ _ h
  | build _ ht => exact blockOk_of_addMessageByte h ht
  | parse _ ht => exact blockOk_of_parserStep h ht

/-! ## The two ports -/

/-- The other agent. -/
def Agent.other : Agent → Agent
  | .async => .sync
  | .sync => .async

theorem eq_or_eq_other (a b : Agent) : b = a ∨ b = a.other := by cases a <;> cases b <;> simp [Agent.other]

theorem builderBusy_iff (s : State) : s.builderBusy = true ↔ ∃ a, (s.port a).phase = .building := by
  simp only [State.builderBusy, Bool.or_eq_true, beq_iff_eq]
  exact ⟨fun h => h.elim (⟨.async, ·⟩) (⟨.sync, ·⟩), fun ⟨a, h⟩ => by cases a <;> simp_all [State.port]⟩

theorem parserBusy_iff (s : State) : s.parserBusy = true ↔ ∃ a, (s.port a).phase = .parsing := by
  simp only [State.parserBusy, Bool.or_eq_true, beq_iff_eq]
  exact ⟨fun h => h.elim (⟨.async, ·⟩) (⟨.sync, ·⟩), fun ⟨a, h⟩ => by cases a <;> simp_all [State.port]⟩

theorem ports_of_moved {s t : State} {p : Phase} (h : s.Moved t p) :
    t.port s.active = { phase := p, cmd := s.command } ∧ t.port s.active.other = s.port s.active.other := by
  obtain ⟨hasync, hsync⟩ := h
  obtain ⟨hA, hact, hport⟩ | ⟨hA, hact, hport⟩ := active_cases s
  · obtain ⟨hS, hA', -⟩ := hsync hA
    rw [State.command, hport, hact]
    exact ⟨hS, hA'⟩
  · obtain ⟨hA', hS, -⟩ := hasync hA
    rw [State.command, hport, hact]
    exact ⟨hA', hS⟩

/-- The invariant of the engines, said of the agent `a` and the other one. -/
theorem enginesOk_iff (s : State) (a : Agent) :
    s.EnginesOk ↔
      ¬((s.port a).phase = .building ∧ (s.port a.other).phase = .building) ∧
      ¬((s.port a).phase = .parsing ∧ (s.port a.other).phase = .parsing) ∧
      ((s.port a).phase ≠ .parsing → (s.port a.other).phase ≠ .parsing → s.fstate = .idle) ∧
      ((s.port a).phase = .parsing ∨ (s.port a.other).phase = .parsing →
        s.fstate = .awaitLength ∨ s.fstate = .consumePayload ∨ s.fstate = .validate) := by
  have hbusy : s.parserBusy = true ↔ (s.port a).phase = .parsing ∨ (s.port a.other).phase = .parsing := by
    cases a <;> simp [State.parserBusy, State.port, Agent.other, or_comm]
  have hidle : s.parserBusy = false ↔ (s.port a).phase ≠ .parsing ∧ (s.port a.other).phase ≠ .parsing := by
    rw [← Bool.not_eq_true, hbusy, not_or]
  simp only [State.EnginesOk, hbusy, hidle, and_imp]
  cases a
  · rfl
  · simp only [State.port, Agent.other, and_comm (a := s.portA.phase = _)]

/-! ## What a micro-step does to the engines -/

/-- How a micro-step moves the agent's operation and `fstate` (43 R165, R175). -/
inductive EngineMove (s t : State) : Prop where
  | ends (hm : s.Moved t .free)
      (hf : (s.port s.active).phase = .parsing ∧ t.fstate = .idle ∨
        (s.port s.active).phase ≠ .parsing ∧ t.fstate = s.fstate)
  | builds (hm : s.Moved t .building) (hp : (s.port s.active).phase ≠ .parsing)
      (hb : (s.port s.active).phase = .building ∨ s.builderBusy = false) (hf : t.fstate = s.fstate)
  | beginsParse (hm : s.Moved t .parsing) (hb : s.parserBusy = false) (hf : t.fstate = .awaitLength)
  | parses (hm : s.Moved t .parsing) (hp : (s.port s.active).phase = .parsing)
      (hf : s.fstate = .awaitLength ∧ t.fstate = .consumePayload ∨
        s.fstate = .consumePayload ∧ (t.fstate = .consumePayload ∨ t.fstate = .validate))

theorem moved_answer {s u : State} (e : Status) (d : Nat) (hu : s.SamePorts u) : s.Moved (u.answer e d) .free := by
  obtain ⟨hA, hS, hw, hcfg, -⟩ := hu
  exact (answered_answer e d hA hS hw hcfg).2

theorem moved_pause {s u : State} (p : Phase) (hu : s.SamePorts u) : s.Moved (u.pause p) p := by
  obtain ⟨hA, hS, hw, -⟩ := hu
  exact (paused_pause p hA hS hw).2

theorem engineMove_of_exec {i : Instr} {s t : State} (he : s.EnginesOk) (hp : (s.port s.active).phase = .accepted)
    (h : exec i s = .next t) : EngineMove s t := by
  obtain ⟨-, -, hidle, -⟩ := he
  have hnp : (s.port s.active).phase ≠ .parsing := by simp [hp]
  cases exec_next h
  case addBegun hb _ => exact .builds (moved_pause .building (samePorts_rfl s)) hnp (.inr hb) rfl
  case getEmpty hb _ => exact .ends (moved_answer .empty 0 (samePorts_rfl s)) (.inr ⟨hnp, (hidle hb).symm⟩)
  case getWrong hb _ _ _ => exact .ends (moved_answer .invalidStart 0 (samePorts_rfl s)) (.inr ⟨hnp, (hidle hb).symm⟩)
  case getBegun hb _ _ => exact .beginsParse (moved_pause .parsing (samePorts_rfl s)) hb rfl
  all_goals exact .ends (moved_answer _ _ (samePorts_rfl s)) (.inr ⟨hnp, rfl⟩)

theorem engineMove_of_addMessageByte {s t : State} (hp : (s.port s.active).phase = .building)
    (h : addMessageByte s = .next t) : EngineMove s t := by
  have hnp : (s.port s.active).phase ≠ .parsing := by simp [hp]
  cases addMessageByte_next h
  case last hu _ _ =>
    obtain ⟨-, -, rfl⟩ | ⟨-, -, -, rfl⟩ := hu <;>
      exact .ends (moved_answer .ok 0 (samePorts_rfl s)) (.inr ⟨hnp, rfl⟩)
  case more hu _ _ =>
    obtain ⟨-, -, rfl⟩ | ⟨-, -, -, rfl⟩ := hu <;>
      exact .builds (moved_pause .building (samePorts_rfl s)) hnp (.inl hp) rfl
  case full => exact .ends (moved_answer .full 0 (samePorts_rfl s)) (.inr ⟨hnp, rfl⟩)

theorem engineMove_of_parserStep {s t : State} (hp : (s.port s.active).phase = .parsing)
    (h : parserStep s = .next t) : EngineMove s t := by
  cases parserStep_next h
  case length hf _ _ _ => exact .parses (moved_pause .parsing (samePorts_rfl s)) hp (.inl ⟨hf, rfl⟩)
  case payload hf _ _ =>
    exact .parses (moved_pause .parsing (samePorts_rfl s)) hp (.inr ⟨hf, (ite_eq_or_eq _ _ _).symm⟩)
  all_goals exact .ends (moved_answer _ _ (samePorts_rfl s)) (.inl ⟨hp, rfl⟩)

theorem engineMove_of_microStep {s t : State} (he : s.EnginesOk) (h : MicroStep s t) : EngineMove s t := by
  cases h with
  | perform hp _ h => exact engineMove_of_exec he hp h
  | illegal hp _ h => exact h ▸ .ends (moved_answer _ _ (samePorts_rfl s)) (.inr ⟨by simp [hp], rfl⟩)
  | build hp h => exact engineMove_of_addMessageByte hp h
  | parse hp h => exact engineMove_of_parserStep hp h

theorem enginesOk_of_engineMove {s t : State} (he : s.EnginesOk) (h : EngineMove s t) : t.EnginesOk := by
  obtain ⟨hnb, hnp, hidle, hbusy⟩ := (enginesOk_iff s s.active).mp he
  rw [enginesOk_iff t s.active]
  cases h with
  | ends hm hf =>
    obtain ⟨hmover, hother⟩ := ports_of_moved hm
    rw [hmover, hother]
    refine ⟨nofun, nofun, fun _ ho => ?_, fun ho => ?_⟩
    · obtain ⟨-, hf⟩ | ⟨hp, hf⟩ := hf
      · exact hf
      · exact hf.trans (hidle hp ho)
    · replace ho := ho.resolve_left nofun
      obtain ⟨hp, -⟩ | ⟨-, hf⟩ := hf
      · exact absurd ⟨hp, ho⟩ hnp
      · exact hf ▸ hbusy (.inr ho)
  | builds hm hp hb hf =>
    obtain ⟨hmover, hother⟩ := ports_of_moved hm
    rw [hmover, hother]
    refine ⟨fun ⟨_, ho⟩ => ?_, nofun, fun _ ho => hf.trans (hidle hp ho),
      fun ho => hf ▸ hbusy (.inr (ho.resolve_left nofun))⟩
    obtain hb | hb := hb
    · exact hnb ⟨hb, ho⟩
    · simp [(builderBusy_iff s).mpr ⟨_, ho⟩] at hb
  | beginsParse hm hb hf =>
    obtain ⟨hmover, hother⟩ := ports_of_moved hm
    rw [hmover, hother]
    refine ⟨nofun, fun ⟨_, ho⟩ => ?_, fun hp => absurd rfl hp, fun _ => .inl hf⟩
    simp [(parserBusy_iff s).mpr ⟨_, ho⟩] at hb
  | parses hm hp hf =>
    obtain ⟨hmover, hother⟩ := ports_of_moved hm
    rw [hmover, hother]
    refine ⟨nofun, fun ⟨_, ho⟩ => hnp ⟨hp, ho⟩, fun hp => absurd rfl hp, fun _ => .inr ?_⟩
    exact hf.elim (fun ⟨_, hf⟩ => .inl hf) And.right

/-! ## The race window -/

theorem legalWord_of_decoded {W : Nat} {c : Command} {i : Instr} (h : c.decoded W = .ok i) :
    legalWord (c.bits W) = true := (Laws.exists_decode_iff_legalWord _).mp ⟨i, h⟩

/-- Inside a race window `A` performs only the answer to an illegal word (log 11). -/
theorem microStep_of_async_in_window {s t : State} (hw : s.WindowOk) (hA : s.portA.phase ≠ .free)
    (hwin : s.swin = true) (h : MicroStep s t) : t = s.answer .badCommand 0 := by
  obtain ⟨-, -, -, hrace⟩ := hw
  obtain ⟨hp, hillegal⟩ := hrace hwin hA
  have hport := port_async hA
  cases h with
  | perform _ hd _ =>
    rw [State.command, hport] at hd
    simp [legalWord_of_decoded hd] at hillegal
  | illegal _ _ h => exact h
  | build hp' _ => simp [hport, hp] at hp'
  | parse hp' _ => simp [hport, hp] at hp'

theorem windowOk_of_microStep {s t : State} (hw : s.WindowOk) (h : MicroStep s t) : t.WindowOk := by
  have hend := microStep_endsIn h
  obtain ⟨p, hp, hasync, hsync⟩ := moved_of_endsIn hend
  obtain ⟨hcfg, -⟩ := sameEnvironment_of_endsIn hend
  by_cases hA : s.portA.phase = .free
  · obtain ⟨hS, hA', hwin⟩ := hsync hA
    exact ⟨fun _ => hwin, fun hacc => absurd (by rw [← hacc, hS]) hp, fun _ _ => hwin,
      fun hopen => absurd hopen (by simp [hwin])⟩
  · obtain ⟨hA', hS, hwin⟩ := hasync hA
    have ⟨hfree, haccepted, hframer, _⟩ := hw
    rw [State.WindowOk, hS, hwin, hcfg]
    refine ⟨hfree, haccepted, hframer, fun hopen hbusy => absurd ?_ hbusy⟩
    rw [microStep_of_async_in_window hw hA hopen h]
    simp [State.active, hA]

/-! ## Every step keeps the invariant -/

theorem inv_taken {s : State} (h : s.Inv) : s.taken.Inv := h

theorem inv_of_microStep {s t : State} (h : s.Inv) (ht : MicroStep s t) : t.Inv := by
  obtain ⟨hwidths, hring, hspaces, hengines, hwindow⟩ := h
  obtain ⟨hwidths', hring', hspaces'⟩ := blockOk_of_microStep ⟨hwidths, hring, hspaces⟩ ht
  exact ⟨hwidths', hring', hspaces', enginesOk_of_engineMove hengines (engineMove_of_microStep hengines ht),
    windowOk_of_microStep hwindow ht⟩

theorem inv_hardwareReset {s : State} (hW : 8 ≤ s.cfg.width) : s.hardwareReset.Inv := by
  have hpos : 0 < 2 ^ s.cfg.width := Nat.two_pow_pos _
  exact ⟨⟨hW, hpos, hpos, hpos, hpos, hpos, hpos⟩, fun hl => absurd rfl hl,
    ⟨rfl, rfl, rfl, rfl, rfl, fun hl => absurd rfl hl, fun _ => rfl⟩,
    ⟨nofun, nofun, fun _ => rfl, nofun⟩, ⟨fun _ => rfl, nofun, fun _ _ => rfl, nofun⟩⟩

theorem inv_asyncBegins {s : State} {c : Command} (rest : List Command) (h : s.Inv) (hA : s.portA.phase = .free)
    (hc : s.swin = false ∨ legalWord (c.bits s.cfg.width) = false) :
    { s with streamA := rest, portA := { phase := .accepted, cmd := c } }.Inv := by
  obtain ⟨hwidths, hring, hspaces, ⟨-, -, hidle, hbusy⟩, hfree, haccepted, hframer, -⟩ := h
  simp only [State.parserBusy, hA] at hidle hbusy
  exact ⟨hwidths, hring, hspaces, ⟨nofun, nofun, hidle, hbusy⟩, hfree, haccepted, hframer,
    fun hopen _ => ⟨rfl, hc.resolve_left (by simp [show s.swin = true from hopen])⟩⟩

theorem inv_acceptSync {s : State} (c : Command) (h : s.Inv) (hA : s.portA.phase = .free)
    (hS : s.portS.phase = .free) : (s.acceptSync c).Inv := by
  obtain ⟨hwidths, hring, hspaces, ⟨-, -, hidle, hbusy⟩, -⟩ := h
  simp only [State.parserBusy, hS] at hidle hbusy
  exact ⟨hwidths, hring, hspaces, ⟨nofun, nofun, hidle, hbusy⟩, nofun, fun _ => rfl, nofun,
    fun _ hbusyA => absurd hA hbusyA⟩

theorem inv_window {s : State} (h : s.Inv) (hA : s.portA.phase = .free)
    (hp : s.portS.phase = .building ∨ s.portS.phase = .parsing) (hprims : s.cfg.framerAtomicPrims = false) :
    { s with swin := true }.Inv := by
  obtain ⟨hwidths, hring, hspaces, hengines, -⟩ := h
  refine ⟨hwidths, hring, hspaces, hengines, fun hfree => ?_, fun hacc => ?_,
    fun _ hatomic => absurd hatomic (by simp [hprims]), fun _ hbusy => absurd hA hbusy⟩
  · simp [show s.portS.phase = .free from hfree] at hp
  · simp [show s.portS.phase = .accepted from hacc] at hp

theorem inv_of_step {s t : State} (hinv : s.Inv) (h : step s = .next t) : t.Inv := by
  have ⟨⟨hW, _⟩, _⟩ := hinv
  have htaken := inv_taken hinv
  cases step_next h
  case hwReset h => exact h ▸ inv_hardwareReset hW
  case micro _ hmicro => exact inv_of_microStep htaken hmicro
  case window _ hp hA hprims _ h => exact h ▸ inv_window htaken hA (port_sync hA ▸ hp) hprims
  case idle _ h => exact h ▸ htaken
  case asyncBegins rest hA _ _ hc h => exact h ▸ inv_asyncBegins rest htaken hA hc
  case syncBegins c rest hA hS _ h =>
    have hstream : { s.taken with streamS := rest }.Inv := htaken
    exact h ▸ inv_acceptSync c hstream hA hS
  case setIe h => exact h ▸ htaken

/-- Settles O10, by what a step can be (`step_next`). -/
theorem everyStepKeepsTheInvariant : Obligations.EveryStepKeepsTheInvariant := fun _ _ => inv_of_step

/-- Settles O9: `State.reset` is a hardware reset of itself. -/
theorem resetStateMeetsTheInvariant : Obligations.ResetStateMeetsTheInvariant :=
  ⟨inv_hardwareReset (s := State.reset) (by decide), nofun, nofun, nofun, nofun, nofun⟩

end Sys2Proof.Machine

/-! That nothing but the race faults (10_state R19, R30, 20_memory R52), what happens inside a race window, and how the
parser moves (43_framer R165). -/

namespace Sys2Proof.Machine

/-! ## Under the ring's invariant no primitive faults -/

theorem liveOnly_ne_fault {s : State} {k : Step} {f : Fault} (h : s.Live → k ≠ .fault f) : liveOnly s k ≠ .fault f := by
  unfold liveOnly
  split
  · nofun
  · next hl => exact h hl

theorem finish_ne_fault {α : Type} {p : Prim α} {after : α → State → State} {failed : Status → State} {f : Fault}
    (h : ∀ r, p ≠ .fault r) : p.finish after failed ≠ .fault f := by
  cases p
  case fault r => exact absurd rfl (h r)
  all_goals nofun

section
variable {s : State} (hr : s.RingOk)
include hr

theorem ringPush_ne_fault (o : Bool) (b : Byte) (r : Fault) : ringPush o b s ≠ .fault r := by
  by_cases hf : s.count = s.size
  · cases o
    · simp [ringPush_of_full hf]
    · by_cases h0 : s.size = 0
      · simp [ringPush_of_zero_size hr h0]
      · simp [ringPush_of_full_overwrite hr hf h0]
  · simp [ringPush_of_room hr (lt_of_le_of_ne hr.1 hf)]

theorem ringPop_ne_fault (r : Fault) : ringPop s ≠ .fault r := by
  by_cases hc : s.count = 0
  · simp [ringPop_of_empty hc]
  · obtain ⟨b, -, -, hpop⟩ := ringPop_of_ringOk hr hc
    simp [hpop]

theorem ringPeek_ne_fault (n : Nat) (r : Fault) : ringPeek n s ≠ .fault r := by
  by_cases hn : n < s.count
  · obtain ⟨b, -, hpeek⟩ := ringPeek_of_ringOk hr hn
    simp [hpeek]
  · simp [ringPeek_of_out_of_range (Nat.not_lt.mp hn)]

theorem snapshot_ne_fault (r : Fault) : snapshot s.count s ≠ .fault r := by
  obtain ⟨d, hsnap, -⟩ := snapshot_of_ringOk hr le_rfl
  simp [hsnap]

end

theorem checkThreshold_ne_fault (v : Nat) (s : State) (r : Fault) : checkThreshold v s ≠ .fault r := by
  unfold checkThreshold
  split <;> nofun

section
variable {s : State} (hr : s.life ≠ .uninit → s.RingOk)
include hr

theorem exec_ne_fault (i : Instr) (f : Fault) : exec i s ≠ .fault f := by
  cases i
  case initStatic n =>
    simp only [exec, execInitStatic]
    split_ifs <;> nofun
  case initDynamic n =>
    simp only [exec, execInitDynamic]
    split_ifs <;> nofun
  case teardown =>
    simp only [exec, execTeardown]
    split <;> nofun
  case push b => exact liveOnly_ne_fault fun hl => finish_ne_fault (ringPush_ne_fault (hr hl) _ b)
  case pushOvw b => exact liveOnly_ne_fault fun hl => finish_ne_fault (ringPush_ne_fault (hr hl) _ b)
  case pushSafe b =>
    rw [exec_pushSafe_eq_push]
    exact liveOnly_ne_fault fun hl => finish_ne_fault (ringPush_ne_fault (hr hl) _ b)
  case pop => exact liveOnly_ne_fault fun hl => finish_ne_fault (ringPop_ne_fault (hr hl))
  case popSafe =>
    rw [exec_popSafe_eq_pop]
    exact liveOnly_ne_fault fun hl => finish_ne_fault (ringPop_ne_fault (hr hl))
  case peek n => exact liveOnly_ne_fault fun hl => finish_ne_fault (ringPeek_ne_fault (hr hl) n)
  case dump => exact liveOnly_ne_fault fun hl => finish_ne_fault (snapshot_ne_fault (hr hl))
  case setHighWm v => exact liveOnly_ne_fault fun _ => finish_ne_fault (checkThreshold_ne_fault v s)
  case setLowWm v => exact liveOnly_ne_fault fun _ => finish_ne_fault (checkThreshold_ne_fault v s)
  case addMessage n =>
    refine liveOnly_ne_fault fun _ => ?_
    split_ifs <;> nofun
  case getMessage =>
    refine liveOnly_ne_fault fun hl => ?_
    split_ifs
    · nofun
    · exact finish_ne_fault (ringPop_ne_fault (s := { s with fstate := .awaitStart }) (hr hl))
  all_goals exact liveOnly_ne_fault fun _ => nofun

theorem addMessageByte_ne_fault (f : Fault) : addMessageByte s ≠ .fault f :=
  liveOnly_ne_fault fun hl => finish_ne_fault (ringPush_ne_fault (hr hl) _ _)

/-- Between micro-steps `fstate` is a state with a transition (43 R165). -/
theorem parserStep_ne_fault (hf : s.fstate = .awaitLength ∨ s.fstate = .consumePayload ∨ s.fstate = .validate)
    (f : Fault) : parserStep s ≠ .fault f := by
  refine liveOnly_ne_fault fun hl => ?_
  obtain hf | hf | hf := hf <;> simp only [hf]
  · exact finish_ne_fault (ringPop_ne_fault (hr hl))
  · exact finish_ne_fault (ringPop_ne_fault (hr hl))
  · nofun

end

theorem advance_ne_fault {s : State} (h : s.Inv) (f : Fault) : advance s ≠ .fault f := by
  obtain ⟨-, hring, -, ⟨-, -, -, hbusy⟩, -⟩ := h
  rcases advance_cases s with ⟨-, ha⟩ | ⟨-, i, -, ha⟩ | ⟨-, e, -, ha⟩ | ⟨-, -, -, -, ha⟩ | ⟨-, -, ha⟩ | ⟨hp, -, ha⟩ <;>
    rw [ha]
  · nofun
  · exact exec_ne_fault hring i f
  · nofun
  · nofun
  · exact addMessageByte_ne_fault hring f
  · exact parserStep_ne_fault hring (hbusy ((parserBusy_iff s).mpr ⟨s.active, hp⟩)) f

/-- From the invariant a step faults only where `A` begins a legal command in its turn, inside a race window. -/
theorem step_fault {s : State} {f : Fault} (h : s.Inv) (hs : step s = .fault f) :
    f = .raced ∧ s.turns.head? = some .async ∧ s.portA.phase = .free ∧ s.ie = true ∧ s.swin = true ∧
      ∃ c rest, s.streamA = c :: rest ∧ legalWord (c.bits s.cfg.width) = true := by
  have ⟨_, _, _, _, hfree, _⟩ := h
  rcases step_cases s with ⟨rest, -, hstep⟩ | ⟨-, -, hstep⟩ | ⟨hA, hready, hturn, hstep⟩ | ⟨-, -, -, hstep⟩ <;>
    rw [hstep] at hs
  · cases hs
  · exact absurd hs (advance_ne_fault (inv_taken h) f)
  · rcases beginAsync_cases s.taken with ⟨-, hbeg⟩ | ⟨c, rest, hc, hie, hwin, hlegal, hbeg⟩ |
      ⟨c, rest, -, -, -, hbeg⟩ <;> rw [hbeg] at hs <;> cases hs
    refine ⟨rfl, hturn.resolve_left fun ht => ?_, hA, hie, hwin, c, rest, hc, hlegal⟩
    have hS : s.portS.phase = .free := by
      have := hready ht
      simp only [State.syncReady, Bool.or_eq_false_iff, bne_eq_false_iff_eq] at this
      exact this.1
    have hopen : s.swin = true := hwin
    simp [hfree hS] at hopen
  · rcases beginSync_cases s.taken with ⟨-, hbeg⟩ | ⟨c, rest, -, hbeg⟩ | ⟨v, rest, -, hbeg⟩ <;>
      rw [hbeg] at hs <;> cases hs

/-- Settles O11: a micro-step of a state of the invariant does not fault, so what faults is a beginning of `A`. -/
theorem onlyTheRaceFaults : Obligations.OnlyTheRaceFaults := fun _ _ h hs => (step_fault h hs).1

/-- Settles O45: where a step faults is `step_fault`, and there it does. -/
theorem racedExactlyInsideAWindow : Obligations.RacedExactlyInsideAWindow := by
  intro s h
  refine ⟨fun hs => ?raced, fun ⟨ht, hA, hie, hwin, c, rest, i, hc, hi⟩ => ?race⟩
  case raced =>
    obtain ⟨-, ht, hA, hie, hwin, c, rest, hc, hlegal⟩ := step_fault h hs
    obtain ⟨i, hi⟩ := (Laws.exists_decode_iff_legalWord _).mpr hlegal
    exact ⟨ht, hA, hie, hwin, c, rest, i, hc, hi⟩
  case race =>
    rw [step_of_async_idle hA (.inr ht)]
    simp [beginAsync, State.taken, hc, hie, hwin, legalWord_of_decoded hi]

/-- Settles O47: `A` answers an illegal word, accepts a command that is no operation, or waits. -/
theorem openWindowShieldsTheRing : Obligations.OpenWindowShieldsTheRing := by
  intro s t hinv hwin ht h
  have ⟨_, _, _, _, hwindow⟩ := hinv
  cases step_next h
  case hwReset ht' _ => simp [ht'] at ht
  case micro hm hmicro =>
    obtain ⟨rest, hturns⟩ := List.head?_eq_some_iff.mp ht
    have hA : s.portA.phase ≠ .free := by simpa [State.ActiveMoves, hturns] using hm
    obtain rfl := microStep_of_async_in_window (s := s.taken) hwindow hA hwin hmicro
    have hact : s.taken.active = .async := State.active_eq_async.mpr hA
    exact ⟨by simp [hact, hwin], by simp [hact], sameControl_rfl s, sameIndices_rfl s, rfl, ⟨rfl, rfl, rfl, rfl⟩,
      sameBuilder_rfl s, rfl, rfl, rfl, rfl⟩
  case window hw _ => simp [hwin] at hw
  case syncBegins hS _ _ => simp [hwindow.1 hS] at hwin
  case setIe hS _ _ => simp [hwindow.1 hS] at hwin
  all_goals
    subst_vars
    exact ⟨hwin, rfl, sameControl_rfl s, sameIndices_rfl s, rfl, ⟨rfl, rfl, rfl, rfl⟩, sameBuilder_rfl s, rfl, rfl, rfl,
      rfl⟩

/-- Settles O38: the moves of `fstate` in a micro-step, from the states that the invariant allows. -/
theorem parserMovesAlongItsTable : Obligations.ParserMovesAlongItsTable := by
  intro s t hinv h hno
  have ⟨_, _, _, hengines, _⟩ := hinv
  have ⟨_, _, hidle, hbusy⟩ := hengines
  cases step_next h
  case hwReset ht _ => simp [ht] at hno
  case micro hmicro =>
    cases engineMove_of_microStep (s := s.taken) hengines hmicro with
    | ends _ hf =>
      obtain ⟨hp, hf⟩ | ⟨-, hf⟩ := hf
      · obtain hs | hs | hs := hbusy ((parserBusy_iff s).mpr ⟨_, hp⟩) <;> simp [hs, hf]
      · exact .inl hf
    | builds _ _ _ hf => exact .inl hf
    | beginsParse _ hb hf => simp [hidle hb, hf]
    | parses _ _ hf =>
      obtain ⟨hs, hf⟩ | ⟨hs, hf | hf⟩ := hf <;> simp [show s.fstate = _ from hs, hf]
  all_goals subst_vars; exact .inl rfl

end Sys2Proof.Machine

/-! The transients of the two engines (10_state R20 to R24): what a micro-step leaves of those of an operation in flight
(43_framer R169, log 28), and their ranges. -/

namespace Sys2Proof.Machine

/-! ## What a micro-step leaves of the transients of an operation in flight -/

theorem sameParser_rfl (s : State) : s.SameParser s := ⟨rfl, rfl, rfl, rfl⟩

/-- An init or a TEARDOWN leaves the transients of an engine in use (log 28). -/
theorem sameParser_voidTransients {s : State} (h : s.parserBusy = true) : s.SameParser s.voidTransients := by
  simp [State.SameParser, h]

theorem sameBuilder_voidTransients {s : State} (h : s.builderBusy = true) : s.SameBuilder s.voidTransients := by
  simp [State.SameBuilder, h]

theorem sameParser_of_exec {i : Instr} {s t : State} (hb : s.parserBusy = true) (h : exec i s = .next t) :
    s.SameParser t := by
  have hvoid := sameParser_voidTransients hb
  cases exec_next h
  case initStatic => exact hvoid
  case initDynamic => exact hvoid
  case initFailed => exact hvoid
  case teardown => exact hvoid
  case getEmpty hno _ => simp [hb] at hno
  case getWrong hno _ _ _ => simp [hb] at hno
  case getBegun hno _ _ => simp [hb] at hno
  all_goals exact sameParser_rfl s

theorem sameBuilder_of_exec {i : Instr} {s t : State} (hb : s.builderBusy = true) (h : exec i s = .next t) :
    s.SameBuilder t := by
  have hvoid := sameBuilder_voidTransients hb
  cases exec_next h
  case initStatic => exact hvoid
  case initDynamic => exact hvoid
  case initFailed => exact hvoid
  case teardown => exact hvoid
  case addRefused hno => simp [hb] at hno
  case addBegun hno _ => simp [hb] at hno
  all_goals exact sameBuilder_rfl s

theorem sameParser_of_addMessageByte {s t : State} (h : addMessageByte s = .next t) : s.SameParser t := by
  cases addMessageByte_next h
  case full => exact sameParser_rfl s
  case last hu _ _ => obtain ⟨-, -, rfl⟩ | ⟨-, -, -, rfl⟩ := hu <;> exact sameParser_rfl s
  case more hu _ _ => obtain ⟨-, -, rfl⟩ | ⟨-, -, -, rfl⟩ := hu <;> exact sameParser_rfl s

theorem sameBuilder_of_parserStep {s t : State} (h : parserStep s = .next t) : s.SameBuilder t := by
  cases parserStep_next h <;> exact sameBuilder_rfl s

/-- Settles O58: a micro-step of another operation keeps them, and the other steps but the reset write no transient. -/
theorem transientsInFlightAreKept : Obligations.TransientsInFlightAreKept := by
  intro s t h hno
  refine ⟨fun hb => ?parser, fun hb => ?builder⟩
  case parser =>
    have hkept : s.SameParser t ∨ (s.port s.active).phase = .parsing ∧ parserStep s.taken = .next t := by
      cases step_next h
      case hwReset ht _ => simp [ht] at hno
      case micro hmicro =>
        cases hmicro with
        | perform _ _ h => exact .inl (sameParser_of_exec (s := s.taken) hb h)
        | illegal _ _ h => exact .inl (h ▸ sameParser_rfl s)
        | build _ h => exact .inl (sameParser_of_addMessageByte (s := s.taken) h)
        | parse hp h => exact .inr ⟨hp, h⟩
      all_goals subst_vars; exact .inl (sameParser_rfl s)
    exact hkept.imp_left fun ⟨hfstate, hflen, hfidx, hfxor⟩ => ⟨hflen, hfidx, hfxor, hfstate⟩
  case builder =>
    cases step_next h
    case hwReset ht _ => simp [ht] at hno
    case micro hmicro =>
      cases hmicro with
      | perform _ _ h => exact .inl (sameBuilder_of_exec (s := s.taken) hb h)
      | illegal _ _ h => exact .inl (h ▸ sameBuilder_rfl s)
      | build hp h => exact .inr ⟨hp, h⟩
      | parse _ h => exact .inl (sameBuilder_of_parserStep (s := s.taken) h)
    all_goals subst_vars; exact .inl (sameBuilder_rfl s)

/-! ## Their ranges -/

/-- The ranges of the parser's transients while it is in use. -/
abbrev State.ParserOk (s : State) : Prop :=
  (s.fstate = .consumePayload → 2 ≤ s.fidx.toNat ∧ s.fidx.toNat < s.flen.toNat) ∧
  (s.fstate = .validate → s.fidx = s.flen ∧ 3 ≤ s.flen.toNat)

/-- The ranges of the builder's transients, and whose message it adds, said of the port that is between micro-steps of
an ADD_MESSAGE. -/
abbrev State.BuilderOk (s : State) : Prop :=
  ∀ a, (s.port a).phase = .building →
    3 ≤ s.blen.toNat ∧ s.bidx.toNat < s.blen.toNat ∧ (s.port a).cmd.decoded s.cfg.width = .ok (.addMessage s.blen)

theorem offsetsOk_iff (s : State) : s.OffsetsOk ↔ s.ParserOk ∧ s.BuilderOk := by
  constructor
  · rintro ⟨hconsume, hvalidate, hrange, hA, hS⟩
    refine ⟨⟨hconsume, hvalidate⟩, fun a ha => ?_⟩
    obtain ⟨hlen, hidx⟩ := hrange ((builderBusy_iff s).mpr ⟨a, ha⟩)
    cases a
    · exact ⟨hlen, hidx, hA ha⟩
    · exact ⟨hlen, hidx, hS ha⟩
  · rintro ⟨⟨hconsume, hvalidate⟩, hbuild⟩
    refine ⟨hconsume, hvalidate, fun hb => ?_, fun hA => (hbuild .async hA).2.2, fun hS => (hbuild .sync hS).2.2⟩
    obtain ⟨a, ha⟩ := (builderBusy_iff s).mp hb
    exact ⟨(hbuild a ha).1, (hbuild a ha).2.1⟩

theorem parserOk_of_sameParser {s t : State} (h : s.ParserOk) (hs : s.SameParser t) : t.ParserOk := by
  obtain ⟨hfstate, hflen, hfidx, -⟩ := hs
  rwa [State.ParserOk, hfstate, hflen, hfidx]

theorem parserOk_of_parserStep {s t : State} (h : s.ParserOk) (ht : parserStep s = .next t) : t.ParserOk := by
  obtain ⟨hconsume, -⟩ := h
  cases parserStep_next ht
  case length hlen => exact ⟨fun _ => ⟨le_rfl, hlen⟩, nofun⟩
  case payload hf _ _ =>
    obtain ⟨hlow, hhigh⟩ := hconsume hf
    have hsucc : (s.fidx + 1).toNat = s.fidx.toNat + 1 := byte_succ_toNat hhigh
    by_cases hend : s.fidx + 1 = s.flen
    · have hlast : s.fidx.toNat + 1 = s.flen.toNat := (byte_succ_eq_iff hhigh).mp hend
      simp only [State.ParserOk, State.pause_fstate, if_pos hend]
      exact ⟨nofun, fun _ => ⟨hend, show 3 ≤ s.flen.toNat by omega⟩⟩
    · have hmore : s.fidx.toNat + 1 ≠ s.flen.toNat := (byte_succ_eq_iff hhigh).not.mp hend
      simp only [State.ParserOk, State.pause_fstate, if_neg hend]
      exact ⟨fun _ => ⟨show 2 ≤ (s.fidx + 1).toNat by omega, show (s.fidx + 1).toNat < s.flen.toNat by omega⟩, nofun⟩
  all_goals exact ⟨nofun, nofun⟩

theorem parserOk_of_exec {i : Instr} {s t : State} (he : s.EnginesOk) (hp : (s.port s.active).phase = .accepted)
    (h : s.ParserOk) (ht : exec i s = .next t) : t.ParserOk := by
  have ⟨_, _, hidle, _⟩ := he
  cases hb : s.parserBusy with
  | true => exact parserOk_of_sameParser h (sameParser_of_exec hb ht)
  | false =>
    have hf : t.fstate = .idle ∨ t.fstate = .awaitLength := by
      cases engineMove_of_exec he hp ht with
      | ends _ hf =>
        obtain ⟨hp', -⟩ | ⟨-, hf⟩ := hf
        · simp [hp] at hp'
        · exact .inl (hf.trans (hidle hb))
      | builds _ _ _ hf => exact .inl (hf.trans (hidle hb))
      | beginsParse _ _ hf => exact .inr hf
      | parses _ hp' _ => simp [hp] at hp'
    obtain hf | hf := hf <;> exact ⟨by simp [hf], by simp [hf]⟩

theorem parserOk_of_microStep {s t : State} (he : s.EnginesOk) (h : s.ParserOk) (ht : MicroStep s t) : t.ParserOk := by
  cases ht with
  | perform hp _ ht => exact parserOk_of_exec he hp h ht
  | illegal _ _ ht => exact parserOk_of_sameParser h (ht ▸ sameParser_rfl s)
  | build _ ht => exact parserOk_of_sameParser h (sameParser_of_addMessageByte ht)
  | parse _ ht => exact parserOk_of_parserStep h ht

/-- The ports after a micro-step: the other agent's is what it was, and the mover's is between micro-steps of an
ADD_MESSAGE only when the micro-step leaves its transients as `hmover` says. -/
theorem builderOk_of_moved {s t : State} {p : Phase} (h : s.BuilderOk) (hm : s.Moved t p) (hcfg : t.cfg = s.cfg)
    (hother : (s.port s.active.other).phase = .building → s.SameBuilder t)
    (hmover : p = .building →
      3 ≤ t.blen.toNat ∧ t.bidx.toNat < t.blen.toNat ∧ s.command.decoded s.cfg.width = .ok (.addMessage t.blen)) :
    t.BuilderOk := by
  obtain ⟨hport, hkept⟩ := ports_of_moved hm
  intro a ha
  rw [hcfg]
  obtain rfl | rfl := eq_or_eq_other s.active a
  · rw [hport] at ha ⊢
    exact hmover ha
  · rw [hkept] at ha ⊢
    obtain ⟨hblen, hbidx⟩ := hother ha
    rw [hblen, hbidx]
    exact h _ ha

theorem builderOk_of_exec {i : Instr} {s t : State} (h : s.BuilderOk)
    (hd : s.command.decoded s.cfg.width = .ok i) (ht : exec i s = .next t) : t.BuilderOk := by
  have hother : (s.port s.active.other).phase = .building → s.SameBuilder t := fun hb =>
    sameBuilder_of_exec ((builderBusy_iff s).mpr ⟨_, hb⟩) ht
  obtain ⟨hcfg, -⟩ := sameEnvironment_of_endsIn (exec_endsIn ht)
  cases exec_next ht
  case addBegun n hn _ _ _ =>
    exact builderOk_of_moved h (moved_pause .building (samePorts_rfl s)) rfl hother
      fun _ => ⟨hn, show 0 < n.toNat by omega, hd⟩
  case getBegun => exact builderOk_of_moved h (moved_pause .parsing (samePorts_rfl s)) rfl hother nofun
  all_goals exact builderOk_of_moved h (moved_answer _ _ (samePorts_rfl s)) rfl hother nofun

theorem builderOk_of_addMessageByte {s t : State} (he : s.EnginesOk) (h : s.BuilderOk)
    (hp : (s.port s.active).phase = .building) (ht : addMessageByte s = .next t) : t.BuilderOk := by
  obtain ⟨hnb, -⟩ := (enginesOk_iff s s.active).mp he
  have hother : (s.port s.active.other).phase = .building → s.SameBuilder t := fun hb => absurd ⟨hp, hb⟩ hnb
  obtain ⟨hlen, hidx, hd⟩ := h _ hp
  cases addMessageByte_next ht
  case full => exact builderOk_of_moved h (moved_answer .full 0 (samePorts_rfl s)) rfl hother nofun
  case last hu _ _ =>
    obtain ⟨-, -, rfl⟩ | ⟨-, -, -, rfl⟩ := hu <;>
      exact builderOk_of_moved h (moved_answer .ok 0 (samePorts_rfl s)) rfl hother nofun
  case more hu _ hne =>
    have hsucc : (s.bidx + 1).toNat = s.bidx.toNat + 1 := byte_succ_toNat hidx
    have hmore : s.bidx.toNat + 1 ≠ s.blen.toNat := (byte_succ_eq_iff hidx).not.mp hne
    obtain ⟨-, -, rfl⟩ | ⟨-, -, -, rfl⟩ := hu <;>
      exact builderOk_of_moved h (moved_pause .building (samePorts_rfl s)) rfl hother
        fun _ => ⟨hlen, show (s.bidx + 1).toNat < s.blen.toNat by omega, hd⟩

theorem builderOk_of_parserStep {s t : State} (h : s.BuilderOk) (ht : parserStep s = .next t) : t.BuilderOk := by
  have hother : (s.port s.active.other).phase = .building → s.SameBuilder t := fun _ => sameBuilder_of_parserStep ht
  cases parserStep_next ht
  case length => exact builderOk_of_moved h (moved_pause .parsing (samePorts_rfl s)) rfl hother nofun
  case payload => exact builderOk_of_moved h (moved_pause .parsing (samePorts_rfl s)) rfl hother nofun
  all_goals exact builderOk_of_moved h (moved_answer _ _ (samePorts_rfl s)) rfl hother nofun

theorem builderOk_of_microStep {s t : State} (he : s.EnginesOk) (h : s.BuilderOk) (ht : MicroStep s t) :
    t.BuilderOk := by
  cases ht with
  | perform _ hd ht => exact builderOk_of_exec h hd ht
  | illegal _ _ ht =>
    exact ht ▸ builderOk_of_moved h (moved_answer .badCommand 0 (samePorts_rfl s)) rfl
      (fun _ => sameBuilder_rfl s) nofun
  | build hp ht => exact builderOk_of_addMessageByte he h hp ht
  | parse _ ht => exact builderOk_of_parserStep h ht

/-- Settles O56: a micro-step keeps the ranges, and the other steps write no transient and put no port between the
micro-steps of an ADD_MESSAGE. -/
theorem offsetsStayInRange : Obligations.OffsetsStayInRange := by
  intro s t hinv h ht
  have ⟨_, _, _, hengines, _⟩ := hinv
  obtain ⟨hparser, hbuilder⟩ := (offsetsOk_iff s).mp h
  cases step_next ht
  case hwReset h =>
    refine h ▸ (offsetsOk_iff _).mpr ⟨⟨nofun, nofun⟩, fun a ha => ?_⟩
    cases a <;> cases ha
  case micro hmicro =>
    exact (offsetsOk_iff _).mpr ⟨parserOk_of_microStep (s := s.taken) hengines hparser hmicro,
      builderOk_of_microStep (s := s.taken) hengines hbuilder hmicro⟩
  case asyncBegins h =>
    refine h ▸ (offsetsOk_iff _).mpr ⟨hparser, fun a ha => ?_⟩
    cases a
    · cases ha
    · exact hbuilder .sync ha
  case syncBegins h =>
    refine h ▸ (offsetsOk_iff _).mpr ⟨hparser, fun a ha => ?_⟩
    cases a
    · exact hbuilder .async ha
    · cases ha
  all_goals subst_vars; exact h

end Sys2Proof.Machine

/-! What the transients of the two engines count and when they are lost (70_reset_and_hazards R244, log 28), and that
every operation ends. -/

namespace Sys2Proof.Machine

/-! ## The first micro-steps of the framer, as rules for a given operation -/

theorem exec_addMessage_next {n : Byte} {s t : State} (h : exec (.addMessage n) s = .next t) :
    (∃ e, t = { s with blen := n }.voidBuilder.answer e 0) ∨
      3 ≤ n.toNat ∧ t = { s with blen := n, bidx := 0 }.pause .building := by
  cases exec_next h
  case addRefused => exact .inl ⟨_, rfl⟩
  case addBegun hn _ _ _ => exact .inr ⟨hn, rfl⟩
  all_goals exact absurd ‹_ ∨ _› (by simp)

theorem exec_getMessage_next {s t : State} (h : exec .getMessage s = .next t) :
    t.rsp ≠ none ∨ t = { s.popped with fstate := .awaitLength }.pause .parsing := by
  cases exec_next h
  case getBegun => exact .inr rfl
  case getEmpty => exact .inl nofun
  case getWrong => exact .inl nofun
  all_goals exact absurd ‹_ ∨ _› (by simp)

/-! ## The number of micro-steps (70 R244) -/

/-- Settles O57, by the micro-steps that go on. -/
theorem framerMicroStepsAreBounded : Obligations.FramerMicroStepsAreBounded := by
  refine ⟨fun s t n h hr => ?check, fun s t ho hb h hr => ?byte, fun s t h hr => ?start, fun s t hf h hr => ?length,
    fun s t ho hf h hr => ?payload, fun s t hf h => ?validate⟩
  case check =>
    obtain ⟨e, rfl⟩ | ⟨hn, rfl⟩ := exec_addMessage_next h
    · cases hr
    · exact ⟨hn, rfl, rfl⟩
  case byte =>
    obtain ⟨-, -, hrange, -⟩ := ho
    obtain ⟨-, hidx⟩ := hrange hb
    cases addMessageByte_next h
    case more hu _ hne =>
      have hsucc : (s.bidx + 1).toNat = s.bidx.toNat + 1 := byte_succ_toNat hidx
      have hmore : s.bidx.toNat + 1 ≠ s.blen.toNat := (byte_succ_eq_iff hidx).not.mp hne
      have hlt : (s.bidx + 1).toNat < s.blen.toNat := by omega
      obtain ⟨-, -, rfl⟩ | ⟨-, -, -, rfl⟩ := hu <;> exact ⟨rfl, hsucc, hlt⟩
    all_goals cases hr
  case start =>
    obtain hne | rfl := exec_getMessage_next h
    · exact absurd hr hne
    · rfl
  case length =>
    cases parserStep_next h
    case length b _ _ _ hb hlen => exact ⟨b, hb, hlen, rfl, rfl, rfl⟩
    case payload hf' _ _ => simp [hf] at hf'
    all_goals cases hr
  case payload =>
    obtain ⟨hconsume, -⟩ := ho
    obtain ⟨-, hidx⟩ := hconsume hf
    have hsucc : (s.fidx + 1).toNat = s.fidx.toNat + 1 := byte_succ_toNat hidx
    cases parserStep_next h
    case payload =>
      refine ⟨rfl, hsucc, ?_⟩
      by_cases hend : s.fidx + 1 = s.flen
      · exact .inr ⟨if_pos hend, hend⟩
      · have hmore : s.fidx.toNat + 1 ≠ s.flen.toNat := (byte_succ_eq_iff hidx).not.mp hend
        exact .inl ⟨if_neg hend, show (s.fidx + 1).toNat < s.flen.toNat by omega⟩
    case length hf' _ _ _ => simp [hf] at hf'
    all_goals cases hr
  case validate =>
    cases parserStep_next h
    case length hf' _ _ _ => simp [hf] at hf'
    case payload hf' _ _ => simp [hf] at hf'
    all_goals nofun

/-! ## Transients outside an operation hold no value (10_state R11, R21 to R24, log 28) -/

theorem voidTransients_forgets_frame {s : State} (hb : s.parserBusy = false) (l x y : Byte) :
    { s with flen := l, fidx := x, fxor := y }.voidTransients = s.voidTransients := by
  have hb' : { s with flen := l, fidx := x, fxor := y }.parserBusy = false := hb
  unfold State.voidTransients
  rw [hb', hb]
  rfl

theorem voidTransients_forgets_builder {s : State} (hb : s.builderBusy = false) (b d : Byte) :
    { s with blen := b, bidx := d }.voidTransients = s.voidTransients := by
  have hb' : { s with blen := b, bidx := d }.builderBusy = false := hb
  unfold State.voidTransients
  rw [hb', hb]
  rfl

/-- An init, and a TEARDOWN of a dynamic ring, read of a state only what its voided transients leave. -/
theorem exec_congr_of_voidTransients {s s' : State} {i : Instr} (hv : s'.voidTransients = s.voidTransients)
    (hi : (∃ n, i = .initStatic n) ∨ (∃ n, i = .initDynamic n) ∨ (i = .teardown ∧ s.life = .dynamic)) :
    exec i s' = exec i s := by
  have hlife : s'.life = s.life := by simpa using congrArg State.life hv
  have hcfg : s'.cfg = s.cfg := by simpa using congrArg State.cfg hv
  have hfresh : s'.fresh = s.fresh := by simpa using congrArg State.fresh hv
  have hcommand : s'.command = s.command := (congrArg State.command hv :)
  have hinit : ∀ l n high low, s'.initRing l n high low = s.initRing l n high low := fun l n high low => by
    simp only [State.initRing, hv]
  have hvoid : s'.voidRing = s.voidRing := by rw [State.voidRing, State.voidRing, hv, hcfg, hfresh]
  obtain ⟨n, rfl⟩ | ⟨n, rfl⟩ | ⟨rfl, hl⟩ := hi
  · simp only [exec, execInitStatic, hlife, hcfg, hinit]
  · simp only [exec, execInitDynamic, hlife, hcfg, hcommand, hinit, hvoid]
  · rw [exec_teardown_of_dynamic hl, exec_teardown_of_dynamic (hlife.trans hl), hvoid]

theorem ringPop_of_read {s : State} {b : Byte} (hc : s.count ≠ 0) (ht : s.tail < s.size)
    (hb : s.store.read s.tail = some b) : ringPop s = .done b s.popped := by
  rw [ringPop, if_neg ((empty_iff s).not.mpr hc), storeRead_of_read ht hb]
  rfl

/-- A GET_MESSAGE that ends in its first micro-step does not read `flen`, `fidx` and `fxor` (43 R170). -/
theorem exec_getMessage_forgets_frame {s t : State} (h : exec .getMessage s = .next t) (hr : t.rsp ≠ none)
    (l x y : Byte) : exec .getMessage { s with flen := l, fidx := x, fxor := y } = .next t := by
  obtain ⟨hl, h⟩ := liveOnly_next h
  split at h
  · cases h
  next hb =>
    have hfree : s.parserBusy = false := by simpa using hb
    rcases ringPop_cases { s with fstate := .awaitStart } with ⟨hc, hpop⟩ | ⟨b, hc, ht, hbyte, hpop⟩ | ⟨-, -, -, hpop⟩ |
      ⟨-, -, hpop⟩ <;> rw [hpop] at h <;> cases h
    · exact exec_getMessage_of_empty (s := { s with flen := l, fidx := x, fxor := y }) hl hfree hc
    · have hpop' := exec_getMessage_of_pop (s := { s with flen := l, fidx := x, fxor := y }) hl hfree
        (ringPop_of_read hc ht hbyte)
      by_cases hs : b = s.cfg.startByte
      · have hgoes := startPopped_of_start (s := { s with fstate := .awaitStart }.popped) hs
        exact absurd (congrArg State.rsp hgoes) hr
      · have hends := startPopped_of_other (s := { s with fstate := .awaitStart }.popped) hs
        have hends' := startPopped_of_other (s := { s with flen := l, fidx := x, fxor := y }.popped) hs
        rw [hpop', hends', hends]
        rfl

/-- What a GET_MESSAGE that ends in a later micro-step leaves of its transients. -/
theorem frame_of_parserStep_end {s t : State} (h : parserStep s = .next t) (hr : t.rsp ≠ none) :
    t.flen = Config.freeByte s.fresh ∧ t.fidx = Config.freeByte (s.fresh + 1) ∧
      t.fxor = Config.freeByte (s.fresh + 2) := by
  cases parserStep_next h
  case length => exact absurd rfl hr
  case payload => exact absurd rfl hr
  all_goals exact ⟨rfl, rfl, rfl⟩

/-- What an ADD_MESSAGE that ends in a byte micro-step leaves of its transients. -/
theorem builder_of_addMessageByte_end {s t : State} (h : addMessageByte s = .next t) (hr : t.rsp ≠ none) :
    t.blen = Config.freeByte s.fresh ∧ t.bidx = Config.freeByte (s.fresh + 1) := by
  cases addMessageByte_next h
  case more => exact absurd rfl hr
  case last hu _ _ => obtain ⟨-, -, rfl⟩ | ⟨-, -, -, rfl⟩ := hu <;> exact ⟨rfl, rfl⟩
  case full => exact ⟨rfl, rfl⟩

/-- Settles O55; B0 writes both of the builder's transients whatever it answers. -/
theorem transientsAreForgotten : Obligations.TransientsAreForgotten := by
  refine ⟨fun s i hi => ⟨fun hb l x y => ?frame, fun hb b d => ?builder⟩,
    fun s t l x y h hr => exec_getMessage_forgets_frame h hr l x y, fun s t n b d h => h,
    fun s s' t t' hfresh h h' hr hr' => ?parse, fun s s' t t' hfresh h h' hr hr' => ?build⟩
  case frame => exact exec_congr_of_voidTransients (voidTransients_forgets_frame hb l x y) hi
  case builder => exact exec_congr_of_voidTransients (voidTransients_forgets_builder hb b d) hi
  case parse =>
    obtain ⟨hflen, hfidx, hfxor⟩ := frame_of_parserStep_end h hr
    obtain ⟨hflen', hfidx', hfxor'⟩ := frame_of_parserStep_end h' hr'
    rw [hflen, hfidx, hfxor, hflen', hfidx', hfxor', hfresh]
    exact ⟨rfl, rfl, rfl⟩
  case build =>
    obtain ⟨hblen, hbidx⟩ := builder_of_addMessageByte_end h hr
    obtain ⟨hblen', hbidx'⟩ := builder_of_addMessageByte_end h' hr'
    rw [hblen, hbidx, hblen', hbidx', hfresh]
    exact ⟨rfl, rfl⟩

/-! ## Every operation ends -/

/-- At most how many micro-steps the operation that moves still has; an offset below its length is counted up to it, and
one outside its range over 8 bits (log 15). -/
def State.microLeft (s : State) : Nat :=
  match (s.port s.active).phase with
  | .free => 0
  | .accepted => 256
  | .building => (s.blen - (s.bidx + 1)).toNat + 1
  | .parsing =>
    match s.fstate with
    | .awaitLength => 255
    | .consumePayload => (s.flen - (s.fidx + 1)).toNat + 2
    | .idle => 1
    | .awaitStart => 1
    | .validate => 1
    | .done => 1
    | .failed => 1

/-- At most how many steps it still takes: two for each micro-step, one when its race window is open (20_memory R53). -/
def State.stepsLeft (s : State) : Nat := 2 * s.microLeft - if s.swin then 1 else 0

theorem microLeft_pos {s : State} (hb : (s.port s.active).phase ≠ .free) : 0 < s.microLeft := by
  unfold State.microLeft
  split
  · next hp => exact absurd hp hb
  · omega
  · omega
  · split <;> omega

theorem stepsLeft_pos {s : State} (hb : (s.port s.active).phase ≠ .free) : 0 < s.stepsLeft := by
  have := microLeft_pos hb
  unfold State.stepsLeft
  split_ifs <;> omega

theorem microLeft_le (s : State) : s.microLeft ≤ 257 := by
  unfold State.microLeft
  split
  · omega
  · omega
  · have := (s.blen - (s.bidx + 1)).isLt; omega
  · split
    case h_2 => have := (s.flen - (s.fidx + 1)).isLt; omega
    all_goals omega

theorem microLeft_le_of_offsetsOk {s : State} (h : s.OffsetsOk) : s.microLeft ≤ 256 := by
  obtain ⟨hconsume, -⟩ := h
  unfold State.microLeft
  split
  · omega
  · omega
  · have := (s.blen - (s.bidx + 1)).isLt; omega
  · split
    case h_2 hf =>
      obtain ⟨hlow, hhigh⟩ := hconsume hf
      bv_omega
    all_goals omega

theorem microLeft_of_building {s : State} (hp : (s.port s.active).phase = .building) :
    s.microLeft = (s.blen - (s.bidx + 1)).toNat + 1 := by
  simp only [State.microLeft, hp]

theorem microLeft_of_awaitLength {s : State} (hp : (s.port s.active).phase = .parsing) (hf : s.fstate = .awaitLength) :
    s.microLeft = 255 := by
  simp only [State.microLeft, hp, hf]

theorem microLeft_of_consumePayload {s : State} (hp : (s.port s.active).phase = .parsing)
    (hf : s.fstate = .consumePayload) : s.microLeft = (s.flen - (s.fidx + 1)).toNat + 2 := by
  simp only [State.microLeft, hp, hf]

theorem microLeft_of_validate {s : State} (hp : (s.port s.active).phase = .parsing) (hf : s.fstate = .validate) :
    s.microLeft = 1 := by
  simp only [State.microLeft, hp, hf]

/-- A micro-step answers the agent that moves, or the operation goes on with fewer micro-steps left. -/
abbrev State.EndsOrGoesOn (s t : State) : Prop :=
  ((∃ w, t.rsp = some { agent := s.active, word := w }) ∧ (t.port s.active).phase = .free) ∨
  (t.active = s.active ∧ (t.port t.active).phase ≠ .free ∧ t.microLeft < s.microLeft)

theorem endsOrGoesOn_answer {s u : State} (e : Status) (d : Nat) (hA : u.portA = s.portA) :
    s.EndsOrGoesOn (u.answer e d) :=
  .inl ⟨⟨_, by rw [State.answer_rsp, State.active_congr hA]⟩, answer_port_phase hA e d⟩

theorem endsOrGoesOn_pause {s t : State} {p : Phase} (hm : s.Moved t p) (hp : p ≠ .free)
    (hless : (t.port t.active).phase = p → t.microLeft < s.microLeft) : s.EndsOrGoesOn t :=
  .inr ⟨active_of_moved hm hp, by rwa [phase_of_moved hm hp], hless (phase_of_moved hm hp)⟩

theorem endsOrGoesOn_of_exec {i : Instr} {s t : State} (hp : (s.port s.active).phase = .accepted)
    (h : exec i s = .next t) : s.EndsOrGoesOn t := by
  have hleft : s.microLeft = 256 := by simp only [State.microLeft, hp]
  cases exec_next h
  case addBegun n _ _ _ _ =>
    refine endsOrGoesOn_pause (moved_pause .building (samePorts_rfl s)) nofun fun hp' => ?_
    rw [hleft, microLeft_of_building hp']
    change (n - (0 + 1)).toNat + 1 < 256
    bv_omega
  case getBegun =>
    refine endsOrGoesOn_pause (moved_pause .parsing (samePorts_rfl s)) nofun fun hp' => ?_
    rw [hleft, microLeft_of_awaitLength hp' rfl]
    omega
  all_goals exact endsOrGoesOn_answer _ _ rfl

theorem endsOrGoesOn_of_addMessageByte {s t : State} (hp : (s.port s.active).phase = .building)
    (h : addMessageByte s = .next t) : s.EndsOrGoesOn t := by
  have hleft := microLeft_of_building hp
  have hmore : ∀ u : State, s.SamePorts u → u.blen = s.blen → s.bidx + 1 ≠ s.blen →
      s.EndsOrGoesOn ({ u with bidx := s.bidx + 1 }.pause .building) := by
    intro u hu hblen hne
    refine endsOrGoesOn_pause (moved_pause .building hu) nofun fun hp' => ?_
    rw [hleft, microLeft_of_building hp']
    change (u.blen - (s.bidx + 1 + 1)).toNat + 1 < _
    rw [hblen]
    bv_omega
  cases addMessageByte_next h
  case last hu _ _ => obtain ⟨-, -, rfl⟩ | ⟨-, -, -, rfl⟩ := hu <;> exact endsOrGoesOn_answer _ _ rfl
  case more hu _ hne =>
    obtain ⟨-, -, rfl⟩ | ⟨-, -, -, rfl⟩ := hu <;> exact hmore _ (samePorts_rfl s) rfl hne
  case full => exact endsOrGoesOn_answer _ _ rfl

theorem endsOrGoesOn_of_parserStep {s t : State} (hp : (s.port s.active).phase = .parsing)
    (h : parserStep s = .next t) : s.EndsOrGoesOn t := by
  cases parserStep_next h
  case length b _ hf _ _ hlen =>
    refine endsOrGoesOn_pause (moved_pause .parsing (samePorts_rfl s)) nofun fun hp' => ?_
    rw [microLeft_of_awaitLength hp hf, microLeft_of_consumePayload hp' rfl]
    change (b - (2 + 1)).toNat + 2 < 255
    bv_omega
  case payload hf _ _ =>
    refine endsOrGoesOn_pause (moved_pause .parsing (samePorts_rfl s)) nofun fun hp' => ?_
    rw [microLeft_of_consumePayload hp hf]
    by_cases hend : s.fidx + 1 = s.flen
    · rw [microLeft_of_validate hp' (if_pos hend)]
      omega
    · rw [microLeft_of_consumePayload hp' (if_neg hend)]
      change (s.flen - (s.fidx + 1 + 1)).toNat + 2 < _
      bv_omega
  all_goals exact endsOrGoesOn_answer _ _ rfl

theorem endsOrGoesOn_of_microStep {s t : State} (h : MicroStep s t) : s.EndsOrGoesOn t := by
  cases h with
  | perform hp _ h => exact endsOrGoesOn_of_exec hp h
  | illegal _ _ h => exact h ▸ endsOrGoesOn_answer _ _ rfl
  | build hp h => exact endsOrGoesOn_of_addMessageByte hp h
  | parse hp h => exact endsOrGoesOn_of_parserStep hp h

/-- After `k` steps the operation of agent `a` has answered, or its run has been refused. -/
abbrev State.EndsAfter (s : State) (a : Agent) (k : Nat) : Prop :=
  (∃ t, Host.Core.run Sys2Proof.core k s = .next t ∧ (∃ w, t.rsp = some { agent := a, word := w }) ∧
    (t.port a).phase = .free) ∨
  ∃ r, Host.Core.run Sys2Proof.core k s = .refused r

theorem core_run_of_step {s t : State} (h : step s = .next t) (k : Nat) :
    Host.Core.run Sys2Proof.core (k + 1) s = Host.Core.run Sys2Proof.core k t := by
  have hs : Sys2Proof.core.step s = .next t := h
  simp only [Host.Core.run, hs]

theorem core_run_one_of_refused {s : State} {r : Refusal} (h : step s = .refused r) :
    Host.Core.run Sys2Proof.core 1 s = .refused r := by
  have hs : Sys2Proof.core.step s = .refused r := h
  simp only [Host.Core.run, hs]

/-- A step of an operation in progress, with no turn given: it ends, or it goes on with fewer steps left. -/
theorem step_ends_or_goes_on {s : State} (hinv : s.Inv) (ht : s.turns = []) (hb : (s.port s.active).phase ≠ .free) :
    s.EndsAfter s.active 1 ∨
      ∃ t, step s = .next t ∧ t.Inv ∧ t.turns = [] ∧ t.active = s.active ∧ (t.port t.active).phase ≠ .free ∧
        t.stepsLeft < s.stepsLeft := by
  have hpos := microLeft_pos hb
  have hstep := step_of_activeMoves (.inl ht) hb
  have hturns : s.taken.turns = [] := by simp [State.taken, ht]
  cases h : step s with
  | fault f => exact absurd (hstep.symm.trans h) (advance_ne_fault (inv_taken hinv) f)
  | refused r => exact .inl (.inr ⟨r, core_run_one_of_refused h⟩)
  | next t =>
    have hinv' := inv_of_step hinv h
    rcases advance_next (s := s.taken) hb (hstep.symm.trans h) with hmicro | ⟨-, -, -, hwin, rfl⟩
    · obtain ⟨hrsp, hfree⟩ | ⟨hact, hbusy, hless⟩ := endsOrGoesOn_of_microStep hmicro
      · exact .inl (.inl ⟨t, core_run_of_step h 0, hrsp, hfree⟩)
      · obtain ⟨-, -, -, -, hturns'⟩ := sameEnvironment_of_endsIn (microStep_endsIn hmicro)
        have hless' : t.microLeft < s.microLeft := hless
        refine .inr ⟨t, rfl, hinv', hturns'.trans hturns, hact, hbusy, ?_⟩
        unfold State.stepsLeft
        split_ifs <;> omega
    · refine .inr ⟨_, rfl, hinv', hturns, rfl, hb, ?_⟩
      have hwin' : s.swin = false := hwin
      change 2 * s.microLeft - 1 < 2 * s.microLeft - if s.swin then 1 else 0
      simp [hwin']
      omega

theorem endsAfter_within (n : Nat) {s : State} (hinv : s.Inv) (ht : s.turns = [])
    (hb : (s.port s.active).phase ≠ .free) (hn : s.stepsLeft ≤ n) : ∃ k, k ≤ n ∧ s.EndsAfter s.active k := by
  induction n generalizing s with
  | zero =>
    have := stepsLeft_pos hb
    omega
  | succ n ih =>
    obtain hend | ⟨t, h, hinv', ht', hact, hb', hless⟩ := step_ends_or_goes_on hinv ht hb
    · exact ⟨1, by omega, hend⟩
    · obtain ⟨k, hk, hend⟩ := ih hinv' ht' hb' (by omega)
      refine ⟨k + 1, by omega, ?_⟩
      rw [State.EndsAfter, core_run_of_step h, ← hact]
      exact hend

/-- Settles O53: the steps left bound the run. -/
theorem everyOperationEnds : Obligations.EveryOperationEnds := by
  intro s hinv ht hb
  obtain ⟨k, hk, hend⟩ := endsAfter_within s.stepsLeft hinv ht hb le_rfl
  have hle : k ≤ 2 * s.microLeft := hk.trans (Nat.sub_le _ _)
  have hmicro := microLeft_le s
  exact ⟨k, by omega, fun ho => by have := microLeft_le_of_offsetsOk ho; omega, hend⟩

end Sys2Proof.Machine

/-! What an operation's first micro-step writes (10_state R10, 60_exceptions R212). -/

namespace Sys2Proof.Machine

/-! ## The writers of each register (10_state R10) -/

/-- The operations that may void the ring's registers and the transients of an idle engine (10_state R11, R33). -/
abbrev VoidingOp (i : Instr) : Prop := (∃ n, i = .initStatic n) ∨ (∃ n, i = .initDynamic n) ∨ i = .teardown

/-- The pushes. -/
abbrev PushOp (i : Instr) : Prop := (∃ b, i = .push b) ∨ (∃ b, i = .pushOvw b) ∨ ∃ b, i = .pushSafe b

theorem pushOp_of_eq {i : Instr} {b : Byte} (h : i = .push b ∨ i = .pushOvw b ∨ i = .pushSafe b) : PushOp i :=
  h.imp (⟨b, ·⟩) (·.imp (⟨b, ·⟩) (⟨b, ·⟩))

section
variable {i : Instr} {s t : State} (h : exec i s = .next t)
include h

theorem lifecycle_kept_or_voidingOp : (t.life = s.life ∧ t.size = s.size) ∨ VoidingOp i := by
  cases exec_next h
  case initStatic | initDynamic | initFailed | teardown => simp [VoidingOp]
  all_goals exact .inl ⟨rfl, rfl⟩

theorem highWatermark_kept_or_written :
    t.highWatermark = s.highWatermark ∨ VoidingOp i ∨ ∃ v, i = .setHighWm v := by
  cases exec_next h
  case initStatic | initDynamic | initFailed | teardown => simp [VoidingOp]
  case setHigh => simp
  all_goals exact .inl rfl

theorem lowWatermark_kept_or_written : t.lowWatermark = s.lowWatermark ∨ VoidingOp i ∨ ∃ v, i = .setLowWm v := by
  cases exec_next h
  case initStatic | initDynamic | initFailed | teardown => simp [VoidingOp]
  case setLow => simp
  all_goals exact .inl rfl

theorem overwriteEnabled_kept_or_written :
    t.overwriteEnabled = s.overwriteEnabled ∨ VoidingOp i ∨ ∃ e, i = .setOverwrite e := by
  cases exec_next h
  case initStatic | initDynamic | initFailed | teardown => simp [VoidingOp]
  case setOverwrite => simp
  all_goals exact .inl rfl

theorem head_store_kept_or_written :
    (t.head = s.head ∧ t.store = s.store) ∨ VoidingOp i ∨ i = .reset ∨ PushOp i := by
  cases exec_next h
  case initStatic | initDynamic | initFailed | teardown => simp [VoidingOp]
  case reset => simp
  case pushed hi _ _ _ => exact .inr (.inr (.inr (pushOp_of_eq hi)))
  case overwritten hi _ _ _ _ => exact .inr (.inr (.inr (pushOp_of_eq hi)))
  all_goals exact .inl ⟨rfl, rfl⟩

theorem tail_count_kept_or_written :
    (t.tail = s.tail ∧ t.count = s.count) ∨ VoidingOp i ∨ i = .reset ∨ PushOp i ∨ i = .pop ∨ i = .popSafe ∨
      i = .getMessage := by
  cases exec_next h
  case initStatic | initDynamic | initFailed | teardown => simp [VoidingOp]
  case reset | getWrong | getBegun => simp
  case pushed hi _ _ _ => exact .inr (.inr (.inr (.inl (pushOp_of_eq hi))))
  case overwritten hi _ _ _ _ => exact .inr (.inr (.inr (.inl (pushOp_of_eq hi))))
  case popped hi _ _ _ => obtain rfl | rfl := hi <;> simp
  all_goals exact .inl ⟨rfl, rfl⟩

theorem fstate_kept_or_getMessage : t.fstate = s.fstate ∨ i = .getMessage := by
  cases exec_next h
  case getEmpty | getWrong | getBegun => exact .inr rfl
  all_goals exact .inl rfl

theorem frame_kept_or_written :
    (t.flen = s.flen ∧ t.fidx = s.fidx ∧ t.fxor = s.fxor) ∨ i = .getMessage ∨
      (s.parserBusy = false ∧ VoidingOp i) := by
  cases hb : s.parserBusy with
  | true =>
    obtain ⟨-, hframe⟩ := sameParser_of_exec hb h
    exact .inl hframe
  | false =>
    cases exec_next h
    case initStatic | initDynamic | initFailed | teardown => simp [VoidingOp]
    case getEmpty | getWrong | getBegun => exact .inr (.inl rfl)
    all_goals exact .inl ⟨rfl, rfl, rfl⟩

theorem builder_kept_or_written :
    (t.blen = s.blen ∧ t.bidx = s.bidx) ∨ (∃ n, i = .addMessage n) ∨ (s.builderBusy = false ∧ VoidingOp i) := by
  cases hb : s.builderBusy with
  | true => exact .inl (sameBuilder_of_exec hb h)
  | false =>
    cases exec_next h
    case initStatic | initDynamic | initFailed | teardown => simp [VoidingOp]
    case addRefused | addBegun => exact .inr (.inl ⟨_, rfl⟩)
    all_goals exact .inl ⟨rfl, rfl⟩

theorem output_kept : t.obuf = s.obuf ∧ t.olen = s.olen := by
  cases exec_next h <;> exact ⟨rfl, rfl⟩

theorem diag_kept_or_dump : t.diag = s.diag ∨ i = .dump := by
  cases exec_next h
  case dump => exact .inr rfl
  all_goals exact .inl rfl

end

/-- Settles O51, register by register. -/
theorem registersChangeOnlyByTheirWriters : Obligations.RegistersChangeOnlyByTheirWriters := by
  intro i s t h
  obtain ⟨-, henv⟩ := sameEnvironment_of_endsIn (exec_endsIn h)
  refine ⟨fun hne => (lifecycle_kept_or_voidingOp h).resolve_left (not_and_or.mpr hne), fun hne => ?high,
    fun hne => ?low, fun hne => ?policy, fun hne => ?headStore, fun hne => ?tailCount,
    fun hne => (fstate_kept_or_getMessage h).resolve_left hne, fun hne => ?frame, output_kept h,
    fun hne => (builder_kept_or_written h).resolve_left (not_and_or.mpr hne),
    fun hne => (diag_kept_or_dump h).resolve_left hne, henv⟩
  case high => simpa only [or_assoc] using (highWatermark_kept_or_written h).resolve_left hne
  case low => simpa only [or_assoc] using (lowWatermark_kept_or_written h).resolve_left hne
  case policy => simpa only [or_assoc] using (overwriteEnabled_kept_or_written h).resolve_left hne
  case headStore =>
    simpa only [or_assoc] using (head_store_kept_or_written h).resolve_left (not_and_or.mpr hne)
  case tailCount =>
    simpa only [or_assoc] using (tail_count_kept_or_written h).resolve_left (not_and_or.mpr hne)
  case frame =>
    refine (frame_kept_or_written h).resolve_left fun ⟨hflen, hfidx, hfxor⟩ => ?_
    simp [hflen, hfidx, hfxor] at hne

/-! ## What a failure leaves (60_exceptions R212) -/

/-- The ring and the output buffer are what they were. -/
abbrev State.RingUntouched (s t : State) : Prop :=
  s.SameControl t ∧ s.SameIndices t ∧ t.store = s.store ∧ t.obuf = s.obuf ∧ t.olen = s.olen

theorem ringUntouched_rfl (s : State) : s.RingUntouched s := ⟨sameControl_rfl s, sameIndices_rfl s, rfl, rfl, rfl⟩

/-- What an operation's first micro-step that answers with a status leaves. -/
inductive FailureEffect (i : Instr) (s t : State) : Status → Prop where
  | succeeded : FailureEffect i s t .ok
  | untouched {e : Status}
      (he : e = .full ∨ e = .empty ∨ e = .outOfRange ∨ e = .invalidLength ∨ e = .insufficientSpace)
      (h : s.RingUntouched t) : FailureEffect i s t e
  | voided (hi : ∃ n, i = .initDynamic n) (hl : t.life = .uninit) : FailureEffect i s t .allocationError
  | byteLost (h : s.popped.RingUntouched t) : FailureEffect i s t .invalidStart

/-- The status of the response, and what it says about the next state. -/
theorem exec_failureEffect {i : Instr} {s t : State} {r : Response} (h : exec i s = .next t) (hr : t.rsp = some r) :
    ∃ e d, r.word = rspWord s.cfg.width e.code.toNat d ∧ FailureEffect i s t e := by
  have hword : ∀ {u : State} {e : Status} {d : Nat}, u.cfg = s.cfg → (u.answer e d).rsp = some r →
      r.word = rspWord s.cfg.width e.code.toNat d := fun hcfg hr => by
    cases hr
    rw [hcfg, responseWord_toNat]
  cases exec_next h
  case initFailed => exact ⟨_, _, hword rfl hr, .voided ⟨_, rfl⟩ rfl⟩
  case full => exact ⟨_, _, hword rfl hr, .untouched (.inl rfl) (ringUntouched_rfl s)⟩
  case empty => exact ⟨_, _, hword rfl hr, .untouched (.inr (.inl rfl)) (ringUntouched_rfl s)⟩
  case getEmpty => exact ⟨_, _, hword rfl hr, .untouched (.inr (.inl rfl)) (ringUntouched_rfl s)⟩
  case peekOut => exact ⟨_, _, hword rfl hr, .untouched (.inr (.inr (.inl rfl))) (ringUntouched_rfl s)⟩
  case thresholdOut => exact ⟨_, _, hword rfl hr, .untouched (.inr (.inr (.inl rfl))) (ringUntouched_rfl s)⟩
  case addRefused he _ _ => exact ⟨_, _, hword rfl hr, .untouched (.inr (.inr (.inr he))) (ringUntouched_rfl s)⟩
  case getWrong => exact ⟨_, _, hword rfl hr, .byteLost (ringUntouched_rfl s.popped)⟩
  case addBegun => cases hr
  case getBegun => cases hr
  all_goals exact ⟨_, _, hword rfl hr, .succeeded⟩

theorem rspWord_status_inj {W a b d d' : Nat} (ha : a < 16) (hb : b < 16) (h : rspWord W a d = rspWord W b d') :
    a = b := by
  obtain ⟨-, hstatus, -⟩ := rspWord_fields W d ha
  obtain ⟨-, hstatus', -⟩ := rspWord_fields W d' hb
  rw [← hstatus, h, hstatus']

/-- Settles O52, by the status, which is read back from the response word. -/
theorem failuresWriteOnlyWhatTheyMay : Obligations.FailuresWriteOnlyWhatTheyMay := by
  intro i s t r h hr
  obtain ⟨e, d, hword, heffect⟩ := exec_failureEffect h hr
  have hstatus : ∀ k, k < 16 → r.word = rspWord s.cfg.width k 0 → e.code.toNat = k := fun k hk hk' =>
    rspWord_status_inj e.code.isLt hk (hword.symm.trans hk')
  refine ⟨fun k hk hk' => ?untouched, fun hk' => ?voided, fun hk' => ?byteLost⟩
  case untouched =>
    have hcode := hstatus k (by simp at hk; omega) hk'
    cases heffect with
    | untouched _ h => exact h
    | succeeded | voided | byteLost => subst hcode; simp [Status.code] at hk
  case voided =>
    have hcode := hstatus 0x4 (by omega) hk'
    cases heffect with
    | voided hi hl => exact ⟨hl, hi⟩
    | untouched he _ => obtain rfl | rfl | rfl | rfl | rfl := he <;> simp [Status.code] at hcode
    | succeeded | byteLost => simp [Status.code] at hcode
  case byteLost =>
    have hcode := hstatus 0x7 (by omega) hk'
    cases heffect with
    | byteLost h =>
      obtain ⟨hctl, ⟨hhead, htail, hcount⟩, hstore, hout⟩ := h
      exact ⟨hctl, hhead, hstore, hout.1, hout.2, htail, hcount⟩
    | untouched he _ => obtain rfl | rfl | rfl | rfl | rfl := he <;> simp [Status.code] at hcode
    | succeeded | voided => simp [Status.code] at hcode

end Sys2Proof.Machine
